-- ==== Sys2Proof/Word.lean ====
section
/-! DEFINITION. The bit vectors of the hardware: a character or channel value (8 bits), a register-port data word
(32 bits, 00_scope.md R8 DATA_BITS), and the 48-bit form in which the model writes one table word with its operands. -/

namespace Sys2Proof

/-- A character (00_scope.md R13), a channel value (30_encoding.md R91) or a byte of a word. -/
abbrev Byte := BitVec 8

/-- A data word of the register port (20_memory.md R67). -/
abbrev Data := BitVec 32

/-- One word of the opcode table with its operands: the selector in the bits the table numbers, from bit 0; the operand
from bit 16 up. DESIGN CHOICE (log 2). -/
abbrev Word := BitVec 48

end Sys2Proof
end

