-- ==== Sys2Proof/Config.lean ====
section
/-! DEFINITION. What the specification fixes for the instance (00_scope.md R7, R8, R9) and the free values that stand for
what it leaves unspecified (60_exceptions.md R256; log 6). -/

namespace Sys2Proof.Config

/-- `HAS_RLE` of the machine right after reset in this model: the spec's default (00_scope.md R9; log 12). -/
def defaultHasRle : Bool := true

/-- `RB_CODE`, the row-break character (30_encoding.md R96; log 19). -/
def rbCode : Byte := 0x0A#8

/-- Reset value of THRESH, the literal 380 (10_state.md R25). -/
def thresholdReset : BitVec 11 := 380#11

/-- The threshold scale and its divisor (30_encoding.md R97). -/
abbrev thresholdScale : Nat := 768
abbrev percentDivisor : Nat := 100

/-- The decomposition base and the largest encodable count of the run alphabet (00_scope.md R7). -/
abbrev runBase : Nat := 20
abbrev runMax : Nat := 400

/-- `LINE_CAP` (00_scope.md R8). -/
abbrev lineCap : Nat := 16384

/-! Free values: what the ten datapath registers hold after the n-th error entry. Nothing constrains them
(60_exceptions.md R256: "hold unspecified values"). -/

opaque freeAcc : Nat → BitVec 8
opaque freeNbits : Nat → BitVec 3
opaque freeCol : Nat → BitVec 16
opaque freeRow : Nat → BitVec 16
opaque freePend : Nat → Byte
opaque freeRun : Nat → BitVec 14
opaque freeFresh : Nat → Bool
opaque freeLine : Nat → List Byte
opaque freePrev : Nat → List Byte
opaque freePrevValid : Nat → Bool

/-! Free values: the sample that PixRead gives at an address outside the frame (20_memory.md R62: "never needed and is unspecified";
log 10). -/

opaque freeRed : Nat → Byte
opaque freeGreen : Nat → Byte
opaque freeBlue : Nat → Byte

end Sys2Proof.Config
end

