-- ==== Sys2Proof/Syntax.lean ====
section
/-! DEFINITION. The operations of spec/opcode_table.json, one constructor per row, in the table's order (30_encoding.md R116),
with the operands the rules give them. -/

namespace Sys2Proof

/-- One PixelSample: three 8-bit channels (30_encoding.md R91). -/
structure Pixel where
  r : Byte
  g : Byte
  b : Byte
deriving DecidableEq, Repr

/-- A condition vector of format UOP_R (30_encoding.md R108). -/
structure RastCond where
  full : Bool
  lastcol : Bool
  lastrow : Bool
deriving DecidableEq, Repr

/-- A character that RAST hands on: a hex digit, by its nibble, or the row-break (40_rasterizer.md R136, R138). -/
inductive RasterChar where
  | digit (n : BitVec 4)
  | rowBreak
deriving DecidableEq, Repr

/-- The six rows of format UOP_R. Their patterns are not exclusive (30_encoding.md R116), so a UOP_R word is read together
with the row it is for (log 2). -/
inductive RastRow where
  | classify
  | pack
  | emitFull
  | emitLastcol
  | rowend
  | frameend
deriving DecidableEq, Repr

/-- Where a word stands: the format that gives its selector a meaning (30_encoding.md R90). -/
inductive Space where
  | hreg
  | seq
  | uopR (row : RastRow)
  | uopC
  | sym8
deriving DecidableEq, Repr

/-- One operation or output symbol of the table. -/
inductive Instr where
  /- HREG (30_encoding.md R104, R105). `hi` is WDATA[31:2] of a CTRL write, ignored (R203); `v` is WDATA. -/
  | wrCtrlNop (hi : BitVec 30)
  | wrCtrlStart (hi : BitVec 30)
  | wrCtrlClear (hi : BitVec 30)
  | wrCtrlRsvd (hi : BitVec 30)
  | rdCtrl
  | rdStatus
  | wrStatus (v : Data)
  | wrPct (v : Data)
  | rdPct
  | rdThresh
  | wrThresh (v : Data)
  | wrCompEn (v : Data)
  | rdCompEn
  | wrWidth (v : Data)
  | rdWidth
  | wrHeight (v : Data)
  | rdHeight
  | rdBpr
  | wrBpr (v : Data)
  | rdTotal
  | wrTotal (v : Data)
  | rdErrInfo
  | wrErrInfo (v : Data)
  /- The reserved offsets (R216): direction, offset, and WDATA of a write. -/
  | rsvd28 (wr : Bool) (off : BitVec 8) (v : Data)
  | rsvd30 (wr : Bool) (off : BitVec 8) (v : Data)
  | rsvd40 (wr : Bool) (off : BitVec 8) (v : Data)
  | rsvd80 (wr : Bool) (off : BitVec 8) (v : Data)
  /- SEQ (R107). -/
  | holdIdle
  | pix
  | holdDone
  | holdErr
  /- UOP_R (R108): the bits of the condition vector that the row leaves free, then the operand. -/
  | classify (k : RastCond) (px : Pixel)
  | pack (k : RastCond) (bit : Bool)
  | emitbyteFull (lastcol lastrow : Bool)
  | emitbyteLastcol (full lastrow : Bool)
  | rowend (full lastrow : Bool)
  | frameend (full : Bool)
  /- UOP_C (R109): the free bits of the condition vector, and the incoming character; `isrb` of RSEED is told by it. -/
  | rseed (same : Bool) (c : RasterChar)
  | rrowbrk (same : Bool)
  | rsame
  | rbound (d : BitVec 4)
  /- SYM8 (R95). -/
  | hex0
  | hex1
  | hex2
  | hex3
  | hex4
  | hex5
  | hex6
  | hex7
  | hex8
  | hex9
  | hexA
  | hexB
  | hexC
  | hexD
  | hexE
  | hexF
  | cntG
  | cntH
  | cntI
  | cntJ
  | cntK
  | cntL
  | cntM
  | cntN
  | cntO
  | cntP
  | cntQ
  | cntR
  | cntS
  | cntT
  | cntU
  | cntV
  | cntW
  | cntX
  | cntY
  | cnt20g
  | cnt20h
  | cnt20i
  | cnt20j
  | cnt20k
  | cnt20l
  | cnt20m
  | cnt20n
  | cnt20o
  | cnt20p
  | cnt20q
  | cnt20r
  | cnt20s
  | cnt20t
  | cnt20u
  | cnt20v
  | cnt20w
  | cnt20x
  | cnt20y
  | cnt20z
  | fill0
  | fill1
  | rowRepeat
  | rb
deriving DecidableEq, Repr

end Sys2Proof
end

