-- ==== Sys2Proof/WellFormed.lean ====
section
/-! DEFINITION. What a term of Instr must meet to stand for a word: the offset of a reserved access lies in its row's pattern
(30_encoding.md R116, R111; 42_host_register_ops.md R216, R217), and a read carries no data (30_encoding.md R104). Every other
operand is admitted by its type. -/

namespace Sys2Proof

/-- A word offset: `OFF[1:0] = 00` (42_host_register_ops.md R217). -/
def alignedOff (off : BitVec 8) : Bool := off.toNat % 4 == 0

/-- A read carries no WDATA (30_encoding.md R104). -/
def readHasNoData (wr : Bool) (v : Data) : Bool := wr || v == 0#32

/-- Row RSVD.28: offsets 0x28, 0x2C. -/
def inRsvd28 (off : BitVec 8) : Bool := alignedOff off && off.toNat / 8 == 5

/-- Row RSVD.30: offsets 0x30 to 0x3C. -/
def inRsvd30 (off : BitVec 8) : Bool := alignedOff off && off.toNat / 16 == 3

/-- Row RSVD.40: offsets 0x40 to 0x7C. -/
def inRsvd40 (off : BitVec 8) : Bool := alignedOff off && off.toNat / 64 == 1

/-- Row RSVD.80: offsets 0x80 to 0xFC. -/
def inRsvd80 (off : BitVec 8) : Bool := alignedOff off && off.toNat / 128 == 1

/-- The check. -/
def wellFormed : Instr → Bool
  | .rsvd28 wr off v => inRsvd28 off && readHasNoData wr v
  | .rsvd30 wr off v => inRsvd30 off && readHasNoData wr v
  | .rsvd40 wr off v => inRsvd40 off && readHasNoData wr v
  | .rsvd80 wr off v => inRsvd80 off && readHasNoData wr v
  | _ => true

end Sys2Proof
end

