-- ==== Sys2Proof/Decode.lean ====
section
/-! DEFINITION. Decoding and encoding of the table's words (30_encoding.md R90 to R116). A word is 48 bits: the selector in the
bits the table numbers, the operand from bit 16 up (log 2). Fields are taken with division and remainder on the word's number. -/

namespace Sys2Proof

/-- Why a word is rejected, by name (log 23). -/
inductive DecodeError where
  /-- fewer or more bytes than a word has -/
  | wrongLength
  /-- a bit outside the selector and the operand of the format is 1 -/
  | strayBits
  /-- a register offset that is not a multiple of 4 (42_host_register_ops.md R217) -/
  | misalignedOffset
  /-- the condition vector does not match the row it is given for (30_encoding.md R108) -/
  | rowNotSelected
  /-- an 8-bit code that is none of the 59 symbols (30_encoding.md R112) -/
  | unknownSymbol
deriving DecidableEq, Repr

/-- Bit `i` of a word. -/
def bitOf (w i : Nat) : Bool := w / 2 ^ i % 2 == 1

/-- The bits `lo + n - 1` down to `lo` of a word, as a number. -/
def fieldOf (w lo n : Nat) : Nat := w / 2 ^ lo % 2 ^ n

/-- A Boolean as a bit. -/
def natOfBool (b : Bool) : Nat := if b then 1 else 0

/-! ### HREG -/

/-- Writes at the named offsets (30_encoding.md R105); `v` is WDATA, whose bits [1:0] select the CTRL command (R106). -/
def decodeNamedWrite (off : Nat) (v : Data) : Instr :=
  if off = 0x00 then
    if v.toNat % 4 = 0 then .wrCtrlNop (BitVec.ofNat 30 (v.toNat / 4))
    else if v.toNat % 4 = 1 then .wrCtrlStart (BitVec.ofNat 30 (v.toNat / 4))
    else if v.toNat % 4 = 2 then .wrCtrlClear (BitVec.ofNat 30 (v.toNat / 4))
    else .wrCtrlRsvd (BitVec.ofNat 30 (v.toNat / 4))
  else if off = 0x04 then .wrStatus v
  else if off = 0x08 then .wrPct v
  else if off = 0x0C then .wrThresh v
  else if off = 0x10 then .wrCompEn v
  else if off = 0x14 then .wrWidth v
  else if off = 0x18 then .wrHeight v
  else if off = 0x1C then .wrBpr v
  else if off = 0x20 then .wrTotal v
  else .wrErrInfo v

/-- Reads at the named offsets (30_encoding.md R105). -/
def decodeNamedRead (off : Nat) : Instr :=
  if off = 0x00 then .rdCtrl
  else if off = 0x04 then .rdStatus
  else if off = 0x08 then .rdPct
  else if off = 0x0C then .rdThresh
  else if off = 0x10 then .rdCompEn
  else if off = 0x14 then .rdWidth
  else if off = 0x18 then .rdHeight
  else if off = 0x1C then .rdBpr
  else if off = 0x20 then .rdTotal
  else .rdErrInfo

/-- The reserved offsets, 0x28 and up (30_encoding.md R111, R116). -/
def decodeReserved (wr : Bool) (off : Nat) (v : Data) : Instr :=
  if off < 0x30 then .rsvd28 wr (BitVec.ofNat 8 off) v
  else if off < 0x40 then .rsvd30 wr (BitVec.ofNat 8 off) v
  else if off < 0x80 then .rsvd40 wr (BitVec.ofNat 8 off) v
  else .rsvd80 wr (BitVec.ofNat 8 off) v

/-- A register access: WR in bit 10, OFF in bits 9 to 2, WDATA[1:0] in bits 1 and 0 (30_encoding.md R104), WDATA[31:2] in
bits 45 to 16. The two low bits of a read are don't-care. -/
def decodeHreg (w : Nat) : Except DecodeError Instr :=
  let off := fieldOf w 2 8
  let v : Data := BitVec.ofNat 32 (fieldOf w 16 30 * 4 + fieldOf w 0 2)
  if fieldOf w 11 5 ≠ 0 ∨ w / 2 ^ 46 ≠ 0 then .error .strayBits
  else if off % 4 ≠ 0 then .error .misalignedOffset
  else if bitOf w 10 then
    if off < 0x28 then .ok (decodeNamedWrite off v) else .ok (decodeReserved true off v)
  else if fieldOf w 16 30 ≠ 0 then .error .strayBits
  else if off < 0x28 then .ok (decodeNamedRead off) else .ok (decodeReserved false off 0#32)

/-! ### SEQ, UOP_R, UOP_C -/

/-- A sequencer operation: PHASE in bits 1 and 0 (30_encoding.md R107). -/
def decodeSeq (w : Nat) : Except DecodeError Instr :=
  if w = 0 then .ok .holdIdle
  else if w = 1 then .ok .pix
  else if w = 2 then .ok .holdDone
  else if w = 3 then .ok .holdErr
  else .error .strayBits

/-- The condition vector full, lastcol, lastrow in bits 2, 1, 0 (30_encoding.md R108). -/
def rastCondOf (w : Nat) : RastCond := ⟨bitOf w 2, bitOf w 1, bitOf w 0⟩

/-- A pixel port word: red in bits 23 to 16, green in 15 to 8, blue in 7 to 0 (20_memory.md R64). -/
def pixelOf (n : Nat) : Pixel :=
  ⟨BitVec.ofNat 8 (n / 65536), BitVec.ofNat 8 (n / 256), BitVec.ofNat 8 n⟩

/-- A micro-operation of RAST, read for one row (30_encoding.md R108, R116). -/
def decodeUopR (row : RastRow) (w : Nat) : Except DecodeError Instr :=
  let k := rastCondOf w
  if fieldOf w 3 13 ≠ 0 then .error .strayBits
  else match row with
    | .classify =>
      if w / 2 ^ 40 ≠ 0 then .error .strayBits else .ok (.classify k (pixelOf (fieldOf w 16 24)))
    | .pack =>
      if w / 2 ^ 17 ≠ 0 then .error .strayBits else .ok (.pack k (bitOf w 16))
    | .emitFull =>
      if w / 2 ^ 16 ≠ 0 then .error .strayBits
      else if k.full then .ok (.emitbyteFull k.lastcol k.lastrow) else .error .rowNotSelected
    | .emitLastcol =>
      if w / 2 ^ 16 ≠ 0 then .error .strayBits
      else if k.lastcol then .ok (.emitbyteLastcol k.full k.lastrow) else .error .rowNotSelected
    | .rowend =>
      if w / 2 ^ 16 ≠ 0 then .error .strayBits
      else if k.lastcol then .ok (.rowend k.full k.lastrow) else .error .rowNotSelected
    | .frameend =>
      if w / 2 ^ 16 ≠ 0 then .error .strayBits
      else if k.lastcol && k.lastrow then .ok (.frameend k.full) else .error .rowNotSelected

/-- A micro-operation of RLE: FRESH, isrb, same in bits 2, 1, 0 (30_encoding.md R109); the character of RSEED and RBOUND
is a hex digit, given by its nibble in bits 19 to 16, or, for RSEED with isrb, the row-break (log 25). -/
def decodeUopC (w : Nat) : Except DecodeError Instr :=
  let same := bitOf w 0
  let d : BitVec 4 := BitVec.ofNat 4 (fieldOf w 16 4)
  if fieldOf w 3 13 ≠ 0 ∨ w / 2 ^ 20 ≠ 0 then .error .strayBits
  else if bitOf w 2 then
    if bitOf w 1 then
      if fieldOf w 16 4 ≠ 0 then .error .strayBits else .ok (.rseed same .rowBreak)
    else .ok (.rseed same (.digit d))
  else if bitOf w 1 then
    if fieldOf w 16 4 ≠ 0 then .error .strayBits else .ok (.rrowbrk same)
  else if same then
    if fieldOf w 16 4 ≠ 0 then .error .strayBits else .ok .rsame
  else .ok (.rbound d)

/-! ### SYM8 -/

/-- The symbol of a character code (30_encoding.md R95, R96). -/
def symbolOf (code : Nat) : Option Instr :=
  if code = 0x30 then some .hex0
  else if code = 0x31 then some .hex1
  else if code = 0x32 then some .hex2
  else if code = 0x33 then some .hex3
  else if code = 0x34 then some .hex4
  else if code = 0x35 then some .hex5
  else if code = 0x36 then some .hex6
  else if code = 0x37 then some .hex7
  else if code = 0x38 then some .hex8
  else if code = 0x39 then some .hex9
  else if code = 0x41 then some .hexA
  else if code = 0x42 then some .hexB
  else if code = 0x43 then some .hexC
  else if code = 0x44 then some .hexD
  else if code = 0x45 then some .hexE
  else if code = 0x46 then some .hexF
  else if code = 0x47 then some .cntG
  else if code = 0x48 then some .cntH
  else if code = 0x49 then some .cntI
  else if code = 0x4A then some .cntJ
  else if code = 0x4B then some .cntK
  else if code = 0x4C then some .cntL
  else if code = 0x4D then some .cntM
  else if code = 0x4E then some .cntN
  else if code = 0x4F then some .cntO
  else if code = 0x50 then some .cntP
  else if code = 0x51 then some .cntQ
  else if code = 0x52 then some .cntR
  else if code = 0x53 then some .cntS
  else if code = 0x54 then some .cntT
  else if code = 0x55 then some .cntU
  else if code = 0x56 then some .cntV
  else if code = 0x57 then some .cntW
  else if code = 0x58 then some .cntX
  else if code = 0x59 then some .cntY
  else if code = 0x67 then some .cnt20g
  else if code = 0x68 then some .cnt20h
  else if code = 0x69 then some .cnt20i
  else if code = 0x6A then some .cnt20j
  else if code = 0x6B then some .cnt20k
  else if code = 0x6C then some .cnt20l
  else if code = 0x6D then some .cnt20m
  else if code = 0x6E then some .cnt20n
  else if code = 0x6F then some .cnt20o
  else if code = 0x70 then some .cnt20p
  else if code = 0x71 then some .cnt20q
  else if code = 0x72 then some .cnt20r
  else if code = 0x73 then some .cnt20s
  else if code = 0x74 then some .cnt20t
  else if code = 0x75 then some .cnt20u
  else if code = 0x76 then some .cnt20v
  else if code = 0x77 then some .cnt20w
  else if code = 0x78 then some .cnt20x
  else if code = 0x79 then some .cnt20y
  else if code = 0x7A then some .cnt20z
  else if code = 0x2C then some .fill0
  else if code = 0x21 then some .fill1
  else if code = 0x3A then some .rowRepeat
  else if code = 0x0A then some .rb
  else none

/-- The code of a symbol (30_encoding.md R95, R96); no other operation has one. -/
def symbolCode : Instr → Option Nat
  | .hex0 => some 0x30
  | .hex1 => some 0x31
  | .hex2 => some 0x32
  | .hex3 => some 0x33
  | .hex4 => some 0x34
  | .hex5 => some 0x35
  | .hex6 => some 0x36
  | .hex7 => some 0x37
  | .hex8 => some 0x38
  | .hex9 => some 0x39
  | .hexA => some 0x41
  | .hexB => some 0x42
  | .hexC => some 0x43
  | .hexD => some 0x44
  | .hexE => some 0x45
  | .hexF => some 0x46
  | .cntG => some 0x47
  | .cntH => some 0x48
  | .cntI => some 0x49
  | .cntJ => some 0x4A
  | .cntK => some 0x4B
  | .cntL => some 0x4C
  | .cntM => some 0x4D
  | .cntN => some 0x4E
  | .cntO => some 0x4F
  | .cntP => some 0x50
  | .cntQ => some 0x51
  | .cntR => some 0x52
  | .cntS => some 0x53
  | .cntT => some 0x54
  | .cntU => some 0x55
  | .cntV => some 0x56
  | .cntW => some 0x57
  | .cntX => some 0x58
  | .cntY => some 0x59
  | .cnt20g => some 0x67
  | .cnt20h => some 0x68
  | .cnt20i => some 0x69
  | .cnt20j => some 0x6A
  | .cnt20k => some 0x6B
  | .cnt20l => some 0x6C
  | .cnt20m => some 0x6D
  | .cnt20n => some 0x6E
  | .cnt20o => some 0x6F
  | .cnt20p => some 0x70
  | .cnt20q => some 0x71
  | .cnt20r => some 0x72
  | .cnt20s => some 0x73
  | .cnt20t => some 0x74
  | .cnt20u => some 0x75
  | .cnt20v => some 0x76
  | .cnt20w => some 0x77
  | .cnt20x => some 0x78
  | .cnt20y => some 0x79
  | .cnt20z => some 0x7A
  | .fill0 => some 0x2C
  | .fill1 => some 0x21
  | .rowRepeat => some 0x3A
  | .rb => some 0x0A
  | _ => none

/-- An output symbol: its 8-bit code (30_encoding.md R95). -/
def decodeSym8 (w : Nat) : Except DecodeError Instr :=
  if w / 256 ≠ 0 then .error .strayBits
  else match symbolOf w with
    | some i => .ok i
    | none => .error .unknownSymbol

/-! ### The decoder -/

/-- The operation of a word of one format. -/
def decodeWord (sp : Space) (w : Word) : Except DecodeError Instr :=
  match sp with
  | .hreg => decodeHreg w.toNat
  | .seq => decodeSeq w.toNat
  | .uopR row => decodeUopR row w.toNat
  | .uopC => decodeUopC w.toNat
  | .sym8 => decodeSym8 w.toNat

/-- The number that bytes spell, the first byte least significant (log 2). -/
def natOfBytes : List Byte → Nat
  | [] => 0
  | b :: bs => b.toNat + 256 * natOfBytes bs

/-- The `n` low bytes of a number, least significant first. -/
def bytesOfNat : Nat → Nat → List Byte
  | 0, _ => []
  | n + 1, w => BitVec.ofNat 8 w :: bytesOfNat n (w / 256)

/-- Decoding of bytes: total, rejecting by name. -/
def decode (sp : Space) (bs : List Byte) : Except DecodeError Instr :=
  if bs.length = 6 then decodeWord sp (BitVec.ofNat 48 (natOfBytes bs)) else .error .wrongLength

/-! ### The encoder -/

/-- The format of an operation. -/
def spaceOf : Instr → Space
  | .wrCtrlNop _ | .wrCtrlStart _ | .wrCtrlClear _ | .wrCtrlRsvd _ | .rdCtrl | .rdStatus | .wrStatus _ | .wrPct _ | .rdPct
  | .rdThresh | .wrThresh _ | .wrCompEn _ | .rdCompEn | .wrWidth _ | .rdWidth | .wrHeight _ | .rdHeight | .rdBpr | .wrBpr _
  | .rdTotal | .wrTotal _ | .rdErrInfo | .wrErrInfo _ | .rsvd28 _ _ _ | .rsvd30 _ _ _ | .rsvd40 _ _ _ | .rsvd80 _ _ _ => .hreg
  | .holdIdle | .pix | .holdDone | .holdErr => .seq
  | .classify _ _ => .uopR .classify
  | .pack _ _ => .uopR .pack
  | .emitbyteFull _ _ => .uopR .emitFull
  | .emitbyteLastcol _ _ => .uopR .emitLastcol
  | .rowend _ _ => .uopR .rowend
  | .frameend _ => .uopR .frameend
  | .rseed _ _ | .rrowbrk _ | .rsame | .rbound _ => .uopC
  | _ => .sym8

/-- The word of a register access (30_encoding.md R104). -/
def hregBits (wr : Bool) (off : Nat) (v : Nat) : Nat :=
  natOfBool wr * 1024 + off * 4 + v % 4 + v / 4 * 65536

/-- A condition vector of three bits (30_encoding.md R108, R109). -/
def condBits (b2 b1 b0 : Bool) : Nat := natOfBool b2 * 4 + natOfBool b1 * 2 + natOfBool b0

/-- A pixel port word (20_memory.md R64). -/
def pixelBits (p : Pixel) : Nat := p.r.toNat * 65536 + p.g.toNat * 256 + p.b.toNat

/-- The word of an operation, as a number. -/
def encodeBits : Instr → Nat
  | .wrCtrlNop hi => hregBits true 0x00 (hi.toNat * 4 + 0)
  | .wrCtrlStart hi => hregBits true 0x00 (hi.toNat * 4 + 1)
  | .wrCtrlClear hi => hregBits true 0x00 (hi.toNat * 4 + 2)
  | .wrCtrlRsvd hi => hregBits true 0x00 (hi.toNat * 4 + 3)
  | .rdCtrl => hregBits false 0x00 0
  | .rdStatus => hregBits false 0x04 0
  | .wrStatus v => hregBits true 0x04 v.toNat
  | .wrPct v => hregBits true 0x08 v.toNat
  | .rdPct => hregBits false 0x08 0
  | .rdThresh => hregBits false 0x0C 0
  | .wrThresh v => hregBits true 0x0C v.toNat
  | .wrCompEn v => hregBits true 0x10 v.toNat
  | .rdCompEn => hregBits false 0x10 0
  | .wrWidth v => hregBits true 0x14 v.toNat
  | .rdWidth => hregBits false 0x14 0
  | .wrHeight v => hregBits true 0x18 v.toNat
  | .rdHeight => hregBits false 0x18 0
  | .rdBpr => hregBits false 0x1C 0
  | .wrBpr v => hregBits true 0x1C v.toNat
  | .rdTotal => hregBits false 0x20 0
  | .wrTotal v => hregBits true 0x20 v.toNat
  | .rdErrInfo => hregBits false 0x24 0
  | .wrErrInfo v => hregBits true 0x24 v.toNat
  | .rsvd28 wr off v => hregBits wr off.toNat v.toNat
  | .rsvd30 wr off v => hregBits wr off.toNat v.toNat
  | .rsvd40 wr off v => hregBits wr off.toNat v.toNat
  | .rsvd80 wr off v => hregBits wr off.toNat v.toNat
  | .holdIdle => 0
  | .pix => 1
  | .holdDone => 2
  | .holdErr => 3
  | .classify k px => condBits k.full k.lastcol k.lastrow + pixelBits px * 65536
  | .pack k bit => condBits k.full k.lastcol k.lastrow + natOfBool bit * 65536
  | .emitbyteFull lastcol lastrow => condBits true lastcol lastrow
  | .emitbyteLastcol full lastrow => condBits full true lastrow
  | .rowend full lastrow => condBits full true lastrow
  | .frameend full => condBits full true true
  | .rseed same (.digit d) => condBits true false same + d.toNat * 65536
  | .rseed same .rowBreak => condBits true true same
  | .rrowbrk same => condBits false true same
  | .rsame => condBits false false true
  | .rbound d => condBits false false false + d.toNat * 65536
  | i => (symbolCode i).getD 0

/-- The word of a well-formed operation (the don't-care bits of a read are 0). -/
def encode (i : Instr) : Word := BitVec.ofNat 48 (encodeBits i)

/-- The six bytes of a word, least significant first. -/
def encodeBytes (i : Instr) : List Byte := bytesOfNat 6 (encodeBits i)

/-! ### The host's numbering of table words -/

/-- Which format a table word of `nbits` bits is read in (log 3). 11 bits are an HREG selector, 2 a SEQ phase, 3 a UOP_C
vector. In whole bytes: 8 bits below 4 are a SEQ phase, 4 to 7 a UOP_C vector, the rest a symbol code; 16 bits are an HREG
selector unless the word is one of the symbols that the table's reader gives more than 8 bits; longer ones are symbols. -/
def tableSpace (nbits w : Nat) : Space :=
  if nbits ≤ 2 then .seq
  else if nbits ≤ 3 then .uopC
  else if nbits ≤ 8 then
    if w < 4 then .seq else if w < 8 then .uopC else .sym8
  else if nbits = 11 then .hreg
  else if nbits ≤ 16 then
    if w = 0x38 ∨ w = 0x39 ∨ (0x41 ≤ w ∧ w ≤ 0x46) ∨ (0x4E ≤ w ∧ w ≤ 0x55) then .sym8 else .hreg
  else .sym8

/-- The operation this decoder reads from the bits of a table word (bits above `nbits` are 0). -/
def decodeTableWord (nbits w : Nat) : Option Instr :=
  match decode (tableSpace nbits (w % 2 ^ nbits)) (bytesOfNat 6 (w % 2 ^ nbits)) with
  | .ok i => some i
  | .error _ => none

end Sys2Proof
end

