-- ==== Sys2Proof/Machine/State.lean ====
section
/-! DEFINITION. The state of the hardware (10_state.md R20) as plain data, the environment of a frame (the pixel space), the
model's own fields, the reasons a step can stop, and the state after reset (10_state.md R48). -/

namespace Sys2Proof.Machine

/-- PHASE (10_state.md R23). -/
inductive Phase where
  | idle
  | busy
  | done
  | err
deriving DecidableEq, Repr

/-- ERR_CAUSE (60_exceptions.md R253); code 3 is never produced (10_state.md R32; log 24). -/
inductive ErrCause where
  | noError
  | invalidDimension
  | encodingRange
deriving DecidableEq, Repr

/-- The pixel space as cells (address, byte), addresses strictly rising; three bytes a sample (log 9). -/
abbrev Memory := List Host.Cell

/-- One move of an agent (10_state.md R21; log 1). -/
inductive Event where
  /-- the word of one table row: a register access of the host (HREG), or, in the model only, one other row by itself -/
  | op (sp : Space) (w : Word)
  /-- the core takes the step its PHASE selects (30_encoding.md R107) -/
  | core
  /-- the reset event (70_reset_and_hazards.md R280) -/
  | reset
  /-- between frames, the host serves another grid (10_state.md R22, 20_memory.md R79; log 11) -/
  | supply (cells : List Host.Cell)
deriving DecidableEq, Repr

/-- Why the machine stops with a fault: never. The hardware's own two errors are next states in phase ERR, and the spec names no
other condition that stops it: "No access stalls, faults or raises an error" (42_host_register_ops.md R200, 60_exceptions.md R250,
R255). A type without constructors, so no step can answer a fault. -/
inductive Fault where
deriving DecidableEq, Repr

/-- Why the model has no meaning for what it is asked. -/
inductive Refusal where
  /-- Raised by an arm of exec whose operation has no meaning yet. Safe. -/
  | notModelled (mnemonic : String)
  /-- Raised by a step whose word decodes to nothing: "must not give it a meaning" (42_host_register_ops.md R217). Safe (log 23). -/
  | undecodable (why : DecodeError)
  /-- Raised by a grid change while BUSY: the model "gives the host no move that changes it" (20_memory.md R79). Safe (log 11). -/
  | gridFixedDuringFrame
deriving DecidableEq, Repr

/-- The state. -/
structure State where
  /-- PHASE (R23) -/
  phase : Phase
  /-- THRESH (R25) -/
  thresh : BitVec 11
  /-- COMP_EN (R27), read through `compEnabled` -/
  compEn : Bool
  /-- WIDTH (R28) -/
  width : BitVec 16
  /-- HEIGHT (R29) -/
  height : BitVec 16
  /-- BPR (R30) -/
  bpr : BitVec 13
  /-- TOTAL (R31) -/
  total : BitVec 32
  /-- ERR_CAUSE (R32) -/
  errCause : ErrCause
  /-- ERR_INFO (R33) -/
  errInfo : BitVec 14
  /-- ACC (R35) -/
  acc : BitVec 8
  /-- NBITS (R36) -/
  nbits : BitVec 3
  /-- COL (R37) -/
  col : BitVec 16
  /-- ROW (R38) -/
  row : BitVec 16
  /-- PEND (R39) -/
  pend : Byte
  /-- RUN (R40) -/
  run : BitVec 14
  /-- FRESH (R41) -/
  fresh : Bool
  /-- LINE (R42) -/
  line : List Byte
  /-- PREV (R43) -/
  prev : List Byte
  /-- PREV_VALID (R43) -/
  prevValid : Bool
  /-- OUT (R44) -/
  out : List Byte
  /-- HAS_RLE, the instance parameter (00_scope.md R9); no step changes it (log 12) -/
  hasRle : Bool
  /-- the pixel space of the frame (20_memory.md R61) -/
  grid : Memory
  /-- the model's own: RDATA of the last register read (log 7) -/
  rdata : Data
  /-- the model's own: the wire `bit` as CLASSIFY last drove it (log 8) -/
  bit : Bool
  /-- the model's own: the agents' next moves, first first; when empty the core moves (log 1) -/
  agenda : List Event
  /-- the model's own: the index of the next free values (log 6) -/
  freeCtr : Nat
deriving DecidableEq, Repr

/-- The state after reset (10_state.md R48, 70_reset_and_hazards.md R280). ACC to PREV_VALID: the rule gives no value; the
model names zero and empty (log 5). -/
def State.reset : State where
  phase := .idle
  thresh := Config.thresholdReset
  compEn := false
  width := 0#16
  height := 0#16
  bpr := 0#13
  total := 0#32
  errCause := .noError
  errInfo := 0#14
  acc := 0#8
  nbits := 0#3
  col := 0#16
  row := 0#16
  pend := 0#8
  run := 0#14
  fresh := false
  line := []
  prev := []
  prevValid := false
  out := []
  hasRle := Config.defaultHasRle
  grid := []
  rdata := 0#32
  bit := false
  agenda := []
  freeCtr := 0

end Sys2Proof.Machine
end

