-- ==== Sys2Proof/Machine/Operands.lean ====
section
/-! DEFINITION. The assembly of values (30_encoding.md R92 to R101): percentage to threshold, row and frame sizes, the channel
sum, hex digits, the run alphabet and the text of a run, and the fields of register-port words. -/

namespace Sys2Proof.Machine

/-! ### Register-port words (20_memory.md R67) -/

/-- The code of PHASE in STATUS[1:0] (10_state.md R23). -/
def Phase.code : Phase → Nat
  | .idle => 0
  | .busy => 1
  | .done => 2
  | .err => 3

/-- The code of ERR_CAUSE in STATUS[5:4] (30_encoding.md R110). -/
def ErrCause.code : ErrCause → Nat
  | .noError => 0
  | .invalidDimension => 1
  | .encodingRange => 2

/-- STATUS (10_state.md R24): PHASE in [1:0], ERR_CAUSE in [5:4], HAS_RLE in [8]. -/
def statusWord (p : Phase) (c : ErrCause) (hasRle : Bool) : Data :=
  BitVec.ofNat 32 (p.code + c.code * 16 + natOfBool hasRle * 256)

/-- The percentage of a PCT write: `v[7:0]` (42_host_register_ops.md R207). -/
def percentOf (v : Data) : Nat := v.toNat % 256

/-- The dimension of a WIDTH or HEIGHT write: `v[15:0]` (42_host_register_ops.md R211). -/
def dimensionOf (v : Data) : BitVec 16 := BitVec.ofNat 16 v.toNat

/-- The enable of a COMP_EN write: `v[0]` (42_host_register_ops.md R210). -/
def enableOf (v : Data) : Bool := v.toNat % 2 == 1

/-! ### Threshold, sizes, classification -/

/-- `floor(p * 768 / 100)` (30_encoding.md R97). -/
def thresholdOfPercent (p : Nat) : BitVec 11 :=
  BitVec.ofNat 11 (p * Config.thresholdScale / Config.percentDivisor)

/-- `ceil(width / 8)` (30_encoding.md R98), of the non-negative WIDTH. -/
def bytesPerRow (width : BitVec 16) : BitVec 13 := BitVec.ofNat 13 ((width.toNat + 7) / 8)

/-- `bytesPerRow * height` (30_encoding.md R98). -/
def totalBytes (bpr : BitVec 13) (height : BitVec 16) : BitVec 32 := BitVec.ofNat 32 (bpr.toNat * height.toNat)

/-- A dimension read as two's complement is negative (60_exceptions.md R251): bit 15. -/
def negativeDim (d : BitVec 16) : Bool := 32768 ≤ d.toNat

/-- The exact sum of the three channels (40_rasterizer.md R134). -/
def channelSum (p : Pixel) : Nat := p.r.toNat + p.g.toNat + p.b.toNat

/-- CLASSIFY: black when the sum is at most the threshold (40_rasterizer.md R134; 90_conflicts.md C1). -/
def isBlack (p : Pixel) (thresh : BitVec 11) : Bool := channelSum p ≤ thresh.toNat

/-- PACK: the bit goes to position `7 - NBITS` (40_rasterizer.md R135, 20_memory.md R68). -/
def packBit (acc : BitVec 8) (nbits : BitVec 3) (bit : Bool) : BitVec 8 :=
  acc ||| (BitVec.ofNat 8 (natOfBool bit) <<< (7 - nbits.toNat))

/-! ### Characters (30_encoding.md R93, R95) -/

/-- The hex digit of a nibble: 0x30 + n, or 0x41 + (n - 10) (30_encoding.md R93). -/
def hexDigit (n : BitVec 4) : Byte :=
  if n.toNat < 10 then BitVec.ofNat 8 (0x30 + n.toNat) else BitVec.ofNat 8 (0x41 + (n.toNat - 10))

/-- The nibbles of a byte (20_memory.md R69). -/
def highNibble (b : Byte) : BitVec 4 := BitVec.ofNat 4 (b.toNat / 16)
def lowNibble (b : Byte) : BitVec 4 := BitVec.ofNat 4 b.toNat

/-- `'0'`, `'F'`, `','`, `'!'`, `':'` (30_encoding.md R95). -/
def chrZero : Byte := 0x30#8
def chrF : Byte := 0x46#8
def chrFill0 : Byte := 0x2C#8
def chrFill1 : Byte := 0x21#8
def chrRepeat : Byte := 0x3A#8

/-- The code of a character RAST hands on (40_rasterizer.md R136, R138). -/
def rasterCode : RasterChar → Byte
  | .digit n => hexDigit n
  | .rowBreak => Config.rbCode

/-- One of the sixteen hex digit characters (30_encoding.md R93). -/
def isHexDigit (c : Byte) : Bool :=
  (0x30 ≤ c.toNat && c.toNat ≤ 0x39) || (0x41 ≤ c.toNat && c.toNat ≤ 0x46)

/-- A count letter, `'G'` to `'Y'` or `'g'` to `'z'` (30_encoding.md R100). -/
def isCountLetter (c : Byte) : Bool :=
  (0x47 ≤ c.toNat && c.toNat ≤ 0x59) || (0x67 ≤ c.toNat && c.toNat ≤ 0x7A)

/-- The characters the core may append (20_memory.md R65): hex digits and RB without compression; hex digits, count letters,
`','`, `'!'`, `':'`, and never RB, with it. -/
def inAlphabet (compressed : Bool) (c : Byte) : Bool :=
  isHexDigit c ||
    (if compressed then isCountLetter c || c == chrFill0 || c == chrFill1 || c == chrRepeat else c == Config.rbCode)

/-! ### The run alphabet (30_encoding.md R99 to R101) and the text of a run (41_rle_compressor.md R169) -/

/-- ALPHA (30_encoding.md R100): a partial function. -/
def alpha (n : Nat) : Option Byte :=
  if 1 ≤ n ∧ n ≤ 19 then some (BitVec.ofNat 8 (0x46 + n))
  else if 20 ≤ n ∧ n ≤ Config.runMax ∧ n % Config.runBase = 0 then some (BitVec.ofNat 8 (0x67 + n / Config.runBase - 1))
  else none

/-- VALUE (30_encoding.md R101), the inverse of ALPHA. -/
def letterValue (c : Byte) : Option Nat :=
  if 0x47 ≤ c.toNat ∧ c.toNat ≤ 0x59 then some (c.toNat - 0x46)
  else if 0x67 ≤ c.toNat ∧ c.toNat ≤ 0x7A then some ((c.toNat - 0x67 + 1) * Config.runBase)
  else none

/-- ENC (41_rle_compressor.md R169); `none` where it raises EncodingRangeError (R171). -/
def encodeRun (count : Nat) (ch : Byte) : Option (List Byte) :=
  if count = 0 ∨ Config.runMax < count then none
  else if count ≤ Config.runBase then (alpha count).map fun a => [a, ch]
  else
    let base := count / Config.runBase * Config.runBase
    let rem := count % Config.runBase
    (alpha base).bind fun a => if rem = 0 then some [a, ch] else (alpha rem).map fun u => [a, u, ch]

end Sys2Proof.Machine
end

