-- ==== Sys2Proof/Machine/Flags.lean ====
section
/-! DEFINITION. The conditions the hardware computes: the vector of a PIX step (30_encoding.md R108), the vector of a character
at RLE (R109), and the enables. -/

namespace Sys2Proof.Machine

/-- `full = (NBITS + 1 == 8)`, computed in 4 bits (30_encoding.md R108, 40_rasterizer.md R145). -/
def fullCond (s : State) : Bool := s.nbits.toNat + 1 == 8

/-- `lastcol = (COL == WIDTH - 1)` (30_encoding.md R108). -/
def lastcolCond (s : State) : Bool := s.col == s.width - 1#16

/-- `lastrow = (ROW == HEIGHT - 1)` (30_encoding.md R108). -/
def lastrowCond (s : State) : Bool := s.row == s.height - 1#16

/-- The condition vector of the PIX step (30_encoding.md R108). -/
def rastCond (s : State) : RastCond := ⟨fullCond s, lastcolCond s, lastrowCond s⟩

/-- `isrb = (c == RB)` (30_encoding.md R109). -/
def isrbCond (c : Byte) : Bool := c == Config.rbCode

/-- `same = (c == PEND)` (30_encoding.md R109). -/
def sameCond (s : State) (c : Byte) : Bool := c == s.pend

/-- COMP_EN as it reads: hard-wired to 0 without RLE (10_state.md R27; log 13). -/
def compEnabled (s : State) : Bool := s.hasRle && s.compEn

/-- Configuration writes are accepted in IDLE, DONE and ERR (42_host_register_ops.md R218). -/
def configWritable (s : State) : Bool := s.phase != .busy

/-- (COL, ROW) is an address of the frame (20_memory.md R61). -/
def pixelAddressValid (s : State) : Bool :=
  decide (s.col.toNat < s.width.toNat) && decide (s.row.toNat < s.height.toNat)

end Sys2Proof.Machine
end

