-- ==== Sys2Proof/Machine/Ops.lean ====
section
/-! DEFINITION. The shared operations: the pixel space and PixRead, OutAppend, the register port's answer, error entry and its
return, the reset event, and the flow of an atomic step that a raise may end. -/

namespace Sys2Proof.Machine

/-! ### The pixel space (20_memory.md R61; log 9) -/

/-- The canonical form: addresses strictly rising. An unlisted address has no value, so no entry equals it. -/
def Memory.wf : Memory → Bool
  | [] => true
  | [_] => true
  | c :: d :: m => decide (c.1 < d.1) && Memory.wf (d :: m)

/-- The byte at an address; `none` where nothing is listed: the host serves nothing there. -/
def Memory.read : Memory → Nat → Option Byte
  | [], _ => none
  | c :: m, a => if c.1 = a then some c.2 else Memory.read m a

/-- Writing a byte, in place or at its place in the order. -/
def Memory.write : Memory → Nat → Byte → Memory
  | [], a, b => [(a, b)]
  | c :: m, a, b =>
    if a < c.1 then (a, b) :: c :: m
    else if a = c.1 then (a, b) :: m
    else c :: Memory.write m a b

/-- The grid that the host serves from a list of cells, in canonical form. -/
def gridOfCells (cells : List Host.Cell) : Memory := cells.foldl (fun m c => Memory.write m c.1 c.2) []

/-- The address of the red byte of the sample at (col, row); green and blue follow (log 9). -/
def sampleAddr (col row : Nat) : Nat := (row * 65536 + col) * 3

/-- PixRead (20_memory.md R62): the sample at (col, row), or `none` when the pixel source does not answer. -/
def pixRead (m : Memory) (col row : Nat) : Option Pixel :=
  match Memory.read m (sampleAddr col row), Memory.read m (sampleAddr col row + 1), Memory.read m (sampleAddr col row + 2) with
  | some r, some g, some b => some ⟨r, g, b⟩
  | _, _, _ => none

/-- The host serves another grid (10_state.md R22): between frames only (20_memory.md R79; log 11). -/
def supplyGrid (cells : List Host.Cell) (s : State) : Host.Outcome State Fault Refusal :=
  if s.phase = .busy then .refused .gridFixedDuringFrame else .next { s with grid := gridOfCells cells }

/-! ### The character sink and the register port -/

/-- OutAppend (20_memory.md R66). -/
def outAppend (c : Byte) (s : State) : State := { s with out := s.out ++ [c] }

/-- Appends of the characters of a string, first to last (41_rle_compressor.md R168). -/
def outAppendAll (cs : List Byte) (s : State) : State := cs.foldl (fun t c => outAppend c t) s

/-- The answer of a register read: RDATA, and no state of the hardware changes (42_host_register_ops.md R200; log 7). -/
def answerRead (v : Data) (s : State) : Host.Outcome State Fault Refusal := .next { s with rdata := v }

/-- An access that is ignored (42_host_register_ops.md R200). -/
def ignored (s : State) : Host.Outcome State Fault Refusal := .next s

/-! ### Errors (60_exceptions.md) -/

/-- Error entry (60_exceptions.md R256): PHASE, ERR_CAUSE, ERR_INFO; the ten datapath registers then hold unspecified values,
which are free values (log 6). Nothing else is written and nothing is saved. -/
def errorEntry (cause : ErrCause) (info : BitVec 14) (s : State) : State :=
  { s with
    phase := .err
    errCause := cause
    errInfo := info
    acc := Config.freeAcc s.freeCtr
    nbits := Config.freeNbits s.freeCtr
    col := Config.freeCol s.freeCtr
    row := Config.freeRow s.freeCtr
    pend := Config.freePend s.freeCtr
    run := Config.freeRun s.freeCtr
    fresh := Config.freeFresh s.freeCtr
    line := (Config.freeLine s.freeCtr).take Config.lineCap
    prev := (Config.freePrev s.freeCtr).take Config.lineCap
    prevValid := Config.freePrevValid s.freeCtr
    freeCtr := s.freeCtr + 1 }

/-- The way out of ERR, and of DONE: an accepted CLEAR (42_host_register_ops.md R202, 60_exceptions.md R259). -/
def clearFrame (s : State) : State := { s with phase := .idle, errCause := .noError, errInfo := 0#14 }

/-- The reset event (70_reset_and_hazards.md R280, R281): the state after reset, of the same instance, with the same pixel source
and the agents' moves still to come (log 22). -/
def resetEvent (s : State) : State :=
  { State.reset with hasRle := s.hasRle, grid := s.grid, agenda := s.agenda, freeCtr := s.freeCtr }

/-! ### The flow of one atomic step (00_scope.md R14) -/

/-- Inside a step: the statements run on, or a raise has ended the step with the error entered. -/
inductive Flow where
  | cont (s : State)
  | stop (s : State)

/-- The statements that follow run only if no raise has ended the step. -/
def Flow.andThen (f : Flow) (k : State → Flow) : Flow :=
  match f with
  | .cont s => k s
  | .stop s => .stop s

/-- The state at the end of the step. -/
def Flow.state : Flow → State
  | .cont s => s
  | .stop s => s

/-- A step ends in a next state either way: an entered error is a state of the hardware. -/
def Flow.outcome (f : Flow) : Host.Outcome State Fault Refusal := .next f.state

/-- `raise X(info)` (00_scope.md R14): the step ends with error entry. -/
def raiseError (cause : ErrCause) (info : BitVec 14) (s : State) : Flow := .stop (errorEntry cause info s)

/-! ### When a single row is performed (log 14, log 15) -/

/-- A micro-operation of RAST is performed inside a PIX step only, that is while BUSY (30_encoding.md R108, 40_rasterizer.md R133);
otherwise it is not selected and nothing happens. -/
def whileBusy (s : State) (f : Flow) : Host.Outcome State Fault Refusal :=
  if s.phase = .busy then f.outcome else .next s

/-- A micro-operation of RLE is performed inside a PIX step with compression on (41_rle_compressor.md R173); in an instance without
RLE, whose COMP_EN is 0, never. -/
def whileCompressing (s : State) (f : Flow) : Host.Outcome State Fault Refusal :=
  if s.phase = .busy ∧ compEnabled s = true then f.outcome else .next s

/-- A symbol reaches the sink while BUSY (60_exceptions.md R257), and only a symbol of the present stream's alphabet
(20_memory.md R65). -/
def appendSymbol (c : Byte) (s : State) : Host.Outcome State Fault Refusal :=
  if s.phase = .busy ∧ inAlphabet (compEnabled s) c = true then .next (outAppend c s) else .next s

end Sys2Proof.Machine
end

