-- ==== Sys2Proof/Machine/Rle.lean ====
section
/-! DEFINITION. The run-length compressor RLE (41_rle_compressor.md): RSEED, RSAME, RBOUND, RROWBRK, and the dispatch RleStep. -/

namespace Sys2Proof.Machine

/-- RSEED (R163). -/
def seedRun (c : Byte) (s : State) : State := { s with pend := c, run := 1#14, fresh := false }

/-- RSAME (R164). -/
def extendRun (s : State) : State := { s with run := s.run + 1#14 }

/-- `LINE <- LINE ++ ENC(RUN, PEND)`, or the raise of ENC (R169, R171): EncodingRangeError with the count. -/
def appendRun (s : State) : Flow :=
  match encodeRun s.run.toNat s.pend with
  | some t => .cont { s with line := s.line ++ t }
  | none => raiseError .encodingRange s.run s

/-- RBOUND (R165). -/
def boundRun (c : Byte) (s : State) : Flow :=
  (appendRun s).andThen fun t => .cont { t with run := 1#14, pend := c }

/-- `maxRowRuns`: the hex digits of one row (R167). -/
def maxRowRuns (s : State) : Nat := 2 * s.bpr.toNat

/-- CLOSE_RUN (R167): FILL0, FILL1 or NORMAL. -/
def closeRun (s : State) : Flow :=
  if maxRowRuns s ≤ s.run.toNat ∧ s.pend = chrZero then .cont { s with line := s.line ++ [chrFill0] }
  else if maxRowRuns s ≤ s.run.toNat ∧ s.pend = chrF then .cont { s with line := s.line ++ [chrFill1] }
  else appendRun s

/-- FLUSH_LINE (R168): LINE_REPEAT or LINE_EMIT. -/
def flushLine (s : State) : State :=
  let t := if s.prevValid = true ∧ s.line = s.prev then outAppend chrRepeat s else outAppendAll s.line s
  { t with prev := s.line, prevValid := true }

/-- RROWBRK (R166). -/
def breakRow (s : State) : Flow :=
  (closeRun s).andThen fun t => .cont { flushLine t with line := [], run := 1#14, fresh := true }

/-- RleStep (R162): the one micro-operation that the vector {FRESH, isrb, same} selects (30_encoding.md R109). -/
def rleStep (c : Byte) (s : State) : Flow :=
  if s.fresh then .cont (seedRun c s)
  else if isrbCond c then breakRow s
  else if sameCond s c then .cont (extendRun s)
  else boundRun c s

/-! ### The rows of format UOP_C -/

/-- RSEED (R163). -/
def execRseed (c : RasterChar) (s : State) : Host.Outcome State Fault Refusal :=
  whileCompressing s (.cont (seedRun (rasterCode c) s))

/-- RROWBRK (R166). -/
def execRrowbrk (s : State) : Host.Outcome State Fault Refusal :=
  whileCompressing s (breakRow s)

/-- RSAME (R164). -/
def execRsame (s : State) : Host.Outcome State Fault Refusal :=
  whileCompressing s (.cont (extendRun s))

/-- RBOUND (R165). -/
def execRbound (d : BitVec 4) (s : State) : Host.Outcome State Fault Refusal :=
  whileCompressing s (boundRun (hexDigit d) s)

end Sys2Proof.Machine
end

