-- ==== Sys2Proof/Machine/Rast.lean ====
section
/-! DEFINITION. The rasterizer RAST (40_rasterizer.md): START, the micro-operations of a PIX step, PIX, and the holds. -/

namespace Sys2Proof.Machine

/-! ### START (R132) -/

/-- The initial state of a frame's scan (R132) and, where RLE is built, of its compressor (41_rle_compressor.md R161). -/
def beginScan (s : State) : State :=
  let t := { s with acc := 0#8, nbits := 0#3, col := 0#16, row := 0#16, phase := .busy }
  if s.hasRle then { t with run := 1#14, fresh := true, line := [], prevValid := false } else t

/-- START (R132). -/
def startFrame (s : State) : Flow :=
  let t := { s with errCause := .noError, errInfo := 0#14, out := [] }
  if negativeDim s.width || negativeDim s.height then raiseError .invalidDimension 0#14 t
  else
    let b := bytesPerRow s.width
    let u := { t with bpr := b, total := totalBytes b s.height }
    if s.width = 0#16 ∨ s.height = 0#16 then .cont { u with phase := .done } else .cont (beginScan u)

/-! ### The micro-operations of PIX -/

/-- CLASSIFY (R134): drives the wire `bit`. -/
def classifyPixel (px : Pixel) (s : State) : State := { s with bit := isBlack px s.thresh }

/-- PACK (R135). -/
def packPixel (bit : Bool) (s : State) : State := { s with acc := packBit s.acc s.nbits bit }

/-- Emit (R139). -/
def emit (c : Byte) (s : State) : Flow :=
  if compEnabled s then rleStep c s else .cont (outAppend c s)

/-- EMITBYTE (R136): the digit of the high nibble, then that of the low nibble, then ACC and NBITS cleared. -/
def emitByte (s : State) : Flow :=
  (emit (hexDigit (highNibble s.acc)) s).andThen fun t =>
    (emit (hexDigit (lowNibble s.acc)) t).andThen fun u =>
      .cont { u with acc := 0#8, nbits := 0#3 }

/-- FRAMEEND (R138). -/
def frameEnd (s : State) : State := { s with phase := .done }

/-- ROWEND (R138). -/
def rowEnd (lastrow : Bool) (s : State) : Flow :=
  (emit Config.rbCode s).andThen fun t =>
    let u := { t with col := 0#16 }
    if lastrow then .cont (frameEnd u) else .cont { u with row := u.row + 1#16 }

/-! ### PIX (R133) -/

/-- PIX on the sample read. The conditions are those of the state at the start of the step. -/
def pixStep (px : Pixel) (s : State) : Flow :=
  let k := rastCond s
  let t := packPixel (isBlack px s.thresh) (classifyPixel px s)
  let emitted := if k.full || k.lastcol then emitByte t else .cont { t with nbits := t.nbits + 1#3 }
  emitted.andThen fun u =>
    if k.lastcol then rowEnd k.lastrow u else .cont { u with col := u.col + 1#16 }

/-- The sample at an address outside the frame: a free value (20_memory.md R62, 93_implementation_defined.md U1; log 10). -/
def sampleOutside (n : Nat) : Pixel := ⟨Config.freeRed n, Config.freeGreen n, Config.freeBlue n⟩

/-- The core's step in BUSY: PixRead, then PIX. A pixel source that does not answer leaves the core BUSY (20_memory.md R62,
60_exceptions.md R265 c; log 9). No run reads an address outside the frame (log 10). -/
def pixCore (s : State) : Host.Outcome State Fault Refusal :=
  if pixelAddressValid s then
    match pixRead s.grid s.col.toNat s.row.toNat with
    | some px => (pixStep px s).outcome
    | none => .next s
  else (pixStep (sampleOutside s.freeCtr) { s with freeCtr := s.freeCtr + 1 }).outcome

/-! ### The rows of formats SEQ and UOP_R -/

/-- HOLD_IDLE (R131): no step, no change. -/
def execHoldIdle (s : State) : Host.Outcome State Fault Refusal := .next s

/-- PIX (R133): selected by PHASE BUSY; in any other phase the core has no step (log 21). -/
def execPix (s : State) : Host.Outcome State Fault Refusal :=
  if s.phase = .busy then pixCore s else .next s

/-- HOLD_DONE (R131). -/
def execHoldDone (s : State) : Host.Outcome State Fault Refusal := .next s

/-- HOLD_ERR (R131). -/
def execHoldErr (s : State) : Host.Outcome State Fault Refusal := .next s

/-- CLASSIFY (R134). -/
def execClassify (px : Pixel) (s : State) : Host.Outcome State Fault Refusal :=
  whileBusy s (.cont (classifyPixel px s))

/-- PACK (R135). -/
def execPack (bit : Bool) (s : State) : Host.Outcome State Fault Refusal :=
  whileBusy s (.cont (packPixel bit s))

/-- EMITBYTE selected by `full` (R136). -/
def execEmitbyteFull (s : State) : Host.Outcome State Fault Refusal := whileBusy s (emitByte s)

/-- EMITBYTE selected by `lastcol` (R136). -/
def execEmitbyteLastcol (s : State) : Host.Outcome State Fault Refusal := whileBusy s (emitByte s)

/-- ROWEND (R138); `lastrow` is the bit of its condition vector. -/
def execRowend (lastrow : Bool) (s : State) : Host.Outcome State Fault Refusal := whileBusy s (rowEnd lastrow s)

/-- FRAMEEND (R138). -/
def execFrameend (s : State) : Host.Outcome State Fault Refusal := whileBusy s (.cont (frameEnd s))

end Sys2Proof.Machine
end

