-- ==== Sys2Proof/Machine/HostRegs.lean ====
section
/-! DEFINITION. The host's register accesses (42_host_register_ops.md), format HREG, in the table's order. -/

namespace Sys2Proof.Machine

/-! ### CTRL, offset 0x00 -/

/-- CTRL command NOP (R203). -/
def execWrCtrlNop (s : State) : Host.Outcome State Fault Refusal := ignored s

/-- CTRL command START (R201): accepted in IDLE only. -/
def execWrCtrlStart (s : State) : Host.Outcome State Fault Refusal :=
  if s.phase = .idle then (startFrame s).outcome else ignored s

/-- CTRL command CLEAR (R202): accepted in DONE and ERR only. -/
def execWrCtrlClear (s : State) : Host.Outcome State Fault Refusal :=
  if s.phase = .done ∨ s.phase = .err then .next (clearFrame s) else ignored s

/-- The reserved CTRL command (R203). -/
def execWrCtrlRsvd (s : State) : Host.Outcome State Fault Refusal := ignored s

/-- RD CTRL (R204). -/
def execRdCtrl (s : State) : Host.Outcome State Fault Refusal := answerRead 0#32 s

/-! ### STATUS, offset 0x04 -/

/-- RD STATUS (R205). -/
def execRdStatus (s : State) : Host.Outcome State Fault Refusal := answerRead (statusWord s.phase s.errCause s.hasRle) s

/-- WR STATUS (R206). -/
def execWrStatus (s : State) : Host.Outcome State Fault Refusal := ignored s

/-! ### PCT, offset 0x08, and THRESH, offset 0x0C -/

/-- WR PCT (R207). -/
def execWrPct (v : Data) (s : State) : Host.Outcome State Fault Refusal :=
  if configWritable s then .next { s with thresh := thresholdOfPercent (percentOf v) } else ignored s

/-- RD PCT (R208). -/
def execRdPct (s : State) : Host.Outcome State Fault Refusal := answerRead 0#32 s

/-- RD THRESH (R209). -/
def execRdThresh (s : State) : Host.Outcome State Fault Refusal := answerRead (s.thresh.setWidth 32) s

/-- WR THRESH (R209). -/
def execWrThresh (s : State) : Host.Outcome State Fault Refusal := ignored s

/-! ### COMP_EN, offset 0x10 -/

/-- WR COMP_EN (R210). -/
def execWrCompEn (v : Data) (s : State) : Host.Outcome State Fault Refusal :=
  if configWritable s && s.hasRle then .next { s with compEn := enableOf v } else ignored s

/-- RD COMP_EN (R210). -/
def execRdCompEn (s : State) : Host.Outcome State Fault Refusal :=
  answerRead (BitVec.ofNat 32 (natOfBool (compEnabled s))) s

/-! ### WIDTH, offset 0x14, and HEIGHT, offset 0x18 -/

/-- WR WIDTH (R211). -/
def execWrWidth (v : Data) (s : State) : Host.Outcome State Fault Refusal :=
  if configWritable s then .next { s with width := dimensionOf v } else ignored s

/-- RD WIDTH (R211). -/
def execRdWidth (s : State) : Host.Outcome State Fault Refusal := answerRead (s.width.setWidth 32) s

/-- WR HEIGHT (R212). -/
def execWrHeight (v : Data) (s : State) : Host.Outcome State Fault Refusal :=
  if configWritable s then .next { s with height := dimensionOf v } else ignored s

/-- RD HEIGHT (R212). -/
def execRdHeight (s : State) : Host.Outcome State Fault Refusal := answerRead (s.height.setWidth 32) s

/-! ### BPR, offset 0x1C, TOTAL, offset 0x20, ERR_INFO, offset 0x24 -/

/-- RD BPR (R213). -/
def execRdBpr (s : State) : Host.Outcome State Fault Refusal := answerRead (s.bpr.setWidth 32) s

/-- WR BPR (R213). -/
def execWrBpr (s : State) : Host.Outcome State Fault Refusal := ignored s

/-- RD TOTAL (R214). -/
def execRdTotal (s : State) : Host.Outcome State Fault Refusal := answerRead s.total s

/-- WR TOTAL (R214). -/
def execWrTotal (s : State) : Host.Outcome State Fault Refusal := ignored s

/-- RD ERR_INFO (R215). -/
def execRdErrInfo (s : State) : Host.Outcome State Fault Refusal := answerRead (s.errInfo.setWidth 32) s

/-- WR ERR_INFO (R215). -/
def execWrErrInfo (s : State) : Host.Outcome State Fault Refusal := ignored s

/-! ### Reserved offsets (R216): reads return 0, writes are ignored -/

/-- An access to a reserved offset, in either direction. -/
def reservedAccess (wr : Bool) (s : State) : Host.Outcome State Fault Refusal :=
  if wr then ignored s else answerRead 0#32 s

/-- Offsets 0x28 and 0x2C. -/
def execRsvd28 (wr : Bool) (s : State) : Host.Outcome State Fault Refusal := reservedAccess wr s

/-- Offsets 0x30 to 0x3C. -/
def execRsvd30 (wr : Bool) (s : State) : Host.Outcome State Fault Refusal := reservedAccess wr s

/-- Offsets 0x40 to 0x7C. -/
def execRsvd40 (wr : Bool) (s : State) : Host.Outcome State Fault Refusal := reservedAccess wr s

/-- Offsets 0x80 to 0xFC. -/
def execRsvd80 (wr : Bool) (s : State) : Host.Outcome State Fault Refusal := reservedAccess wr s

end Sys2Proof.Machine
end

