-- ==== Sys2Proof/Machine/Symbols.lean ====
section
/-! DEFINITION. The output symbols, format SYM8 (30_encoding.md R95): the operation of a symbol is the OutAppend that delivers it to
the sink (20_memory.md R66; log 15). One definition per row. -/

namespace Sys2Proof.Machine

/-! ### Hex digits (30_encoding.md R93) -/

def execHex0 (s : State) : Host.Outcome State Fault Refusal := appendSymbol 0x30#8 s
def execHex1 (s : State) : Host.Outcome State Fault Refusal := appendSymbol 0x31#8 s
def execHex2 (s : State) : Host.Outcome State Fault Refusal := appendSymbol 0x32#8 s
def execHex3 (s : State) : Host.Outcome State Fault Refusal := appendSymbol 0x33#8 s
def execHex4 (s : State) : Host.Outcome State Fault Refusal := appendSymbol 0x34#8 s
def execHex5 (s : State) : Host.Outcome State Fault Refusal := appendSymbol 0x35#8 s
def execHex6 (s : State) : Host.Outcome State Fault Refusal := appendSymbol 0x36#8 s
def execHex7 (s : State) : Host.Outcome State Fault Refusal := appendSymbol 0x37#8 s
def execHex8 (s : State) : Host.Outcome State Fault Refusal := appendSymbol 0x38#8 s
def execHex9 (s : State) : Host.Outcome State Fault Refusal := appendSymbol 0x39#8 s
def execHexA (s : State) : Host.Outcome State Fault Refusal := appendSymbol 0x41#8 s
def execHexB (s : State) : Host.Outcome State Fault Refusal := appendSymbol 0x42#8 s
def execHexC (s : State) : Host.Outcome State Fault Refusal := appendSymbol 0x43#8 s
def execHexD (s : State) : Host.Outcome State Fault Refusal := appendSymbol 0x44#8 s
def execHexE (s : State) : Host.Outcome State Fault Refusal := appendSymbol 0x45#8 s
def execHexF (s : State) : Host.Outcome State Fault Refusal := appendSymbol 0x46#8 s

/-! ### Unit count letters (30_encoding.md R100) -/

def execCntG (s : State) : Host.Outcome State Fault Refusal := appendSymbol 0x47#8 s
def execCntH (s : State) : Host.Outcome State Fault Refusal := appendSymbol 0x48#8 s
def execCntI (s : State) : Host.Outcome State Fault Refusal := appendSymbol 0x49#8 s
def execCntJ (s : State) : Host.Outcome State Fault Refusal := appendSymbol 0x4A#8 s
def execCntK (s : State) : Host.Outcome State Fault Refusal := appendSymbol 0x4B#8 s
def execCntL (s : State) : Host.Outcome State Fault Refusal := appendSymbol 0x4C#8 s
def execCntM (s : State) : Host.Outcome State Fault Refusal := appendSymbol 0x4D#8 s
def execCntN (s : State) : Host.Outcome State Fault Refusal := appendSymbol 0x4E#8 s
def execCntO (s : State) : Host.Outcome State Fault Refusal := appendSymbol 0x4F#8 s
def execCntP (s : State) : Host.Outcome State Fault Refusal := appendSymbol 0x50#8 s
def execCntQ (s : State) : Host.Outcome State Fault Refusal := appendSymbol 0x51#8 s
def execCntR (s : State) : Host.Outcome State Fault Refusal := appendSymbol 0x52#8 s
def execCntS (s : State) : Host.Outcome State Fault Refusal := appendSymbol 0x53#8 s
def execCntT (s : State) : Host.Outcome State Fault Refusal := appendSymbol 0x54#8 s
def execCntU (s : State) : Host.Outcome State Fault Refusal := appendSymbol 0x55#8 s
def execCntV (s : State) : Host.Outcome State Fault Refusal := appendSymbol 0x56#8 s
def execCntW (s : State) : Host.Outcome State Fault Refusal := appendSymbol 0x57#8 s
def execCntX (s : State) : Host.Outcome State Fault Refusal := appendSymbol 0x58#8 s
def execCntY (s : State) : Host.Outcome State Fault Refusal := appendSymbol 0x59#8 s

/-! ### Multiple-of-20 count letters (30_encoding.md R100) -/

def execCnt20g (s : State) : Host.Outcome State Fault Refusal := appendSymbol 0x67#8 s
def execCnt20h (s : State) : Host.Outcome State Fault Refusal := appendSymbol 0x68#8 s
def execCnt20i (s : State) : Host.Outcome State Fault Refusal := appendSymbol 0x69#8 s
def execCnt20j (s : State) : Host.Outcome State Fault Refusal := appendSymbol 0x6A#8 s
def execCnt20k (s : State) : Host.Outcome State Fault Refusal := appendSymbol 0x6B#8 s
def execCnt20l (s : State) : Host.Outcome State Fault Refusal := appendSymbol 0x6C#8 s
def execCnt20m (s : State) : Host.Outcome State Fault Refusal := appendSymbol 0x6D#8 s
def execCnt20n (s : State) : Host.Outcome State Fault Refusal := appendSymbol 0x6E#8 s
def execCnt20o (s : State) : Host.Outcome State Fault Refusal := appendSymbol 0x6F#8 s
def execCnt20p (s : State) : Host.Outcome State Fault Refusal := appendSymbol 0x70#8 s
def execCnt20q (s : State) : Host.Outcome State Fault Refusal := appendSymbol 0x71#8 s
def execCnt20r (s : State) : Host.Outcome State Fault Refusal := appendSymbol 0x72#8 s
def execCnt20s (s : State) : Host.Outcome State Fault Refusal := appendSymbol 0x73#8 s
def execCnt20t (s : State) : Host.Outcome State Fault Refusal := appendSymbol 0x74#8 s
def execCnt20u (s : State) : Host.Outcome State Fault Refusal := appendSymbol 0x75#8 s
def execCnt20v (s : State) : Host.Outcome State Fault Refusal := appendSymbol 0x76#8 s
def execCnt20w (s : State) : Host.Outcome State Fault Refusal := appendSymbol 0x77#8 s
def execCnt20x (s : State) : Host.Outcome State Fault Refusal := appendSymbol 0x78#8 s
def execCnt20y (s : State) : Host.Outcome State Fault Refusal := appendSymbol 0x79#8 s
def execCnt20z (s : State) : Host.Outcome State Fault Refusal := appendSymbol 0x7A#8 s

/-! ### Row fills, row repeat and row-break (41_rle_compressor.md R167, R168; 30_encoding.md R96) -/

def execFill0 (s : State) : Host.Outcome State Fault Refusal := appendSymbol 0x2C#8 s
def execFill1 (s : State) : Host.Outcome State Fault Refusal := appendSymbol 0x21#8 s
def execRowRepeat (s : State) : Host.Outcome State Fault Refusal := appendSymbol 0x3A#8 s
def execRb (s : State) : Host.Outcome State Fault Refusal := appendSymbol Config.rbCode s

end Sys2Proof.Machine
end

