-- ==== Sys2Proof/Machine/Dispatch.lean ====
section
/-! DEFINITION. The dispatch: one arm per row of spec/opcode_table.json, in the table's order. -/

namespace Sys2Proof.Machine

def exec (i : Instr) (s : State) : Host.Outcome State Fault Refusal :=
  match i with
  | .wrCtrlNop _ => Sys2Proof.Machine.execWrCtrlNop s
  | .wrCtrlStart _ => Sys2Proof.Machine.execWrCtrlStart s
  | .wrCtrlClear _ => Sys2Proof.Machine.execWrCtrlClear s
  | .wrCtrlRsvd _ => Sys2Proof.Machine.execWrCtrlRsvd s
  | .rdCtrl => Sys2Proof.Machine.execRdCtrl s
  | .rdStatus => Sys2Proof.Machine.execRdStatus s
  | .wrStatus _ => Sys2Proof.Machine.execWrStatus s
  | .wrPct v => Sys2Proof.Machine.execWrPct v s
  | .rdPct => Sys2Proof.Machine.execRdPct s
  | .rdThresh => Sys2Proof.Machine.execRdThresh s
  | .wrThresh _ => Sys2Proof.Machine.execWrThresh s
  | .wrCompEn v => Sys2Proof.Machine.execWrCompEn v s
  | .rdCompEn => Sys2Proof.Machine.execRdCompEn s
  | .wrWidth v => Sys2Proof.Machine.execWrWidth v s
  | .rdWidth => Sys2Proof.Machine.execRdWidth s
  | .wrHeight v => Sys2Proof.Machine.execWrHeight v s
  | .rdHeight => Sys2Proof.Machine.execRdHeight s
  | .rdBpr => Sys2Proof.Machine.execRdBpr s
  | .wrBpr _ => Sys2Proof.Machine.execWrBpr s
  | .rdTotal => Sys2Proof.Machine.execRdTotal s
  | .wrTotal _ => Sys2Proof.Machine.execWrTotal s
  | .rdErrInfo => Sys2Proof.Machine.execRdErrInfo s
  | .wrErrInfo _ => Sys2Proof.Machine.execWrErrInfo s
  | .rsvd28 wr _ _ => Sys2Proof.Machine.execRsvd28 wr s
  | .rsvd30 wr _ _ => Sys2Proof.Machine.execRsvd30 wr s
  | .rsvd40 wr _ _ => Sys2Proof.Machine.execRsvd40 wr s
  | .rsvd80 wr _ _ => Sys2Proof.Machine.execRsvd80 wr s
  | .holdIdle => Sys2Proof.Machine.execHoldIdle s
  | .pix => Sys2Proof.Machine.execPix s
  | .holdDone => Sys2Proof.Machine.execHoldDone s
  | .holdErr => Sys2Proof.Machine.execHoldErr s
  | .classify _ px => Sys2Proof.Machine.execClassify px s
  | .pack _ bit => Sys2Proof.Machine.execPack bit s
  | .emitbyteFull _ _ => Sys2Proof.Machine.execEmitbyteFull s
  | .emitbyteLastcol _ _ => Sys2Proof.Machine.execEmitbyteLastcol s
  | .rowend _ lastrow => Sys2Proof.Machine.execRowend lastrow s
  | .frameend _ => Sys2Proof.Machine.execFrameend s
  | .rseed _ c => Sys2Proof.Machine.execRseed c s
  | .rrowbrk _ => Sys2Proof.Machine.execRrowbrk s
  | .rsame => Sys2Proof.Machine.execRsame s
  | .rbound d => Sys2Proof.Machine.execRbound d s
  | .hex0 => Sys2Proof.Machine.execHex0 s
  | .hex1 => Sys2Proof.Machine.execHex1 s
  | .hex2 => Sys2Proof.Machine.execHex2 s
  | .hex3 => Sys2Proof.Machine.execHex3 s
  | .hex4 => Sys2Proof.Machine.execHex4 s
  | .hex5 => Sys2Proof.Machine.execHex5 s
  | .hex6 => Sys2Proof.Machine.execHex6 s
  | .hex7 => Sys2Proof.Machine.execHex7 s
  | .hex8 => Sys2Proof.Machine.execHex8 s
  | .hex9 => Sys2Proof.Machine.execHex9 s
  | .hexA => Sys2Proof.Machine.execHexA s
  | .hexB => Sys2Proof.Machine.execHexB s
  | .hexC => Sys2Proof.Machine.execHexC s
  | .hexD => Sys2Proof.Machine.execHexD s
  | .hexE => Sys2Proof.Machine.execHexE s
  | .hexF => Sys2Proof.Machine.execHexF s
  | .cntG => Sys2Proof.Machine.execCntG s
  | .cntH => Sys2Proof.Machine.execCntH s
  | .cntI => Sys2Proof.Machine.execCntI s
  | .cntJ => Sys2Proof.Machine.execCntJ s
  | .cntK => Sys2Proof.Machine.execCntK s
  | .cntL => Sys2Proof.Machine.execCntL s
  | .cntM => Sys2Proof.Machine.execCntM s
  | .cntN => Sys2Proof.Machine.execCntN s
  | .cntO => Sys2Proof.Machine.execCntO s
  | .cntP => Sys2Proof.Machine.execCntP s
  | .cntQ => Sys2Proof.Machine.execCntQ s
  | .cntR => Sys2Proof.Machine.execCntR s
  | .cntS => Sys2Proof.Machine.execCntS s
  | .cntT => Sys2Proof.Machine.execCntT s
  | .cntU => Sys2Proof.Machine.execCntU s
  | .cntV => Sys2Proof.Machine.execCntV s
  | .cntW => Sys2Proof.Machine.execCntW s
  | .cntX => Sys2Proof.Machine.execCntX s
  | .cntY => Sys2Proof.Machine.execCntY s
  | .cnt20g => Sys2Proof.Machine.execCnt20g s
  | .cnt20h => Sys2Proof.Machine.execCnt20h s
  | .cnt20i => Sys2Proof.Machine.execCnt20i s
  | .cnt20j => Sys2Proof.Machine.execCnt20j s
  | .cnt20k => Sys2Proof.Machine.execCnt20k s
  | .cnt20l => Sys2Proof.Machine.execCnt20l s
  | .cnt20m => Sys2Proof.Machine.execCnt20m s
  | .cnt20n => Sys2Proof.Machine.execCnt20n s
  | .cnt20o => Sys2Proof.Machine.execCnt20o s
  | .cnt20p => Sys2Proof.Machine.execCnt20p s
  | .cnt20q => Sys2Proof.Machine.execCnt20q s
  | .cnt20r => Sys2Proof.Machine.execCnt20r s
  | .cnt20s => Sys2Proof.Machine.execCnt20s s
  | .cnt20t => Sys2Proof.Machine.execCnt20t s
  | .cnt20u => Sys2Proof.Machine.execCnt20u s
  | .cnt20v => Sys2Proof.Machine.execCnt20v s
  | .cnt20w => Sys2Proof.Machine.execCnt20w s
  | .cnt20x => Sys2Proof.Machine.execCnt20x s
  | .cnt20y => Sys2Proof.Machine.execCnt20y s
  | .cnt20z => Sys2Proof.Machine.execCnt20z s
  | .fill0 => Sys2Proof.Machine.execFill0 s
  | .fill1 => Sys2Proof.Machine.execFill1 s
  | .rowRepeat => Sys2Proof.Machine.execRowRepeat s
  | .rb => Sys2Proof.Machine.execRb s

end Sys2Proof.Machine
end

