-- ==== Sys2Proof/Machine/Fetch.lean ====
section
/-! DEFINITION. What moves next, and placing a table word where the next step takes it (log 1, log 4). -/

namespace Sys2Proof.Machine

/-- The next move and the state without it: the first of the agenda; with none left the core is on its own (70_reset_and_hazards.md
R295). -/
def nextMove (s : State) : Event × State :=
  match s.agenda with
  | [] => (.core, s)
  | e :: rest => (e, { s with agenda := rest })

/-- The SEQ word that PHASE is (30_encoding.md R107). -/
def phaseWord (p : Phase) : Word := BitVec.ofNat 48 p.code

/-- PHASE of a 2-bit code (10_state.md R23). -/
def phaseOfCode (n : Nat) : Phase :=
  if n % 4 = 0 then .idle else if n % 4 = 1 then .busy else if n % 4 = 2 then .done else .err

/-- The COMP_EN that a symbol's stream needs: 0 for RB, 1 for what only compression sends (20_memory.md R65). -/
def compEnForSymbol (w : Nat) (now : Bool) : Bool :=
  if w = 0x0A then false else if isHexDigit (BitVec.ofNat 8 w) then now else true

/-- The state in which the next step takes a table word: an HREG word is the host's next access; a SEQ word is the PHASE register
itself; the rows inside a PIX step need the phase BUSY, and those of RLE and of the compressed stream COMP_EN (log 4). -/
def placeWord (sp : Space) (w : Nat) (s : State) : State :=
  let word : Word := BitVec.ofNat 48 w
  match sp with
  | .hreg => { s with agenda := .op sp word :: s.agenda }
  | .seq => { s with phase := phaseOfCode w, agenda := .core :: s.agenda }
  | .uopR _ => { s with phase := .busy, agenda := .op sp word :: s.agenda }
  | .uopC => { s with phase := .busy, compEn := true, agenda := .op sp word :: s.agenda }
  | .sym8 => { s with phase := .busy, compEn := compEnForSymbol w s.compEn, agenda := .op sp word :: s.agenda }

end Sys2Proof.Machine
end

