-- ==== Sys2Proof/Machine/Step.lean ====
section
/-! DEFINITION. One step: one atomic move of one agent (10_state.md R21; 00_scope.md R16 "step"). -/

namespace Sys2Proof.Machine

/-- Runs the operation of a word. -/
def runWord (sp : Space) (w : Word) (s : State) : Host.Outcome State Fault Refusal :=
  match decodeWord sp w with
  | .ok i => exec i s
  | .error e => .refused (.undecodable e)

/-- Performs one move. The core's move is the SEQ operation that PHASE selects (30_encoding.md R107). -/
def perform (e : Event) (s : State) : Host.Outcome State Fault Refusal :=
  match e with
  | .op sp w => runWord sp w s
  | .core => runWord .seq (phaseWord s.phase) s
  | .reset => .next (resetEvent s)
  | .supply cells => supplyGrid cells s

/-- One step. -/
def step (s : State) : Host.Outcome State Fault Refusal := perform (nextMove s).1 (nextMove s).2

/-- `s` with a table word placed so that the next step runs exactly it (log 3, log 4). -/
def State.withFetchWord (s : State) (nbits w : Nat) : State :=
  placeWord (tableSpace nbits (w % 2 ^ nbits)) (w % 2 ^ nbits) s

end Sys2Proof.Machine
end

