-- ==== Sys2Proof/Machine/Reference.lean ====
section
/-! DEFINITION. The functions the rules state of whole frames: HexBody (40_rasterizer.md R143), CompressedBody (41_rle_compressor.md
R175), the reference decoder (R176), and the host's text (45_host_payload.md R231, R232, R234). None is hardware; claims use them. -/

namespace Sys2Proof.Machine

/-! ### HexBody (R143) -/

/-- `bit(x, y)` (R143): the classified sample inside the row, 0 in the padding. -/
def bitAt (px : Nat → Nat → Pixel) (thresh : BitVec 11) (w x y : Nat) : Bool :=
  decide (x < w) && isBlack (px x y) thresh

/-- `byte(k, y)` (R143). -/
def rowByte (px : Nat → Nat → Pixel) (thresh : BitVec 11) (w k y : Nat) : Nat :=
  ((List.range 8).map fun j => natOfBool (bitAt px thresh w (8 * k + j) y) * 2 ^ (7 - j)).sum

/-- The two digits of a byte, high nibble first (30_encoding.md R93). -/
def hexPair (n : Nat) : List Byte := [hexDigit (BitVec.ofNat 4 (n / 16)), hexDigit (BitVec.ofNat 4 n)]

/-- The hex digits of row `y`. -/
def rowDigits (px : Nat → Nat → Pixel) (thresh : BitVec 11) (w y : Nat) : List Byte :=
  (List.range ((w + 7) / 8)).flatMap fun k => hexPair (rowByte px thresh w k y)

/-- The rows of digits of a frame, top row first. -/
def frameRows (px : Nat → Nat → Pixel) (thresh : BitVec 11) (w h : Nat) : List (List Byte) :=
  (List.range h).map fun y => rowDigits px thresh w y

/-- Rows of digits, a row-break after every one (30_encoding.md R94). -/
def hexBody (rows : List (List Byte)) : List Byte := rows.flatMap fun r => r ++ [Config.rbCode]

/-! ### CompressedBody (R175) -/

/-- The maximal runs of equal characters, in order. -/
def runsOf : List Byte → List (Nat × Byte)
  | [] => []
  | d :: ds =>
    match runsOf ds with
    | [] => [(1, d)]
    | (n, e) :: rs => if d = e then (n + 1, e) :: rs else (1, d) :: (n, e) :: rs

/-- The encodings of runs, joined; the count of the first run that has none, where one raises (R169, R171). -/
def encodeRuns : List (Nat × Byte) → Except Nat (List Byte)
  | [] => .ok []
  | (n, d) :: rs =>
    match encodeRun n d with
    | none => .error n
    | some t =>
      match encodeRuns rs with
      | .ok ts => .ok (t ++ ts)
      | .error m => .error m

/-- `text(row)` (R175). -/
def rowText (digits : List Byte) : Except Nat (List Byte) :=
  match runsOf digits with
  | [(n, d)] => if d = chrZero then .ok [chrFill0] else if d = chrF then .ok [chrFill1] else encodeRuns [(n, d)]
  | rs => encodeRuns rs

/-- `out(0) ++ out(1) ++ ...` (R175) up to the first row that raises, and the count it raises with, if one does. `prev` is the text
of the row before. -/
def compressRows : Option (List Byte) → List (List Byte) → List Byte × Option Nat
  | _, [] => ([], none)
  | prev, r :: rs =>
    match rowText r with
    | .error n => ([], some n)
    | .ok t =>
      let rest := compressRows (some t) rs
      ((if prev = some t then [chrRepeat] else t) ++ rest.1, rest.2)

/-! ### The reference decoder (R176) -/

/-- The decoder's state: finished rows, digits of the current row, pending count. -/
structure DecoderState where
  rows : List (List Byte)
  cur : List Byte
  cnt : Nat
deriving DecidableEq, Repr

/-- What one character adds (R176), before the test for a full row. -/
def decoderTake (m : Nat) (st : DecoderState) (ch : Byte) : DecoderState :=
  if ch = chrFill0 then { st with cur := st.cur ++ List.replicate (m - st.cur.length) chrZero }
  else if ch = chrFill1 then { st with cur := st.cur ++ List.replicate (m - st.cur.length) chrF }
  else if ch = chrRepeat then { st with cur := st.rows.getLastD [] }
  else match letterValue ch with
    | some v => { st with cnt := st.cnt + v }
    | none => { st with cur := st.cur ++ List.replicate st.cnt ch, cnt := 0 }

/-- A full row is moved to the finished ones (R176). -/
def decoderShift (m : Nat) (st : DecoderState) : DecoderState :=
  if st.cur.length = m ∧ st.cnt = 0 then { st with rows := st.rows ++ [st.cur], cur := [] } else st

/-- The decoder over a whole body (R176), for rows of `2 * bpr` digits. -/
def decodeBody (bpr : Nat) (body : List Byte) : List Byte :=
  hexBody (body.foldl (fun st ch => decoderShift (2 * bpr) (decoderTake (2 * bpr) st ch)) ⟨[], [], 0⟩).rows

/-! ### The host's text (45_host_payload.md; software outside the hardware, 00_scope.md R6) -/

/-- The codes of characters written as literals. -/
def ascii (cs : List Char) : List Byte := cs.map fun c => BitVec.ofNat 8 c.toNat

/-- Decimal without padding (92_eei_decisions.md D32). -/
def decimal (n : Nat) : List Byte := ascii (Nat.toDigits 10 n)

/-- The prefix of R231, its space included. -/
def gfaPrefix (total bpr : Nat) : List Byte :=
  ascii ['^', 'G', 'F', 'A', ','] ++ decimal total ++ ascii [','] ++ decimal total ++ ascii [','] ++ decimal bpr ++ ascii [',', ' ']

/-- The text without header and footer (R231). -/
def gfaText (total bpr : Nat) (body : List Byte) : List Byte := gfaPrefix total bpr ++ body

/-- The text with header and footer (R232): the prefix stands twice. -/
def labelText (total bpr : Nat) (body : List Byte) : List Byte :=
  ascii ['^', 'X', 'A', ' ', '^', 'F', 'O', '0', ',', '0'] ++ gfaPrefix total bpr ++ gfaText total bpr body
    ++ ascii ['^', 'F', 'S', '^', 'X', 'Z']

/-- What the host builds from the core's results: a text at DONE, none otherwise (R231, R234). -/
def hostText (s : State) : Option (List Byte) :=
  if s.phase = .done then some (gfaText s.total.toNat s.bpr.toNat s.out) else none

end Sys2Proof.Machine
end

