-- ==== Sys2Proof/Safety.lean ====
section
/-! DEFINITION. The terms of claims: the outcomes a frame can have (60_exceptions.md R265, R266), runs, and the invariant of the
machine (10_state.md R49 and the ranges of R25 to R33). -/

namespace Sys2Proof.Machine

/-! ### Runs -/

/-- `n` steps, stopping at a fault or a refusal. -/
def runSteps : Nat → State → Host.Outcome State Fault Refusal
  | 0, s => .next s
  | n + 1, s =>
    match step s with
    | .next t => runSteps n t
    | .fault r => .fault r
    | .refused r => .refused r

/-! ### Outcomes of a frame (60_exceptions.md R265, R266) -/

/-- A frame has ended (R266). -/
def frameEnded (s : State) : Prop := s.phase = .done ∨ s.phase = .err

/-- The pixel source answers at (COL, ROW); where it does not the core is stuck in BUSY (R265 c). -/
def pixelServed (s : State) : Prop := ∃ px, pixRead s.grid s.col.toNat s.row.toNat = some px

/-- The host serves the samples `px` on the whole domain of a frame (92_eei_decisions.md D30). -/
def servesGrid (m : Memory) (w h : Nat) (px : Nat → Nat → Pixel) : Prop :=
  ∀ x y, x < w → y < h → pixRead m x y = some (px x y)

/-! ### The moves of the hardware -/

/-- A move the hardware has: a register access, a core step, reset, a new grid. The other rows of the table are performed
inside a PIX step only; by themselves they are moves of the model alone (log 14). -/
def Event.isHardware : Event → Bool
  | .op .hreg _ => true
  | .op _ _ => false
  | .core => true
  | .reset => true
  | .supply _ => true

/-- Only moves of the hardware are to come. -/
def hardwareAgenda (s : State) : Prop := ∀ e ∈ s.agenda, e.isHardware = true

/-- The move the next step takes. -/
def headMove (s : State) : Event := (nextMove s).1

/-- The move is the register access `i`. -/
def Event.accesses (e : Event) (i : Instr) : Prop := ∃ w, e = .op .hreg w ∧ decodeWord .hreg w = .ok i

/-- The host's write of START, with any ignored bits (42_host_register_ops.md R201, R203). -/
def startEvent (hi : BitVec 30) : Event := .op .hreg (encode (.wrCtrlStart hi))

/-- A register access that decodes, or a core step: what interleaves while a frame runs (70_reset_and_hazards.md R295). -/
def Event.isAccessOrCore (e : Event) : Prop := e = .core ∨ ∃ i, e.accesses i

/-- How many core steps a list of moves has. -/
def coreCount (es : List Event) : Nat := es.countP fun e => e == .core

/-! ### Errors -/

/-- What error entry leaves (60_exceptions.md R256): the record, and every register that is not of the datapath as it was. Nothing
is said of the ten datapath registers, whose values are free. -/
structure errorEntered (cause : ErrCause) (info : Nat) (s t : State) : Prop where
  phase : t.phase = .err
  errCause : t.errCause = cause
  errInfo : t.errInfo.toNat = info
  thresh : t.thresh = s.thresh
  compEn : t.compEn = s.compEn
  width : t.width = s.width
  height : t.height = s.height
  bpr : t.bpr = s.bpr
  total : t.total = s.total
  out : t.out = s.out
  hasRle : t.hasRle = s.hasRle
  grid : t.grid = s.grid
  rdata : t.rdata = s.rdata
  bit : t.bit = s.bit
  agenda : t.agenda = s.agenda

/-! ### The invariant -/

/-- The scan during a frame (10_state.md R49, first part). -/
structure ScanInv (s : State) : Prop where
  widthPositive : 0 < s.width.toInt
  heightPositive : 0 < s.height.toInt
  colInRow : s.col.toNat < s.width.toNat
  rowInGrid : s.row.toNat < s.height.toNat
  nbitsOfCol : s.nbits.toNat = s.col.toNat % 8
  accUnfilledZero : s.acc.toNat % 2 ^ (8 - s.nbits.toNat) = 0
  bprOfWidth : s.bpr.toNat = (s.width.toNat + 7) / 8
  totalOfSizes : s.total.toNat = s.bpr.toNat * s.height.toNat
  noError : s.errCause = .noError ∧ s.errInfo = 0#14

/-- The compressor during a frame (10_state.md R49, COMP_EN = 1, with what makes it inductive: the row so far has `2 * (COL / 8)`
digits, of which RUN are in the present run and the others cost at most two characters each, 41_rle_compressor.md R174). -/
structure RleInv (s : State) : Prop where
  freshOfCol : s.fresh = true ↔ s.col.toNat < 8
  freshEmpty : s.fresh = true → s.run = 1#14 ∧ s.line = []
  pendIsDigit : s.fresh = false → isHexDigit s.pend = true
  runPositive : 1 ≤ s.run.toNat
  lineBound : s.fresh = false → s.line.length + 2 * s.run.toNat ≤ 4 * (s.col.toNat / 8)
  prevBound : s.prevValid = true → s.prev.length ≤ 4 * s.bpr.toNat
  lineAlphabet : ∀ c ∈ s.line, inAlphabet true c = true
  outAlphabet : ∀ c ∈ s.out, inAlphabet true c = true

/-- The raw stream during a frame (10_state.md R49, COMP_EN = 0; 20_memory.md R65). -/
structure RawInv (s : State) : Prop where
  outLength : s.out.length = s.row.toNat * (2 * s.bpr.toNat + 1) + 2 * (s.col.toNat / 8)
  outAlphabet : ∀ c ∈ s.out, inAlphabet false c = true

/-- The error record in each phase (60_exceptions.md R253, 10_state.md R32, R33). -/
structure ErrorInv (s : State) : Prop where
  none_unless_err : s.phase ≠ .err → s.errCause = .noError ∧ s.errInfo = 0#14
  some_in_err : s.phase = .err → s.errCause ≠ .noError
  dimension_info : s.errCause = .invalidDimension → s.errInfo = 0#14 ∧ s.out = []
  range_info : s.errCause = .encodingRange → 401 ≤ s.errInfo.toNat ∧ s.errInfo.toNat ≤ 8192

/-- The ranges of the registers the host reads (10_state.md R25, R27, R30, R31). -/
structure RangeInv (s : State) : Prop where
  threshRange : s.thresh.toNat ≤ 1958
  bprRange : s.bpr.toNat ≤ 4096
  totalRange : s.total.toNat ≤ 134213632
  compHardwired : s.hasRle = false → s.compEn = false

/-- The invariant of the machine. -/
structure MachineInv (s : State) : Prop where
  agenda : hardwareAgenda s
  grid : Memory.wf s.grid = true
  ranges : RangeInv s
  errors : ErrorInv s
  scan : s.phase = .busy → ScanInv s
  rle : s.phase = .busy → compEnabled s = true → RleInv s
  raw : s.phase = .busy → compEnabled s = false → RawInv s

/-- The results of a frame (60_exceptions.md R266). -/
structure FrameResult where
  phase : Phase
  errCause : ErrCause
  errInfo : BitVec 14
  bpr : BitVec 13
  total : BitVec 32
  out : List Byte
deriving DecidableEq, Repr

/-- The results as they stand in a state. -/
def frameResult (s : State) : FrameResult := ⟨s.phase, s.errCause, s.errInfo, s.bpr, s.total, s.out⟩

end Sys2Proof.Machine
end

