-- ==== Sys2Proof/Certificates/Slice0/Obligations.lean ====
section
/-! DEFINITION. The statements for the provers. `exec i s = .next t` with `t` written out is the result, the frame and the completion of
an operation at once: every field not named in `t` is that of `s`. Free values (60_exceptions.md R256) are in no statement. -/

open Sys2Proof Sys2Proof.Machine

/-! ### Reset (10_state.md R48; 70_reset_and_hazards.md R280, R281) -/

/-- The values the spec gives for reset (R48, R280). The registers it leaves unspecified are not mentioned. -/
def Obligations.ResetLeavesTheStatedValues : Prop :=
  State.reset.thresh = 380#11 ∧ State.reset.compEn = false ∧ State.reset.phase = .idle ∧ State.reset.width = 0#16 ∧
    State.reset.height = 0#16 ∧ State.reset.bpr = 0#13 ∧ State.reset.total = 0#32 ∧ State.reset.errCause = .noError ∧
    State.reset.errInfo = 0#14 ∧ State.reset.out = []

/-- The reset event in any phase (R280, R281): the stated values, and from then on the core steps read no pixel and append nothing. -/
def Obligations.ResetEventAbandonsAnyFrame : Prop :=
  ∀ (s : State) (rest : List Event), ∃ t, step { s with agenda := .reset :: rest } = .next t ∧
    t.thresh = 380#11 ∧ t.compEn = false ∧ t.phase = .idle ∧ t.width = 0#16 ∧ t.height = 0#16 ∧ t.bpr = 0#13 ∧
    t.total = 0#32 ∧ t.errCause = .noError ∧ t.errInfo = 0#14 ∧ t.out = [] ∧
    ∀ n, runSteps n { t with agenda := List.replicate n .core } = .next { t with agenda := [] }

/-! ### Register accesses (42_host_register_ops.md) -/

/-- CTRL NOP and the reserved command do nothing; bits [31:2] are ignored in all CTRL writes (R203). -/
def Obligations.CtrlNopAndReservedDoNothing : Prop :=
  ∀ (hi hi' : BitVec 30) (s : State), exec (.wrCtrlNop hi) s = .next s ∧ exec (.wrCtrlRsvd hi) s = .next s ∧
    exec (.wrCtrlStart hi) s = exec (.wrCtrlStart hi') s ∧ exec (.wrCtrlClear hi) s = exec (.wrCtrlClear hi') s

/-- RD STATUS assembles HAS_RLE, ERR_CAUSE and PHASE, all other bits 0 (R205); WR STATUS is ignored (R206). -/
def Obligations.StatusIsAssembledOnRead : Prop :=
  ∀ (s : State) (v : Data), exec (.wrStatus v) s = .next s ∧
    ∃ r : Data, exec .rdStatus s = .next { s with rdata := r } ∧
      (s.phase = .idle → r.toNat % 4 = 0) ∧ (s.phase = .busy → r.toNat % 4 = 1) ∧
      (s.phase = .done → r.toNat % 4 = 2) ∧ (s.phase = .err → r.toNat % 4 = 3) ∧
      r.toNat / 4 % 4 = 0 ∧
      (s.errCause = .noError → r.toNat / 16 % 4 = 0) ∧ (s.errCause = .invalidDimension → r.toNat / 16 % 4 = 1) ∧
      (s.errCause = .encodingRange → r.toNat / 16 % 4 = 2) ∧
      r.toNat / 64 % 4 = 0 ∧
      (s.hasRle = true → r.toNat / 256 = 1) ∧ (s.hasRle = false → r.toNat / 256 = 0)

/-- WR PCT sets THRESH to the floor of p * 768 / 100, p = v[7:0], outside BUSY; in BUSY it is ignored (R207). RD THRESH returns
THRESH zero-extended; WR THRESH is ignored (R209). -/
def Obligations.WritePctSetsThreshold : Prop :=
  ∀ (v : Data) (s : State),
    exec (.wrThresh v) s = .next s ∧ exec .rdThresh s = .next { s with rdata := BitVec.ofNat 32 s.thresh.toNat } ∧
    (s.phase ≠ .busy → exec (.wrPct v) s = .next { s with thresh := BitVec.ofNat 11 (v.toNat % 256 * 768 / 100) }) ∧
    (s.phase = .busy → exec (.wrPct v) s = .next s) ∧
    ∀ t, exec (.wrPct v) s = .next t → s.phase ≠ .busy → t.thresh.toNat = v.toNat % 256 * 768 / 100

/-- WR COMP_EN stores v[0] outside BUSY when RLE is built, else nothing; RD COMP_EN returns it, 0 without RLE (R210). -/
def Obligations.CompEnReadAndWrite : Prop :=
  ∀ (v : Data) (s : State),
    (s.phase ≠ .busy → s.hasRle = true → exec (.wrCompEn v) s = .next { s with compEn := v.getLsbD 0 }) ∧
    (s.phase = .busy ∨ s.hasRle = false → exec (.wrCompEn v) s = .next s) ∧
    (s.hasRle = true → exec .rdCompEn s = .next { s with rdata := if s.compEn then 1#32 else 0#32 }) ∧
    (s.hasRle = false → exec .rdCompEn s = .next { s with rdata := 0#32 })

/-- WR WIDTH and WR HEIGHT store v[15:0] outside BUSY, also a negative value; the reads zero-extend (R211, R212). -/
def Obligations.DimensionReadAndWrite : Prop :=
  ∀ (v : Data) (s : State),
    (s.phase ≠ .busy → exec (.wrWidth v) s = .next { s with width := v.extractLsb' 0 16 }) ∧
    (s.phase = .busy → exec (.wrWidth v) s = .next s) ∧
    (s.phase ≠ .busy → exec (.wrHeight v) s = .next { s with height := v.extractLsb' 0 16 }) ∧
    (s.phase = .busy → exec (.wrHeight v) s = .next s) ∧
    exec .rdWidth s = .next { s with rdata := BitVec.ofNat 32 s.width.toNat } ∧
    exec .rdHeight s = .next { s with rdata := BitVec.ofNat 32 s.height.toNat }

/-- RD BPR, RD TOTAL, RD ERR_INFO return the register zero-extended; the writes are ignored (R213, R214, R215). -/
def Obligations.ResultRegistersReadOnly : Prop :=
  ∀ (v : Data) (s : State), exec (.wrBpr v) s = .next s ∧ exec (.wrTotal v) s = .next s ∧ exec (.wrErrInfo v) s = .next s ∧
    exec .rdBpr s = .next { s with rdata := BitVec.ofNat 32 s.bpr.toNat } ∧
    exec .rdTotal s = .next { s with rdata := s.total } ∧
    exec .rdErrInfo s = .next { s with rdata := BitVec.ofNat 32 s.errInfo.toNat }

/-- Reserved offsets: reads return 0, writes are ignored (R216). Reads of the ports CTRL and PCT return 0 in every phase (R204,
R208). -/
def Obligations.ReservedOffsetsAndPortsReadZero : Prop :=
  ∀ (off : BitVec 8) (v : Data) (s : State),
    (exec .rdCtrl s = .next { s with rdata := 0#32 } ∧ exec .rdPct s = .next { s with rdata := 0#32 }) ∧
    (exec (.rsvd28 true off v) s = .next s ∧ exec (.rsvd28 false off v) s = .next { s with rdata := 0#32 }) ∧
    (exec (.rsvd30 true off v) s = .next s ∧ exec (.rsvd30 false off v) s = .next { s with rdata := 0#32 }) ∧
    (exec (.rsvd40 true off v) s = .next s ∧ exec (.rsvd40 false off v) s = .next { s with rdata := 0#32 }) ∧
    (exec (.rsvd80 true off v) s = .next s ∧ exec (.rsvd80 false off v) s = .next { s with rdata := 0#32 })

/-- CLEAR in DONE or ERR: PHASE, ERR_CAUSE and ERR_INFO, nothing else; in IDLE and BUSY nothing (R202). -/
def Obligations.ClearEndsDoneAndErr : Prop :=
  ∀ (hi : BitVec 30) (s : State),
    (s.phase = .done ∨ s.phase = .err →
      exec (.wrCtrlClear hi) s = .next { s with phase := .idle, errCause := .noError, errInfo := 0#14 }) ∧
    (s.phase = .idle ∨ s.phase = .busy → exec (.wrCtrlClear hi) s = .next s)

/-- Every register access is answered, in every phase: none stalls, faults or raises a stop (R200). -/
def Obligations.EveryRegisterAccessIsAnswered : Prop :=
  ∀ (i : Instr) (s : State), spaceOf i = .hreg → ∃ t, exec i s = .next t ∧ t.agenda = s.agenda

/-- While BUSY no register access changes anything but the answer RDATA; reads never do, in any phase (R218, R77; the answer is
the model's field, log 7). -/
def Obligations.AccessesWhileBusyChangeNothing : Prop :=
  ∀ (s : State) (w : Word) (i : Instr) (t : State), decodeWord .hreg w = .ok i →
    s.phase = .busy ∨ bitOf w.toNat 10 = false → exec i s = .next t → t = { s with rdata := t.rdata }

/-! ### START (40_rasterizer.md R132; 42_host_register_ops.md R201; 60_exceptions.md R251, R256) -/

/-- START, every case of its pseudocode: outside IDLE nothing; a negative dimension enters the error with OUT empty and BPR, TOTAL
kept; a zero dimension ends the frame at once; otherwise the scan begins (R132, R201). -/
def Obligations.StartBeginsAFrame : Prop :=
  ∀ (hi : BitVec 30) (s : State),
    (s.phase ≠ .idle → exec (.wrCtrlStart hi) s = .next s) ∧
    (s.phase = .idle → s.width.getLsbD 15 = true ∨ s.height.getLsbD 15 = true →
      ∃ t, exec (.wrCtrlStart hi) s = .next t ∧ errorEntered .invalidDimension 0 { s with out := [] } t) ∧
    (s.phase = .idle → s.width.getLsbD 15 = false → s.height.getLsbD 15 = false → s.width = 0#16 ∨ s.height = 0#16 →
      exec (.wrCtrlStart hi) s = .next { s with
        errCause := .noError, errInfo := 0#14, out := [], bpr := BitVec.ofNat 13 ((s.width.toNat + 7) / 8),
        total := BitVec.ofNat 32 ((s.width.toNat + 7) / 8 * s.height.toNat), phase := .done }) ∧
    (s.phase = .idle → s.width.getLsbD 15 = false → s.height.getLsbD 15 = false → s.width ≠ 0#16 → s.height ≠ 0#16 →
      (s.hasRle = false → exec (.wrCtrlStart hi) s = .next { s with
        errCause := .noError, errInfo := 0#14, out := [], bpr := BitVec.ofNat 13 ((s.width.toNat + 7) / 8),
        total := BitVec.ofNat 32 ((s.width.toNat + 7) / 8 * s.height.toNat),
        acc := 0#8, nbits := 0#3, col := 0#16, row := 0#16, phase := .busy }) ∧
      (s.hasRle = true → exec (.wrCtrlStart hi) s = .next { s with
        errCause := .noError, errInfo := 0#14, out := [], bpr := BitVec.ofNat 13 ((s.width.toNat + 7) / 8),
        total := BitVec.ofNat 32 ((s.width.toNat + 7) / 8 * s.height.toNat),
        acc := 0#8, nbits := 0#3, col := 0#16, row := 0#16, phase := .busy,
        run := 1#14, fresh := true, line := [], prevValid := false }))

/-- BPR and TOTAL after an accepted START are exact: `ceil(WIDTH / 8)` and `BPR * HEIGHT`, without wrap-around (30_encoding.md R98). -/
def Obligations.StartComputesExactSizes : Prop :=
  ∀ (hi : BitVec 30) (s t : State), s.phase = .idle → 0 ≤ s.width.toInt → 0 ≤ s.height.toInt →
    exec (.wrCtrlStart hi) s = .next t →
      t.bpr.toNat = (s.width.toNat + 7) / 8 ∧ t.bpr.toNat ≤ 4096 ∧
      t.total.toNat = (s.width.toNat + 7) / 8 * s.height.toNat ∧ t.total.toNat ≤ 134213632

/-! ### The core's moves (40_rasterizer.md R131, R133) -/

/-- The core's move is the operation that PHASE selects (30_encoding.md R107); HOLD_IDLE, HOLD_DONE and HOLD_ERR change no state
(R131). -/
def Obligations.PhaseSelectsTheCoreMove : Prop :=
  ∀ (s : State) (rest : List Event),
    step { s with agenda := .core :: rest } = exec
      (match s.phase with | .idle => .holdIdle | .busy => .pix | .done => .holdDone | .err => .holdErr)
      { s with agenda := rest } ∧
    exec .holdIdle s = .next s ∧ exec .holdDone s = .next s ∧ exec .holdErr s = .next s

/-- The model's choice for what the spec never performs (log 14, log 21): PIX and the micro-operations of RAST outside BUSY, and those
of RLE outside BUSY or without compression, change nothing. -/
def Obligations.OperationsOutsideTheirPhaseDoNothing : Prop :=
  ∀ (i : Instr) (s : State),
    (s.phase ≠ .busy → i = .pix ∨ (∃ row, spaceOf i = .uopR row) → exec i s = .next s) ∧
    (s.phase ≠ .busy ∨ compEnabled s = false → spaceOf i = .uopC → exec i s = .next s)

/-- PIX is its micro-operations in the order of the pseudocode, on the sample at (COL, ROW), with the conditions of the state at the
start of the step (R133). -/
def Obligations.PixRunsItsMicroOperations : Prop :=
  ∀ (s : State) (px : Pixel), s.phase = .busy → s.col.toNat < s.width.toNat → s.row.toNat < s.height.toNat →
    pixRead s.grid s.col.toNat s.row.toNat = some px →
    exec .pix s = .next
      (((if s.nbits.toNat + 1 = 8 ∨ s.col = s.width - 1#16 then
          emitByte (packPixel (isBlack px s.thresh) (classifyPixel px s))
        else .cont { packPixel (isBlack px s.thresh) (classifyPixel px s) with nbits := s.nbits + 1#3 }).andThen
        fun u => if s.col = s.width - 1#16 then rowEnd (s.row == s.height - 1#16) u
          else .cont { u with col := s.col + 1#16 }).state)

/-- PIX without compression, written out: the bit packed at 7 - NBITS; two digits when the byte is full or the row ends; RB when
the row ends; the scan advanced; DONE after the last pixel (R133 to R138). -/
def Obligations.PixWithoutCompression : Prop :=
  ∀ (s : State) (px : Pixel), s.phase = .busy → compEnabled s = false → s.col.toNat < s.width.toNat →
    s.row.toNat < s.height.toNat → pixRead s.grid s.col.toNat s.row.toNat = some px →
    let black : Bool := decide (px.r.toNat + px.g.toNat + px.b.toNat ≤ s.thresh.toNat)
    let byte : BitVec 8 := s.acc ||| (if black then 1#8 <<< (7 - s.nbits.toNat) else 0#8)
    let digits : List Byte := [hexDigit (BitVec.ofNat 4 (byte.toNat / 16)), hexDigit (BitVec.ofNat 4 (byte.toNat % 16))]
    (s.nbits ≠ 7#3 → s.col ≠ s.width - 1#16 →
      exec .pix s = .next { s with bit := black, acc := byte, nbits := s.nbits + 1#3, col := s.col + 1#16 }) ∧
    (s.nbits = 7#3 → s.col ≠ s.width - 1#16 →
      exec .pix s = .next { s with bit := black, acc := 0#8, nbits := 0#3, col := s.col + 1#16, out := s.out ++ digits }) ∧
    (s.col = s.width - 1#16 → s.row ≠ s.height - 1#16 →
      exec .pix s = .next { s with bit := black, acc := 0#8, nbits := 0#3, col := 0#16, row := s.row + 1#16,
                                   out := s.out ++ digits ++ [0x0A#8] }) ∧
    (s.col = s.width - 1#16 → s.row = s.height - 1#16 →
      exec .pix s = .next { s with bit := black, acc := 0#8, nbits := 0#3, col := 0#16, phase := .done,
                                   out := s.out ++ digits ++ [0x0A#8] })

/-- A PIX step that raises leaves the record of R256 with the count of the run, above 400 and at most the row's digits, and appends
nothing (60_exceptions.md R252, R256, R257). The run is the pending one, RUN copies of PEND, extended by those digits of the byte just
packed that stand before the first digit other than PEND: the count is RUN, RUN + 1 or RUN + 2. -/
def Obligations.PixRaiseLeavesTheRecord : Prop :=
  ∀ (s t : State), MachineInv s → s.phase = .busy → exec .pix s = .next t → t.phase = .err →
    ∃ (px : Pixel) (n : Nat), pixRead s.grid s.col.toNat s.row.toNat = some px ∧
      errorEntered .encodingRange n { s with bit := t.bit } t ∧ 400 < n ∧ n ≤ 2 * s.bpr.toNat ∧
      let byte : BitVec 8 :=
        s.acc ||| (if px.r.toNat + px.g.toNat + px.b.toNat ≤ s.thresh.toNat then 1#8 <<< (7 - s.nbits.toNat) else 0#8)
      n = s.run.toNat + ((hexPair byte.toNat).takeWhile (· == s.pend)).length

/-- A pixel source that does not answer: the PIX step does not happen and the core stays BUSY (20_memory.md R62,
60_exceptions.md R265 c). In every other case PIX answers a next state, also at an address outside the frame, where the sample is a
free value (log 10). -/
def Obligations.PixWaitsForThePixelSource : Prop :=
  ∀ s : State,
    (s.phase = .busy → s.col.toNat < s.width.toNat → s.row.toNat < s.height.toNat →
      pixRead s.grid s.col.toNat s.row.toNat = none → exec .pix s = .next s) ∧
    ∃ t, exec .pix s = .next t ∧ t.agenda = s.agenda ∧ t.grid = s.grid

/-! ### Micro-operations of RAST, performed while BUSY (40_rasterizer.md R134 to R139; alone only in the model, log 14) -/

/-- CLASSIFY: black when the sum of the channels is at most THRESH; its corner cases (R134). Only the wire `bit` (log 8) moves. -/
def Obligations.ClassifyComparesTheSum : Prop :=
  ∀ (k : RastCond) (px : Pixel) (s : State), s.phase = .busy →
    exec (.classify k px) s = .next { s with bit := decide (px.r.toNat + px.g.toNat + px.b.toNat ≤ s.thresh.toNat) } ∧
    (765 ≤ s.thresh.toNat → exec (.classify k px) s = .next { s with bit := true }) ∧
    (s.thresh = 0#11 → exec (.classify k px) s = .next { s with bit := decide (px = ⟨0#8, 0#8, 0#8⟩) })

/-- PACK: the bit is OR-ed into position `7 - NBITS` of ACC, every other position kept (R135). -/
def Obligations.PackSetsOneBit : Prop :=
  ∀ (k : RastCond) (b : Bool) (s : State), s.phase = .busy →
    ∃ a : BitVec 8, exec (.pack k b) s = .next { s with acc := a } ∧
      ∀ j, j < 8 → a.getLsbD j = (s.acc.getLsbD j || (b && decide (j = 7 - s.nbits.toNat)))

/-- EMITBYTE, both rows: the digit of ACC[7:4], then that of ACC[3:0], through Emit, then ACC and NBITS cleared; a raise of either
ends it there (R136). -/
def Obligations.EmitByteSendsTwoDigits : Prop :=
  ∀ (a b : Bool) (s : State), s.phase = .busy →
    exec (.emitbyteFull a b) s = exec (.emitbyteLastcol a b) s ∧
    (∀ t u, emit (hexDigit (s.acc.extractLsb' 4 4)) s = .cont t → emit (hexDigit (s.acc.extractLsb' 0 4)) t = .cont u →
      exec (.emitbyteFull a b) s = .next { u with acc := 0#8, nbits := 0#3 }) ∧
    (∀ t, emit (hexDigit (s.acc.extractLsb' 4 4)) s = .stop t → exec (.emitbyteFull a b) s = .next t) ∧
    (∀ t u, emit (hexDigit (s.acc.extractLsb' 4 4)) s = .cont t → emit (hexDigit (s.acc.extractLsb' 0 4)) t = .stop u →
      exec (.emitbyteFull a b) s = .next u)

/-- EMITBYTE completes: without compression two digits reach OUT; with it, on a row not begun, they seed and extend or bound a run,
which never raises (R136, R163 to R165). -/
def Obligations.EmitByteCompletes : Prop :=
  ∀ (a b : Bool) (s : State), s.phase = .busy →
    (compEnabled s = false →
      exec (.emitbyteFull a b) s = .next { s with
        out := s.out ++ [hexDigit (s.acc.extractLsb' 4 4), hexDigit (s.acc.extractLsb' 0 4)], acc := 0#8, nbits := 0#3 } ∧
      exec (.emitbyteLastcol a b) s = .next { s with
        out := s.out ++ [hexDigit (s.acc.extractLsb' 4 4), hexDigit (s.acc.extractLsb' 0 4)], acc := 0#8, nbits := 0#3 }) ∧
    (compEnabled s = true → s.fresh = true →
      (s.acc.extractLsb' 4 4 = s.acc.extractLsb' 0 4 →
        exec (.emitbyteFull a b) s = .next { s with
          pend := hexDigit (s.acc.extractLsb' 0 4), run := 2#14, fresh := false, acc := 0#8, nbits := 0#3 }) ∧
      (s.acc.extractLsb' 4 4 ≠ s.acc.extractLsb' 0 4 →
        exec (.emitbyteFull a b) s = .next { s with
          line := s.line ++ [0x47#8, hexDigit (s.acc.extractLsb' 4 4)], pend := hexDigit (s.acc.extractLsb' 0 4), run := 1#14,
          fresh := false, acc := 0#8, nbits := 0#3 }))

/-- ROWEND: RB through Emit, COL cleared, then FRAMEEND at the last row and the next row otherwise; a raise of Emit leaves COL, ROW
and PHASE to error entry. FRAMEEND: PHASE becomes DONE (R138). -/
def Obligations.RowEndAndFrameEnd : Prop :=
  ∀ (a : Bool) (s : State), s.phase = .busy →
    (∀ t, emit 0x0A#8 s = .cont t →
      exec (.rowend a true) s = .next { t with col := 0#16, phase := .done } ∧
      exec (.rowend a false) s = .next { t with col := 0#16, row := t.row + 1#16 }) ∧
    (∀ l t, emit 0x0A#8 s = .stop t → exec (.rowend a l) s = .next t ∧ t.phase = .err ∧ t.errCause = .encodingRange) ∧
    (compEnabled s = false →
      exec (.rowend a true) s = .next { s with out := s.out ++ [0x0A#8], col := 0#16, phase := .done } ∧
      exec (.rowend a false) s = .next { s with out := s.out ++ [0x0A#8], col := 0#16, row := s.row + 1#16 }) ∧
    exec (.frameend a) s = .next { s with phase := .done }

/-- Emit routes a character to OUT when COMP_EN is 0 and to RLE when it is 1 (R139); OutAppend appends at the end (20_memory.md R66). -/
def Obligations.EmitRoutesByCompEn : Prop :=
  ∀ (c : Byte) (s : State), (compEnabled s = false → emit c s = .cont { s with out := s.out ++ [c] }) ∧
    (compEnabled s = true → emit c s = rleStep c s)

/-! ### RLE (41_rle_compressor.md) -/

/-- Exactly one micro-operation is performed for a character, the one {FRESH, isrb, same} selects (R162, 30_encoding.md R109). -/
def Obligations.RleStepSelectsOneMicroOperation : Prop :=
  ∀ (c : Byte) (s : State), s.phase = .busy → compEnabled s = true →
    (s.fresh = true → rleStep c s = .cont { s with pend := c, run := 1#14, fresh := false }) ∧
    (s.fresh = false → c = 0x0A#8 → (rleStep c s).outcome = exec (.rrowbrk (c == s.pend)) s) ∧
    (s.fresh = false → c ≠ 0x0A#8 → c = s.pend → (rleStep c s).outcome = exec .rsame s) ∧
    (∀ d, c = hexDigit d → s.fresh = false → c ≠ s.pend → (rleStep c s).outcome = exec (.rbound d) s)

/-- RSEED and RSAME, both exact: only PEND, RUN and FRESH, and only RUN (R163, R164). -/
def Obligations.SeedAndSameMoveOnlyTheRun : Prop :=
  ∀ (b : Bool) (d : BitVec 4) (s : State), s.phase = .busy → compEnabled s = true →
    exec (.rseed b (.digit d)) s = .next { s with pend := hexDigit d, run := 1#14, fresh := false } ∧
    exec (.rseed b .rowBreak) s = .next { s with pend := 0x0A#8, run := 1#14, fresh := false } ∧
    exec .rsame s = .next { s with run := s.run + 1#14 }

/-- RBOUND: the run's text goes to LINE and a new run begins; a RUN outside 1 to 400 raises EncodingRangeError with RUN, and nothing
else the host can read changes (R165, R171, 60_exceptions.md R256). -/
def Obligations.BoundaryEncodesTheRun : Prop :=
  ∀ (d : BitVec 4) (s : State), s.phase = .busy → compEnabled s = true →
    (1 ≤ s.run.toNat → s.run.toNat ≤ 400 → ∃ text, encodeRun s.run.toNat s.pend = some text ∧
      exec (.rbound d) s = .next { s with line := s.line ++ text, run := 1#14, pend := hexDigit d }) ∧
    (s.run.toNat = 0 ∨ 400 < s.run.toNat →
      ∃ t, exec (.rbound d) s = .next t ∧ errorEntered .encodingRange s.run.toNat s t)

/-- RROWBRK: the last run closed as ',' or '!' when it covers the row, else by its encoding; the row's text, or ':' when it equals
the row before, appended to OUT; PREV set to the text; LINE, RUN, FRESH for the next row. A RUN of another form outside 1 to 400
raises (R166, R167, R168). -/
def Obligations.RowBreakClosesAndFlushes : Prop :=
  ∀ (b : Bool) (s : State), s.phase = .busy → compEnabled s = true →
    (∀ text,
      (2 * s.bpr.toNat ≤ s.run.toNat ∧ s.pend = 0x30#8 ∧ text = [0x2C#8]) ∨
      (2 * s.bpr.toNat ≤ s.run.toNat ∧ s.pend = 0x46#8 ∧ text = [0x21#8]) ∨
      (¬(2 * s.bpr.toNat ≤ s.run.toNat ∧ (s.pend = 0x30#8 ∨ s.pend = 0x46#8)) ∧
        encodeRun s.run.toNat s.pend = some text) →
      (s.prevValid = true ∧ s.line ++ text = s.prev →
        exec (.rrowbrk b) s = .next { s with out := s.out ++ [0x3A#8], prev := s.line ++ text, prevValid := true, line := [],
                                             run := 1#14, fresh := true }) ∧
      (¬(s.prevValid = true ∧ s.line ++ text = s.prev) →
        exec (.rrowbrk b) s = .next { s with out := s.out ++ (s.line ++ text), prev := s.line ++ text, prevValid := true,
                                             line := [], run := 1#14, fresh := true })) ∧
    (s.run.toNat = 0 ∨ 400 < s.run.toNat →
      ¬(2 * s.bpr.toNat ≤ s.run.toNat ∧ (s.pend = 0x30#8 ∨ s.pend = 0x46#8)) →
      ∃ t, exec (.rrowbrk b) s = .next t ∧ errorEntered .encodingRange s.run.toNat s t)

/-- ENC: no text for 0 and above 400; letter and digit up to 20 and for multiples of 20; otherwise the multiple's letter first, then
the unit's (R169); letters by their codes (30_encoding.md R99, R100). -/
def Obligations.EncIsTheRunAlphabet : Prop :=
  ∀ (n : Nat) (c : Byte),
    (n = 0 ∨ 400 < n → encodeRun n c = none) ∧
    (1 ≤ n → n ≤ 19 → encodeRun n c = some [BitVec.ofNat 8 (0x46 + n), c]) ∧
    (20 ≤ n → n ≤ 400 → n % 20 = 0 → encodeRun n c = some [BitVec.ofNat 8 (0x67 + n / 20 - 1), c]) ∧
    (20 ≤ n → n ≤ 400 → n % 20 ≠ 0 →
      encodeRun n c = some [BitVec.ofNat 8 (0x67 + n / 20 - 1), BitVec.ofNat 8 (0x46 + n % 20), c])

/-- ALPHA by its codes, defined on exactly 1 to 19 and the multiples of 20 from 20 to 400 (30_encoding.md R100); VALUE by its codes,
the inverse in both directions; no letter is the code of two counts (R101). -/
def Obligations.RunAlphabetIsBidirectional : Prop :=
  (∀ n, 1 ≤ n → n ≤ 19 → alpha n = some (BitVec.ofNat 8 (0x46 + n))) ∧
  (∀ n, 20 ≤ n → n ≤ 400 → n % 20 = 0 → alpha n = some (BitVec.ofNat 8 (0x67 + n / 20 - 1))) ∧
  (∀ n, (alpha n).isSome = true ↔ (1 ≤ n ∧ n ≤ 19) ∨ (20 ≤ n ∧ n ≤ 400 ∧ n % 20 = 0)) ∧
  (∀ c : Byte, 0x47 ≤ c.toNat → c.toNat ≤ 0x59 → letterValue c = some (c.toNat - 0x46)) ∧
  (∀ c : Byte, 0x67 ≤ c.toNat → c.toNat ≤ 0x7A → letterValue c = some ((c.toNat - 0x67 + 1) * 20)) ∧
  (∀ n c, alpha n = some c → letterValue c = some n) ∧
  (∀ c n, letterValue c = some n → alpha n = some c) ∧
  (∀ m n c, alpha m = some c → alpha n = some c → m = n)

/-! ### Output symbols (30_encoding.md R95; their operation: log 15) -/

/-- Each of the 59 symbols of the present stream, while BUSY: its code is appended to OUT (20_memory.md R65, R66). Otherwise, in the
model, nothing happens (log 15). -/
def Obligations.SymbolsReachTheSink : Prop :=
  ∀ (i : Instr) (code : Nat) (s : State), symbolCode i = some code →
    (s.phase = .busy → inAlphabet (compEnabled s) (BitVec.ofNat 8 code) = true →
      exec i s = .next { s with out := s.out ++ [BitVec.ofNat 8 code] }) ∧
    (s.phase ≠ .busy ∨ inAlphabet (compEnabled s) (BitVec.ofNat 8 code) = false → exec i s = .next s)

/-- The alphabet of each stream: hex digits and RB without compression; hex digits, the letters 'G' to 'Y' and 'g' to 'z', and
',', '!', ':' with it (20_memory.md R65). -/
def Obligations.StreamAlphabets : Prop :=
  ∀ c : Byte,
    (inAlphabet false c = true ↔
      (0x30 ≤ c.toNat ∧ c.toNat ≤ 0x39) ∨ (0x41 ≤ c.toNat ∧ c.toNat ≤ 0x46) ∨ c.toNat = 0x0A) ∧
    (inAlphabet true c = true ↔
      (0x30 ≤ c.toNat ∧ c.toNat ≤ 0x39) ∨ (0x41 ≤ c.toNat ∧ c.toNat ≤ 0x46) ∨ (0x47 ≤ c.toNat ∧ c.toNat ≤ 0x59) ∨
        (0x67 ≤ c.toNat ∧ c.toNat ≤ 0x7A) ∨ c.toNat = 0x2C ∨ c.toNat = 0x21 ∨ c.toNat = 0x3A)

/-! ### Words and steps -/

/-- Words written out from the encodings of 30_encoding.md (R104 to R109, R95) decode to what they stand for. -/
def Obligations.WrittenOutWordsDecode : Prop :=
  decodeWord .hreg 0x20450#48 = .ok (.wrWidth 8#32) ∧ decodeWord .hreg 0x401#48 = .ok (.wrCtrlStart 0#30) ∧
    decodeWord .hreg 0x012#48 = .ok .rdStatus ∧ decodeWord .hreg 0x0A0#48 = .ok (.rsvd28 false 0x28#8 0#32) ∧
    decodeWord .seq 0x1#48 = .ok .pix ∧ decodeWord (.uopR .rowend) 0x3#48 = .ok (.rowend false true) ∧
    decodeWord .uopC 0x1#48 = .ok .rsame ∧ decodeWord .uopC 0xF0000#48 = .ok (.rbound 0xF#4) ∧
    decodeWord .sym8 0x67#48 = .ok .cnt20g ∧ decodeWord .sym8 0x0A#48 = .ok .rb

/-- Decoding the word of a well-formed operation gives it back, with every operand: all 100 rows (30_encoding.md R116). -/
def Obligations.DecodeInvertsEncode : Prop :=
  ∀ i : Instr, wellFormed i = true → decodeWord (spaceOf i) (encode i) = .ok i

/-- What the decoder accepts is well formed and of the format it was read in. -/
def Obligations.DecodeGivesWellFormed : Prop :=
  ∀ (sp : Space) (w : Word) (i : Instr), decodeWord sp w = .ok i → wellFormed i = true ∧ spaceOf i = sp

/-- Every selector value has its row (30_encoding.md R116): any word offset in either direction with any data, any PHASE, any RLE
vector. -/
def Obligations.EverySelectorHasARow : Prop :=
  (∀ (wr : Bool) (off : BitVec 8) (v : Data), off.toNat % 4 = 0 → (wr = false → v = 0#32) →
    ∃ i, decodeWord .hreg (BitVec.ofNat 48 (hregBits wr off.toNat v.toNat)) = .ok i) ∧
  (∀ p : Phase, ∃ i, decodeWord .seq (phaseWord p) = .ok i) ∧
  (∀ fresh isrb same : Bool, ∃ i, decodeWord .uopC (BitVec.ofNat 48 (condBits fresh isrb same)) = .ok i)

/-- An access at an offset that is not a multiple of 4 gets no meaning: the step refuses it (42_host_register_ops.md R217). -/
def Obligations.MisalignedAccessIsRefused : Prop :=
  ∀ (s : State) (rest : List Event) (w : Word), fieldOf w.toNat 2 2 ≠ 0 →
    ∃ r, step { s with agenda := .op .hreg w :: rest } = .refused r

/-- A step runs the decoded operation: the first move of the agenda is taken off it and performed; with none left the core moves
(log 1). -/
def Obligations.StepRunsTheDecodedOperation : Prop :=
  (∀ (s : State) (sp : Space) (w : Word) (i : Instr) (rest : List Event), decodeWord sp w = .ok i →
    step { s with agenda := .op sp w :: rest } = exec i { s with agenda := rest }) ∧
  (∀ s : State, s.agenda = [] → step s = step { s with agenda := [.core] })

/-- A table word placed by withFetchWord is what the next step runs (log 3, log 4): exec of what decodeTableWord reads, in the state
it was placed in, its phase and COMP_EN as the row needs. -/
def Obligations.PlacedWordRunsNext : Prop :=
  ∀ (s : State) (nbits w : Nat) (i : Instr), decodeTableWord nbits w = some i →
    ∃ u, step (s.withFetchWord nbits w) = exec i u ∧
      u = { s with phase := u.phase, compEn := u.compEn } ∧
      (spaceOf i = .hreg → u = s) ∧ (i = .pix → u.phase = .busy)

/-- Between frames the host serves another grid, whose bytes are those of the cells given, a later cell before an earlier; during a
frame there is no such move (10_state.md R22, 20_memory.md R79; log 11). -/
def Obligations.SupplyServesTheCells : Prop :=
  ∀ (s : State) (cells : List Host.Cell) (rest : List Event),
    (s.phase ≠ .busy → ∃ g, step { s with agenda := .supply cells :: rest } = .next { s with agenda := rest, grid := g } ∧
      Memory.wf g = true ∧
      ∀ a : Nat, Memory.read g a = (cells.reverse.find? fun c => c.1 == a).map Prod.snd) ∧
    (s.phase = .busy → ∃ r, step { s with agenda := .supply cells :: rest } = .refused r)

/-! ### Rules of the whole machine -/

/-- The phase transitions, complete: what can change PHASE, and to what (40_rasterizer.md R141). -/
def Obligations.PhaseTransitionsAreTheTable : Prop :=
  ∀ s t : State, (headMove s).isHardware = true → step s = .next t →
    (t.phase = s.phase ∨
      (∃ hi, (headMove s).accesses (.wrCtrlStart hi) ∧ s.phase = .idle ∧
        (((s.width.toInt < 0 ∨ s.height.toInt < 0) ∧ t.phase = .err ∧ t.errCause = .invalidDimension) ∨
          (0 ≤ s.width.toInt ∧ 0 ≤ s.height.toInt ∧ (s.width = 0#16 ∨ s.height = 0#16) ∧ t.phase = .done) ∨
          (1 ≤ s.width.toInt ∧ 1 ≤ s.height.toInt ∧ t.phase = .busy))) ∨
      (headMove s = .core ∧ s.phase = .busy ∧ s.col = s.width - 1#16 ∧ s.row = s.height - 1#16 ∧ t.phase = .done) ∨
      (headMove s = .core ∧ s.phase = .busy ∧ t.phase = .err ∧ t.errCause = .encodingRange) ∨
      (∃ hi, (headMove s).accesses (.wrCtrlClear hi) ∧ (s.phase = .done ∨ s.phase = .err) ∧ t.phase = .idle) ∨
      (headMove s = .reset ∧ t.phase = .idle)) ∧
    (∀ hi, (headMove s).accesses (.wrCtrlStart hi) → s.phase = .idle → t.phase ≠ .idle) ∧
    (∀ hi, (headMove s).accesses (.wrCtrlClear hi) → s.phase = .done ∨ s.phase = .err → t.phase = .idle) ∧
    (headMove s = .reset → t.phase = .idle) ∧
    (headMove s = .core → s.phase = .busy → s.col.toNat + 1 = s.width.toNat → s.row.toNat + 1 = s.height.toNat →
      pixelServed s → t.phase = .done ∨ t.phase = .err)

/-- Every register is written only by the operations that the inventory names for it (10_state.md R20), under their conditions; the
core never writes the pixel space (20_memory.md R60). -/
def Obligations.RegistersChangeOnlyThroughTheirWriters : Prop :=
  ∀ s t : State, (headMove s).isHardware = true → step s = .next t → headMove s ≠ .reset →
    (t.thresh ≠ s.thresh → s.phase ≠ .busy ∧ ∃ v, (headMove s).accesses (.wrPct v)) ∧
    (t.compEn ≠ s.compEn → s.phase ≠ .busy ∧ s.hasRle = true ∧ ∃ v, (headMove s).accesses (.wrCompEn v)) ∧
    (t.width ≠ s.width → s.phase ≠ .busy ∧ ∃ v, (headMove s).accesses (.wrWidth v)) ∧
    (t.height ≠ s.height → s.phase ≠ .busy ∧ ∃ v, (headMove s).accesses (.wrHeight v)) ∧
    (t.bpr ≠ s.bpr ∨ t.total ≠ s.total →
      s.phase = .idle ∧ 0 ≤ s.width.toInt ∧ 0 ≤ s.height.toInt ∧ ∃ hi, (headMove s).accesses (.wrCtrlStart hi)) ∧
    (t.errCause ≠ s.errCause ∨ t.errInfo ≠ s.errInfo →
      (s.phase = .idle ∧ ∃ hi, (headMove s).accesses (.wrCtrlStart hi)) ∨
      ((s.phase = .done ∨ s.phase = .err) ∧ ∃ hi, (headMove s).accesses (.wrCtrlClear hi)) ∨
      (s.phase = .busy ∧ headMove s = .core ∧ t.phase = .err)) ∧
    (t.out ≠ s.out ∨ t.acc ≠ s.acc ∨ t.nbits ≠ s.nbits ∨ t.col ≠ s.col ∨ t.row ≠ s.row ∨ t.run ≠ s.run ∨
        t.fresh ≠ s.fresh ∨ t.line ≠ s.line ∨ t.prev ≠ s.prev ∨ t.prevValid ≠ s.prevValid ∨ t.pend ≠ s.pend →
      (s.phase = .idle ∧ ∃ hi, (headMove s).accesses (.wrCtrlStart hi)) ∨ (s.phase = .busy ∧ headMove s = .core)) ∧
    t.hasRle = s.hasRle ∧
    (t.grid ≠ s.grid → s.phase ≠ .busy ∧ ∃ cells, headMove s = .supply cells)

/-- OUT only grows while BUSY, so that at any moment it is a prefix of what it will be; a step that enters an error appends nothing
(20_memory.md R74 a, 60_exceptions.md R257). -/
def Obligations.OutOnlyGrowsDuringAFrame : Prop :=
  ∀ s t : State, (headMove s).isHardware = true → s.phase = .busy → headMove s ≠ .reset → step s = .next t →
    (∃ more, t.out = s.out ++ more) ∧ (t.phase = .err → t.out = s.out)

/-! ### The invariant (10_state.md R49) -/

/-- The invariant holds after reset, whatever the instance and whatever moves of the hardware are to come. It does not depend on the
reset values the model named (log 5): it says nothing of the datapath outside BUSY. -/
def Obligations.InvariantHoldsAtReset : Prop :=
  ∀ (b : Bool) (g : Memory) (moves : List Event), Memory.wf g = true → (∀ e ∈ moves, e.isHardware = true) →
    MachineInv { State.reset with hasRle := b, grid := g, agenda := moves }

/-- Every step of the hardware keeps the invariant: the facts of R49, the ranges, the error record, the alphabet of OUT, the
canonical form of the pixel space. -/
def Obligations.EveryStepKeepsTheInvariant : Prop :=
  ∀ s t : State, MachineInv s → step s = .next t → MachineInv t

/-- The facts of R49, at every step boundary while BUSY. -/
def Obligations.BusyFactsOfEveryBoundary : Prop :=
  ∀ s : State, MachineInv s → s.phase = .busy →
    0 < s.width.toInt ∧ 0 < s.height.toInt ∧ s.col.toNat < s.width.toNat ∧ s.row.toNat < s.height.toNat ∧
    s.nbits.toNat = s.col.toNat % 8 ∧ s.acc.extractLsb' 0 (8 - s.nbits.toNat) = 0#(8 - s.nbits.toNat) ∧
    s.bpr.toNat = (s.width.toNat + 7) / 8 ∧ s.total.toNat = s.bpr.toNat * s.height.toNat ∧ s.errCause = .noError ∧
    (compEnabled s = true →
      1 ≤ s.run.toNat ∧ s.run.toNat ≤ 2 * s.bpr.toNat ∧ s.line.length ≤ 4 * s.bpr.toNat ∧
        (s.fresh = true ↔ s.col.toNat < 8)) ∧
    (compEnabled s = false →
      s.out.length = s.row.toNat * (2 * s.bpr.toNat + 1) + 2 * (s.col.toNat / 8))

/-- LINE and PREV never overflow: at most 4 * BPR characters, at most LINE_CAP (41_rle_compressor.md R174). -/
def Obligations.LineAndPrevStayWithinCapacity : Prop :=
  ∀ s : State, MachineInv s → s.phase = .busy → compEnabled s = true →
    s.line.length ≤ 4 * s.bpr.toNat ∧ s.line.length ≤ 16384 ∧
      (s.prevValid = true → s.prev.length ≤ 4 * s.bpr.toNat ∧ s.prev.length ≤ 16384)

/-- With WIDTH at most 1600 a compressed frame raises no EncodingRangeError (41_rle_compressor.md R171,
70_reset_and_hazards.md R287). -/
def Obligations.NarrowFramesNeverRaise : Prop :=
  ∀ s t : State, MachineInv s → s.phase = .busy → s.width.toNat ≤ 1600 → step s = .next t → t.phase ≠ .err

/-! ### Whole frames -/

/-- The body of a frame at least one pixel wide, as text: `2 * B` digits and an RB for every row (30_encoding.md R94, 40_rasterizer.md
R144 b). A frame of width 0 has no rows and the empty body; START says so (40_rasterizer.md R132, 90_conflicts.md C4). -/
def Obligations.HexBodyHasItsLength : Prop :=
  ∀ (px : Nat → Nat → Pixel) (thresh : BitVec 11) (w h : Nat), 1 ≤ w →
    (hexBody (frameRows px thresh w h)).length = h * (2 * ((w + 7) / 8) + 1) ∧
    ((hexBody (frameRows px thresh w h)).filter fun c => c != 0x0A#8).length = 2 * ((w + 7) / 8) * h ∧
    (∀ r ∈ frameRows px thresh w h, r.length = 2 * ((w + 7) / 8) ∧ ∀ c ∈ r, isHexDigit c = true)

/-- A solid white grid gives '0' digits only; a solid black one 'F' digits only when WIDTH is a multiple of 8, and otherwise the
last pair of each row is the padded byte (40_rasterizer.md R144 c, d). -/
def Obligations.SolidGridsGiveSolidDigits : Prop :=
  ∀ (px : Nat → Nat → Pixel) (thresh : BitVec 11) (w h : Nat),
    ((∀ x y, x < w → y < h → thresh.toNat < channelSum (px x y)) →
      frameRows px thresh w h = List.replicate h (List.replicate (2 * ((w + 7) / 8)) 0x30#8)) ∧
    ((∀ x y, x < w → y < h → channelSum (px x y) ≤ thresh.toNat) →
      frameRows px thresh w h = List.replicate h (List.replicate (2 * (w / 8)) 0x46#8 ++
        (if w % 8 = 0 then [] else hexPair (256 - 2 ^ (8 - w % 8)))))

/-- The whole frame without compression: after exactly `WIDTH * HEIGHT` core steps, and not before, PHASE is DONE with OUT = HexBody,
BPR and TOTAL (40_rasterizer.md R143). -/
def Obligations.RawFrameDeliversHexBody : Prop :=
  ∀ (s : State) (hi : BitVec 30) (px : Nat → Nat → Pixel), s.phase = .idle → compEnabled s = false →
    0 < s.width.toInt → 0 < s.height.toInt → servesGrid s.grid s.width.toNat s.height.toNat px →
    (∀ k, k < s.width.toNat * s.height.toNat →
      ∃ u, runSteps (1 + k) { s with agenda := [startEvent hi] } = .next u ∧ u.phase = .busy) ∧
    ∃ t, runSteps (1 + s.width.toNat * s.height.toNat) { s with agenda := [startEvent hi] } = .next t ∧ t.phase = .done ∧
      t.out = hexBody (frameRows px s.thresh s.width.toNat s.height.toNat) ∧
      t.bpr.toNat = (s.width.toNat + 7) / 8 ∧ t.total.toNat = (s.width.toNat + 7) / 8 * s.height.toNat ∧
      t.errCause = .noError ∧ t.errInfo = 0#14

/-- The whole frame with compression: DONE with OUT = CompressedBody, or, at the first row whose text raises, ERR with the count of
its first run above 400 and OUT the output of the rows before it (41_rle_compressor.md R175). -/
def Obligations.CompressedFrameDeliversCompressedBody : Prop :=
  ∀ (s : State) (hi : BitVec 30) (px : Nat → Nat → Pixel), s.phase = .idle → compEnabled s = true →
    0 < s.width.toInt → 0 < s.height.toInt → servesGrid s.grid s.width.toNat s.height.toNat px →
    ∃ t, runSteps (1 + s.width.toNat * s.height.toNat) { s with agenda := [startEvent hi] } = .next t ∧
      t.bpr.toNat = (s.width.toNat + 7) / 8 ∧ t.total.toNat = (s.width.toNat + 7) / 8 * s.height.toNat ∧
      t.out = (compressRows none (frameRows px s.thresh s.width.toNat s.height.toNat)).1 ∧
      match (compressRows none (frameRows px s.thresh s.width.toNat s.height.toNat)).2 with
      | none => t.phase = .done ∧ t.errCause = .noError ∧ t.errInfo = 0#14
      | some n => t.phase = .err ∧ t.errCause = .encodingRange ∧ t.errInfo.toNat = n ∧ 400 < n

/-- Decompressing what a frame that ends in DONE delivered gives back HexBody (41_rle_compressor.md R176, R177 a). -/
def Obligations.DecoderInvertsCompressor : Prop :=
  ∀ (b : Nat) (rows : List (List Byte)) (body : List Byte), 1 ≤ b →
    (∀ r ∈ rows, r.length = 2 * b ∧ ∀ c ∈ r, isHexDigit c = true) →
    compressRows none rows = (body, none) → decodeBody b body = hexBody rows

/-- All-zero rows compress to ',' and then ':' for each further row; all-'F' rows to '!' and then ':'; a row equal to the
row before it to ':', wherever in the frame it stands (41_rle_compressor.md R177 b, c, d). -/
def Obligations.SolidAndRepeatedRowsCompress : Prop :=
  (∀ m h, 1 ≤ m → compressRows none (List.replicate (h + 1) (List.replicate m 0x30#8)) =
    (0x2C#8 :: List.replicate h 0x3A#8, none)) ∧
  (∀ m h, 1 ≤ m → compressRows none (List.replicate (h + 1) (List.replicate m 0x46#8)) =
    (0x21#8 :: List.replicate h 0x3A#8, none)) ∧
  (∀ r text, rowText r = .ok text → compressRows none [r, r] = (text ++ [0x3A#8], none)) ∧
  (∀ (rows : List (List Byte)) (r body : List Byte), compressRows none (rows ++ [r]) = (body, none) →
    compressRows none (rows ++ [r, r]) = (body ++ [0x3A#8], none))

/-- The scan is in raster order: after k core steps of a served frame (COL, ROW) is (k % WIDTH, k / WIDTH) while BUSY, and DONE is
not reached before `WIDTH * HEIGHT` of them (20_memory.md R63, 70_reset_and_hazards.md R293). -/
def Obligations.ScanIsInRasterOrder : Prop :=
  ∀ (s : State) (hi : BitVec 30) (px : Nat → Nat → Pixel), s.phase = .idle → 0 < s.width.toInt → 0 < s.height.toInt →
    servesGrid s.grid s.width.toNat s.height.toNat px →
    ∀ k, ∃ t, runSteps (1 + k) { s with agenda := [startEvent hi] } = .next t ∧
      (t.phase = .busy → k < s.width.toNat * s.height.toNat ∧ t.col.toNat = k % s.width.toNat ∧
        t.row.toNat = k / s.width.toNat) ∧
      (t.phase = .done → s.width.toNat * s.height.toNat ≤ k) ∧ t.phase ≠ .idle

/-- A frame terminates: from any state of a run, with the core left to itself and the pixels served, PHASE is DONE or ERR after as
many steps as pixels remain (60_exceptions.md R265 d, 70_reset_and_hazards.md R293). -/
def Obligations.FramesTerminate : Prop :=
  ∀ (s : State) (px : Nat → Nat → Pixel), MachineInv s → s.phase = .busy → s.agenda = [] →
    servesGrid s.grid s.width.toNat s.height.toNat px →
    ∃ t, runSteps (s.width.toNat * s.height.toNat - (s.row.toNat * s.width.toNat + s.col.toNat)) s = .next t ∧ frameEnded t

/-- Interleaving: host accesses put anywhere between the core's steps of a frame change nothing of what the same number of core steps
alone give, but the answer RDATA (70_reset_and_hazards.md R295). The last move is a core step, which may end the frame. -/
def Obligations.HostAccessesDoNotDisturbAFrame : Prop :=
  ∀ (s u v : State) (moves rest : List Event), (∀ e ∈ moves, e.isAccessOrCore) → s.phase = .busy →
    runSteps (coreCount moves) { s with agenda := List.replicate (coreCount moves) .core ++ .core :: rest } = .next u →
    u.phase = .busy → step u = .next v →
    ∃ d, runSteps (moves.length + 1) { s with agenda := moves ++ .core :: rest } = .next { v with rdata := d }

/-- The result of a frame is a function of THRESH, COMP_EN, WIDTH, HEIGHT and the grid at START alone: two machines that agree on these,
whatever their other registers hold, have the same result after START and any number of core steps (70_reset_and_hazards.md
R295, R282; 90_conflicts.md C11). -/
def Obligations.ResultDependsOnlyOnConfigurationAndGrid : Prop :=
  ∀ (s t : State) (hi : BitVec 30), s.phase = .idle → t.phase = .idle → s.thresh = t.thresh → compEnabled s = compEnabled t →
    s.width = t.width → s.height = t.height → s.grid = t.grid → 0 ≤ s.width.toInt → 0 ≤ s.height.toInt →
    ∀ n, ∃ u v, runSteps (1 + n) { s with agenda := [startEvent hi] } = .next u ∧
      runSteps (1 + n) { t with agenda := [startEvent hi] } = .next v ∧ frameResult u = frameResult v
end

