-- ==== Sys2Proof/Laws/Decode.lean ====
section
/-! SUPPORT. Lemmas about words: the fields of an encoded word are what was put in. -/

namespace Sys2Proof

/-- The number of an encoded word, when it fits. -/
theorem encode_toNat (i : Instr) (h : encodeBits i < 2 ^ 48) : (encode i).toNat = encodeBits i := by
  simp only [encode, BitVec.toNat_ofNat]
  exact Nat.mod_eq_of_lt h

theorem hregBits_lt (wr : Bool) (off v : Nat) (ho : off < 256) (hv : v < 2 ^ 32) : hregBits wr off v < 2 ^ 48 := by
  cases wr <;> simp [hregBits, natOfBool] <;> omega

/-- What the decoder reads from a write word. -/
theorem decodeHreg_write (off v : Nat) (ho : off < 256) (ha : off % 4 = 0) (hv : v < 2 ^ 32) :
    decodeHreg (hregBits true off v) =
      .ok (if off < 0x28 then decodeNamedWrite off (BitVec.ofNat 32 v) else decodeReserved true off (BitVec.ofNat 32 v)) := by
  have h0 : hregBits true off v = 1024 + off * 4 + v % 4 + v / 4 * 65536 := by simp [hregBits, natOfBool]
  have d16 : (1024 + off * 4 + v % 4 + v / 4 * 65536) / 65536 = v / 4 := by omega
  have d11 : (1024 + off * 4 + v % 4 + v / 4 * 65536) / 2048 = v / 4 * 32 := by omega
  have d10 : (1024 + off * 4 + v % 4 + v / 4 * 65536) / 1024 = 1 + v / 4 * 64 := by omega
  have d2 : (1024 + off * 4 + v % 4 + v / 4 * 65536) / 4 = 256 + off + v / 4 * 16384 := by omega
  have m4 : (1024 + off * 4 + v % 4 + v / 4 * 65536) % 4 = v % 4 := by omega
  have h1 : fieldOf (hregBits true off v) 2 8 = off := by
    rw [h0]; simp only [fieldOf, Nat.reducePow]; rw [d2]; omega
  have h2 : fieldOf (hregBits true off v) 16 30 * 4 + fieldOf (hregBits true off v) 0 2 = v := by
    rw [h0]; simp only [fieldOf, Nat.reducePow, Nat.div_one]; rw [d16, m4]; omega
  have h3 : fieldOf (hregBits true off v) 11 5 = 0 := by
    rw [h0]; simp only [fieldOf, Nat.reducePow]; rw [d11]; omega
  have h4 : hregBits true off v / 2 ^ 46 = 0 := by rw [h0]; omega
  have h5 : bitOf (hregBits true off v) 10 = true := by
    rw [h0]; simp only [bitOf, beq_iff_eq, Nat.reducePow]; rw [d10]; omega
  simp only [decodeHreg, h1, h2, h3, h4, h5, ha]
  by_cases hlt : off < 0x28 <;> simp [hlt]

/-- What the decoder reads from a read word. -/
theorem decodeHreg_read (off : Nat) (ho : off < 256) (ha : off % 4 = 0) :
    decodeHreg (hregBits false off 0) =
      .ok (if off < 0x28 then decodeNamedRead off else decodeReserved false off 0#32) := by
  have h0 : hregBits false off 0 = off * 4 := by simp [hregBits, natOfBool]
  have h1 : fieldOf (hregBits false off 0) 2 8 = off := by rw [h0]; simp only [fieldOf, Nat.reducePow]; omega
  have h2 : fieldOf (hregBits false off 0) 16 30 = 0 := by rw [h0]; simp only [fieldOf, Nat.reducePow]; omega
  have h3 : fieldOf (hregBits false off 0) 11 5 = 0 := by rw [h0]; simp only [fieldOf, Nat.reducePow]; omega
  have h4 : hregBits false off 0 / 2 ^ 46 = 0 := by rw [h0]; omega
  have h5 : bitOf (hregBits false off 0) 10 = false := by
    rw [h0]; simp only [bitOf, beq_eq_false_iff_ne, ne_eq, Nat.reducePow]; omega
  simp only [decodeHreg, h1, h2, h3, h4, h5, ha]
  by_cases hlt : off < 0x28 <;> simp [hlt]

theorem decodeWord_write (i : Instr) (off v : Nat) (hs : spaceOf i = .hreg) (he : encodeBits i = hregBits true off v)
    (ho : off < 256) (ha : off % 4 = 0) (hv : v < 2 ^ 32) :
    decodeWord (spaceOf i) (encode i) =
      .ok (if off < 0x28 then decodeNamedWrite off (BitVec.ofNat 32 v) else decodeReserved true off (BitVec.ofNat 32 v)) := by
  have hlt : encodeBits i < 2 ^ 48 := he ▸ hregBits_lt true off v ho hv
  simp only [hs, decodeWord, encode_toNat i hlt]
  rw [he]
  exact decodeHreg_write off v ho ha hv

theorem decodeWord_read (i : Instr) (off : Nat) (hs : spaceOf i = .hreg) (he : encodeBits i = hregBits false off 0)
    (ho : off < 256) (ha : off % 4 = 0) :
    decodeWord (spaceOf i) (encode i) =
      .ok (if off < 0x28 then decodeNamedRead off else decodeReserved false off 0#32) := by
  have hlt : encodeBits i < 2 ^ 48 := he ▸ hregBits_lt false off 0 ho (by decide)
  simp only [hs, decodeWord, encode_toNat i hlt]
  rw [he]
  exact decodeHreg_read off ho ha

theorem spaceOf_namedWrite (off : Nat) (v : Data) : spaceOf (decodeNamedWrite off v) = .hreg := by
  unfold decodeNamedWrite
  split_ifs <;> rfl

theorem spaceOf_namedRead (off : Nat) : spaceOf (decodeNamedRead off) = .hreg := by
  unfold decodeNamedRead
  split_ifs <;> rfl

theorem spaceOf_reserved (wr : Bool) (off : Nat) (v : Data) : spaceOf (decodeReserved wr off v) = .hreg := by
  unfold decodeReserved
  split_ifs <;> rfl

/-- A word read as a register access is one. -/
theorem spaceOf_hreg {w : Word} {i : Instr} (h : decodeWord .hreg w = .ok i) : spaceOf i = .hreg := by
  simp only [decodeWord, decodeHreg] at h
  split_ifs at h <;> obtain rfl := Except.ok.inj h
  · exact spaceOf_namedWrite _ _
  · exact spaceOf_reserved _ _ _
  · exact spaceOf_namedRead _
  · exact spaceOf_reserved _ _ _

/-! ### The operations of a format -/

theorem seq_ne_hreg : Space.seq ≠ .hreg := by decide
theorem uopR_ne_hreg {r : RastRow} : Space.uopR r ≠ .hreg := by simp
theorem uopC_ne_hreg : Space.uopC ≠ .hreg := by decide
theorem sym8_ne_hreg : Space.sym8 ≠ .hreg := by decide
theorem hreg_ne_uopR {r : RastRow} : Space.hreg ≠ .uopR r := by simp
theorem seq_ne_uopR {r : RastRow} : Space.seq ≠ .uopR r := by simp
theorem uopC_ne_uopR {r : RastRow} : Space.uopC ≠ .uopR r := by simp
theorem sym8_ne_uopR {r : RastRow} : Space.sym8 ≠ .uopR r := by simp
theorem hreg_ne_uopC : Space.hreg ≠ .uopC := by decide
theorem seq_ne_uopC : Space.seq ≠ .uopC := by decide
theorem uopR_ne_uopC {r : RastRow} : Space.uopR r ≠ .uopC := by simp
theorem sym8_ne_uopC : Space.sym8 ≠ .uopC := by decide

/-- The rows of format UOP_R. -/
theorem uopR_cases {i : Instr} {r : RastRow} (h : spaceOf i = .uopR r) :
    (∃ k px, i = .classify k px) ∨ (∃ k b, i = .pack k b) ∨ (∃ a b, i = .emitbyteFull a b) ∨
      (∃ a b, i = .emitbyteLastcol a b) ∨ (∃ a b, i = .rowend a b) ∨ ∃ a, i = .frameend a := by
  cases i
  case classify k px => exact .inl ⟨k, px, rfl⟩
  case pack k b => exact .inr (.inl ⟨k, b, rfl⟩)
  case emitbyteFull a b => exact .inr (.inr (.inl ⟨a, b, rfl⟩))
  case emitbyteLastcol a b => exact .inr (.inr (.inr (.inl ⟨a, b, rfl⟩)))
  case rowend a b => exact .inr (.inr (.inr (.inr (.inl ⟨a, b, rfl⟩))))
  case frameend a => exact .inr (.inr (.inr (.inr (.inr ⟨a, rfl⟩))))
  all_goals first
    | exact absurd h hreg_ne_uopR
    | exact absurd h seq_ne_uopR
    | exact absurd h uopC_ne_uopR
    | exact absurd h sym8_ne_uopR

/-- The rows of format UOP_C. -/
theorem uopC_cases {i : Instr} (h : spaceOf i = .uopC) :
    (∃ b c, i = .rseed b c) ∨ (∃ b, i = .rrowbrk b) ∨ i = .rsame ∨ ∃ d, i = .rbound d := by
  cases i
  case rseed b c => exact .inl ⟨b, c, rfl⟩
  case rrowbrk b => exact .inr (.inl ⟨b, rfl⟩)
  case rsame => exact .inr (.inr (.inl rfl))
  case rbound d => exact .inr (.inr (.inr ⟨d, rfl⟩))
  all_goals first
    | exact absurd h hreg_ne_uopC
    | exact absurd h seq_ne_uopC
    | exact absurd h uopR_ne_uopC
    | exact absurd h sym8_ne_uopC

/-! ### The words of CTRL and of conditions -/

/-- The word of a CTRL write. -/
theorem decodeNamedWrite_ctrl (hi : BitVec 30) (cmd : Nat) (hc : cmd < 4) :
    decodeNamedWrite 0 (BitVec.ofNat 32 (hi.toNat * 4 + cmd)) =
      if cmd = 0 then .wrCtrlNop hi else if cmd = 1 then .wrCtrlStart hi else if cmd = 2 then .wrCtrlClear hi
      else .wrCtrlRsvd hi := by
  have hlt : hi.toNat * 4 + cmd < 2 ^ 32 := by have := hi.isLt; omega
  have h1 : (BitVec.ofNat 32 (hi.toNat * 4 + cmd)).toNat % 4 = cmd := by
    rw [BitVec.toNat_ofNat, Nat.mod_eq_of_lt hlt]; omega
  have h2 : BitVec.ofNat 30 ((BitVec.ofNat 32 (hi.toNat * 4 + cmd)).toNat / 4) = hi := by
    rw [BitVec.toNat_ofNat, Nat.mod_eq_of_lt hlt]
    have : (hi.toNat * 4 + cmd) / 4 = hi.toNat := by omega
    rw [this]; simp
  simp only [decodeNamedWrite, h1, h2, if_true]

theorem condBits_lt (a b c : Bool) : condBits a b c < 8 := by
  cases a <;> cases b <;> cases c <;> decide

theorem pixelBits_lt (p : Pixel) : pixelBits p < 2 ^ 24 := by
  have := p.r.isLt; have := p.g.isLt; have := p.b.isLt
  simp only [pixelBits]; omega

theorem pixelOf_pixelBits (p : Pixel) : pixelOf (pixelBits p) = p := by
  have hr := p.r.isLt; have hg := p.g.isLt; have hb := p.b.isLt
  obtain ⟨r, g, b⟩ := p
  simp only [pixelBits, pixelOf, Pixel.mk.injEq] at *
  refine ⟨?_, ?_, ?_⟩ <;> apply BitVec.eq_of_toNat_eq <;> simp only [BitVec.toNat_ofNat] <;> omega

/-- The selector bits of a word with an operand from bit 16. -/
theorem cond_fields (a b c : Bool) (x : Nat) :
    bitOf (condBits a b c + x * 65536) 2 = a ∧ bitOf (condBits a b c + x * 65536) 1 = b ∧
      bitOf (condBits a b c + x * 65536) 0 = c ∧ fieldOf (condBits a b c + x * 65536) 3 13 = 0 := by
  cases a <;> cases b <;> cases c <;>
    simp only [condBits, natOfBool, bitOf, fieldOf, beq_iff_eq, beq_eq_false_iff_ne, ne_eq, if_true, Bool.false_eq_true,
      if_false] <;> omega

end Sys2Proof
end

