-- ==== Sys2Proof/Laws/State.lean ====
section
/-! SUPPORT. Fields of the named updates of State, one lemma per field per update, true by unfolding. The datapath registers after
error entry have none: they are free values (60_exceptions.md R256). -/

namespace Sys2Proof.Machine

variable (s : State)

/-! ### outAppend -/

@[simp] theorem outAppend_phase (c : Byte) : (outAppend c s).phase = s.phase := rfl
@[simp] theorem outAppend_thresh (c : Byte) : (outAppend c s).thresh = s.thresh := rfl
@[simp] theorem outAppend_compEn (c : Byte) : (outAppend c s).compEn = s.compEn := rfl
@[simp] theorem outAppend_width (c : Byte) : (outAppend c s).width = s.width := rfl
@[simp] theorem outAppend_height (c : Byte) : (outAppend c s).height = s.height := rfl
@[simp] theorem outAppend_bpr (c : Byte) : (outAppend c s).bpr = s.bpr := rfl
@[simp] theorem outAppend_total (c : Byte) : (outAppend c s).total = s.total := rfl
@[simp] theorem outAppend_errCause (c : Byte) : (outAppend c s).errCause = s.errCause := rfl
@[simp] theorem outAppend_errInfo (c : Byte) : (outAppend c s).errInfo = s.errInfo := rfl
@[simp] theorem outAppend_acc (c : Byte) : (outAppend c s).acc = s.acc := rfl
@[simp] theorem outAppend_nbits (c : Byte) : (outAppend c s).nbits = s.nbits := rfl
@[simp] theorem outAppend_col (c : Byte) : (outAppend c s).col = s.col := rfl
@[simp] theorem outAppend_row (c : Byte) : (outAppend c s).row = s.row := rfl
@[simp] theorem outAppend_pend (c : Byte) : (outAppend c s).pend = s.pend := rfl
@[simp] theorem outAppend_run (c : Byte) : (outAppend c s).run = s.run := rfl
@[simp] theorem outAppend_fresh (c : Byte) : (outAppend c s).fresh = s.fresh := rfl
@[simp] theorem outAppend_line (c : Byte) : (outAppend c s).line = s.line := rfl
@[simp] theorem outAppend_prev (c : Byte) : (outAppend c s).prev = s.prev := rfl
@[simp] theorem outAppend_prevValid (c : Byte) : (outAppend c s).prevValid = s.prevValid := rfl
@[simp] theorem outAppend_out (c : Byte) : (outAppend c s).out = s.out ++ [c] := rfl
@[simp] theorem outAppend_hasRle (c : Byte) : (outAppend c s).hasRle = s.hasRle := rfl
@[simp] theorem outAppend_grid (c : Byte) : (outAppend c s).grid = s.grid := rfl
@[simp] theorem outAppend_rdata (c : Byte) : (outAppend c s).rdata = s.rdata := rfl
@[simp] theorem outAppend_bit (c : Byte) : (outAppend c s).bit = s.bit := rfl
@[simp] theorem outAppend_agenda (c : Byte) : (outAppend c s).agenda = s.agenda := rfl
@[simp] theorem outAppend_freeCtr (c : Byte) : (outAppend c s).freeCtr = s.freeCtr := rfl

/-! ### clearFrame -/

@[simp] theorem clearFrame_phase : (clearFrame s).phase = .idle := rfl
@[simp] theorem clearFrame_thresh : (clearFrame s).thresh = s.thresh := rfl
@[simp] theorem clearFrame_compEn : (clearFrame s).compEn = s.compEn := rfl
@[simp] theorem clearFrame_width : (clearFrame s).width = s.width := rfl
@[simp] theorem clearFrame_height : (clearFrame s).height = s.height := rfl
@[simp] theorem clearFrame_bpr : (clearFrame s).bpr = s.bpr := rfl
@[simp] theorem clearFrame_total : (clearFrame s).total = s.total := rfl
@[simp] theorem clearFrame_errCause : (clearFrame s).errCause = .noError := rfl
@[simp] theorem clearFrame_errInfo : (clearFrame s).errInfo = 0#14 := rfl
@[simp] theorem clearFrame_acc : (clearFrame s).acc = s.acc := rfl
@[simp] theorem clearFrame_nbits : (clearFrame s).nbits = s.nbits := rfl
@[simp] theorem clearFrame_col : (clearFrame s).col = s.col := rfl
@[simp] theorem clearFrame_row : (clearFrame s).row = s.row := rfl
@[simp] theorem clearFrame_pend : (clearFrame s).pend = s.pend := rfl
@[simp] theorem clearFrame_run : (clearFrame s).run = s.run := rfl
@[simp] theorem clearFrame_fresh : (clearFrame s).fresh = s.fresh := rfl
@[simp] theorem clearFrame_line : (clearFrame s).line = s.line := rfl
@[simp] theorem clearFrame_prev : (clearFrame s).prev = s.prev := rfl
@[simp] theorem clearFrame_prevValid : (clearFrame s).prevValid = s.prevValid := rfl
@[simp] theorem clearFrame_out : (clearFrame s).out = s.out := rfl
@[simp] theorem clearFrame_hasRle : (clearFrame s).hasRle = s.hasRle := rfl
@[simp] theorem clearFrame_grid : (clearFrame s).grid = s.grid := rfl
@[simp] theorem clearFrame_rdata : (clearFrame s).rdata = s.rdata := rfl
@[simp] theorem clearFrame_bit : (clearFrame s).bit = s.bit := rfl
@[simp] theorem clearFrame_agenda : (clearFrame s).agenda = s.agenda := rfl
@[simp] theorem clearFrame_freeCtr : (clearFrame s).freeCtr = s.freeCtr := rfl

/-! ### errorEntry -/

@[simp] theorem errorEntry_phase (x : ErrCause) (n : BitVec 14) : (errorEntry x n s).phase = .err := rfl
@[simp] theorem errorEntry_thresh (x : ErrCause) (n : BitVec 14) : (errorEntry x n s).thresh = s.thresh := rfl
@[simp] theorem errorEntry_compEn (x : ErrCause) (n : BitVec 14) : (errorEntry x n s).compEn = s.compEn := rfl
@[simp] theorem errorEntry_width (x : ErrCause) (n : BitVec 14) : (errorEntry x n s).width = s.width := rfl
@[simp] theorem errorEntry_height (x : ErrCause) (n : BitVec 14) : (errorEntry x n s).height = s.height := rfl
@[simp] theorem errorEntry_bpr (x : ErrCause) (n : BitVec 14) : (errorEntry x n s).bpr = s.bpr := rfl
@[simp] theorem errorEntry_total (x : ErrCause) (n : BitVec 14) : (errorEntry x n s).total = s.total := rfl
@[simp] theorem errorEntry_errCause (x : ErrCause) (n : BitVec 14) : (errorEntry x n s).errCause = x := rfl
@[simp] theorem errorEntry_errInfo (x : ErrCause) (n : BitVec 14) : (errorEntry x n s).errInfo = n := rfl
@[simp] theorem errorEntry_out (x : ErrCause) (n : BitVec 14) : (errorEntry x n s).out = s.out := rfl
@[simp] theorem errorEntry_hasRle (x : ErrCause) (n : BitVec 14) : (errorEntry x n s).hasRle = s.hasRle := rfl
@[simp] theorem errorEntry_grid (x : ErrCause) (n : BitVec 14) : (errorEntry x n s).grid = s.grid := rfl
@[simp] theorem errorEntry_rdata (x : ErrCause) (n : BitVec 14) : (errorEntry x n s).rdata = s.rdata := rfl
@[simp] theorem errorEntry_bit (x : ErrCause) (n : BitVec 14) : (errorEntry x n s).bit = s.bit := rfl
@[simp] theorem errorEntry_agenda (x : ErrCause) (n : BitVec 14) : (errorEntry x n s).agenda = s.agenda := rfl
@[simp] theorem errorEntry_freeCtr (x : ErrCause) (n : BitVec 14) : (errorEntry x n s).freeCtr = s.freeCtr + 1 := rfl

/-! ### seedRun -/

@[simp] theorem seedRun_phase (c : Byte) : (seedRun c s).phase = s.phase := rfl
@[simp] theorem seedRun_thresh (c : Byte) : (seedRun c s).thresh = s.thresh := rfl
@[simp] theorem seedRun_compEn (c : Byte) : (seedRun c s).compEn = s.compEn := rfl
@[simp] theorem seedRun_width (c : Byte) : (seedRun c s).width = s.width := rfl
@[simp] theorem seedRun_height (c : Byte) : (seedRun c s).height = s.height := rfl
@[simp] theorem seedRun_bpr (c : Byte) : (seedRun c s).bpr = s.bpr := rfl
@[simp] theorem seedRun_total (c : Byte) : (seedRun c s).total = s.total := rfl
@[simp] theorem seedRun_errCause (c : Byte) : (seedRun c s).errCause = s.errCause := rfl
@[simp] theorem seedRun_errInfo (c : Byte) : (seedRun c s).errInfo = s.errInfo := rfl
@[simp] theorem seedRun_acc (c : Byte) : (seedRun c s).acc = s.acc := rfl
@[simp] theorem seedRun_nbits (c : Byte) : (seedRun c s).nbits = s.nbits := rfl
@[simp] theorem seedRun_col (c : Byte) : (seedRun c s).col = s.col := rfl
@[simp] theorem seedRun_row (c : Byte) : (seedRun c s).row = s.row := rfl
@[simp] theorem seedRun_pend (c : Byte) : (seedRun c s).pend = c := rfl
@[simp] theorem seedRun_run (c : Byte) : (seedRun c s).run = 1#14 := rfl
@[simp] theorem seedRun_fresh (c : Byte) : (seedRun c s).fresh = false := rfl
@[simp] theorem seedRun_line (c : Byte) : (seedRun c s).line = s.line := rfl
@[simp] theorem seedRun_prev (c : Byte) : (seedRun c s).prev = s.prev := rfl
@[simp] theorem seedRun_prevValid (c : Byte) : (seedRun c s).prevValid = s.prevValid := rfl
@[simp] theorem seedRun_out (c : Byte) : (seedRun c s).out = s.out := rfl
@[simp] theorem seedRun_hasRle (c : Byte) : (seedRun c s).hasRle = s.hasRle := rfl
@[simp] theorem seedRun_grid (c : Byte) : (seedRun c s).grid = s.grid := rfl
@[simp] theorem seedRun_rdata (c : Byte) : (seedRun c s).rdata = s.rdata := rfl
@[simp] theorem seedRun_bit (c : Byte) : (seedRun c s).bit = s.bit := rfl
@[simp] theorem seedRun_agenda (c : Byte) : (seedRun c s).agenda = s.agenda := rfl
@[simp] theorem seedRun_freeCtr (c : Byte) : (seedRun c s).freeCtr = s.freeCtr := rfl

/-! ### extendRun -/

@[simp] theorem extendRun_phase : (extendRun s).phase = s.phase := rfl
@[simp] theorem extendRun_thresh : (extendRun s).thresh = s.thresh := rfl
@[simp] theorem extendRun_compEn : (extendRun s).compEn = s.compEn := rfl
@[simp] theorem extendRun_width : (extendRun s).width = s.width := rfl
@[simp] theorem extendRun_height : (extendRun s).height = s.height := rfl
@[simp] theorem extendRun_bpr : (extendRun s).bpr = s.bpr := rfl
@[simp] theorem extendRun_total : (extendRun s).total = s.total := rfl
@[simp] theorem extendRun_errCause : (extendRun s).errCause = s.errCause := rfl
@[simp] theorem extendRun_errInfo : (extendRun s).errInfo = s.errInfo := rfl
@[simp] theorem extendRun_acc : (extendRun s).acc = s.acc := rfl
@[simp] theorem extendRun_nbits : (extendRun s).nbits = s.nbits := rfl
@[simp] theorem extendRun_col : (extendRun s).col = s.col := rfl
@[simp] theorem extendRun_row : (extendRun s).row = s.row := rfl
@[simp] theorem extendRun_pend : (extendRun s).pend = s.pend := rfl
@[simp] theorem extendRun_run : (extendRun s).run = s.run + 1#14 := rfl
@[simp] theorem extendRun_fresh : (extendRun s).fresh = s.fresh := rfl
@[simp] theorem extendRun_line : (extendRun s).line = s.line := rfl
@[simp] theorem extendRun_prev : (extendRun s).prev = s.prev := rfl
@[simp] theorem extendRun_prevValid : (extendRun s).prevValid = s.prevValid := rfl
@[simp] theorem extendRun_out : (extendRun s).out = s.out := rfl
@[simp] theorem extendRun_hasRle : (extendRun s).hasRle = s.hasRle := rfl
@[simp] theorem extendRun_grid : (extendRun s).grid = s.grid := rfl
@[simp] theorem extendRun_rdata : (extendRun s).rdata = s.rdata := rfl
@[simp] theorem extendRun_bit : (extendRun s).bit = s.bit := rfl
@[simp] theorem extendRun_agenda : (extendRun s).agenda = s.agenda := rfl
@[simp] theorem extendRun_freeCtr : (extendRun s).freeCtr = s.freeCtr := rfl

/-! ### classifyPixel -/

@[simp] theorem classifyPixel_phase (px : Pixel) : (classifyPixel px s).phase = s.phase := rfl
@[simp] theorem classifyPixel_thresh (px : Pixel) : (classifyPixel px s).thresh = s.thresh := rfl
@[simp] theorem classifyPixel_compEn (px : Pixel) : (classifyPixel px s).compEn = s.compEn := rfl
@[simp] theorem classifyPixel_width (px : Pixel) : (classifyPixel px s).width = s.width := rfl
@[simp] theorem classifyPixel_height (px : Pixel) : (classifyPixel px s).height = s.height := rfl
@[simp] theorem classifyPixel_bpr (px : Pixel) : (classifyPixel px s).bpr = s.bpr := rfl
@[simp] theorem classifyPixel_total (px : Pixel) : (classifyPixel px s).total = s.total := rfl
@[simp] theorem classifyPixel_errCause (px : Pixel) : (classifyPixel px s).errCause = s.errCause := rfl
@[simp] theorem classifyPixel_errInfo (px : Pixel) : (classifyPixel px s).errInfo = s.errInfo := rfl
@[simp] theorem classifyPixel_acc (px : Pixel) : (classifyPixel px s).acc = s.acc := rfl
@[simp] theorem classifyPixel_nbits (px : Pixel) : (classifyPixel px s).nbits = s.nbits := rfl
@[simp] theorem classifyPixel_col (px : Pixel) : (classifyPixel px s).col = s.col := rfl
@[simp] theorem classifyPixel_row (px : Pixel) : (classifyPixel px s).row = s.row := rfl
@[simp] theorem classifyPixel_pend (px : Pixel) : (classifyPixel px s).pend = s.pend := rfl
@[simp] theorem classifyPixel_run (px : Pixel) : (classifyPixel px s).run = s.run := rfl
@[simp] theorem classifyPixel_fresh (px : Pixel) : (classifyPixel px s).fresh = s.fresh := rfl
@[simp] theorem classifyPixel_line (px : Pixel) : (classifyPixel px s).line = s.line := rfl
@[simp] theorem classifyPixel_prev (px : Pixel) : (classifyPixel px s).prev = s.prev := rfl
@[simp] theorem classifyPixel_prevValid (px : Pixel) : (classifyPixel px s).prevValid = s.prevValid := rfl
@[simp] theorem classifyPixel_out (px : Pixel) : (classifyPixel px s).out = s.out := rfl
@[simp] theorem classifyPixel_hasRle (px : Pixel) : (classifyPixel px s).hasRle = s.hasRle := rfl
@[simp] theorem classifyPixel_grid (px : Pixel) : (classifyPixel px s).grid = s.grid := rfl
@[simp] theorem classifyPixel_rdata (px : Pixel) : (classifyPixel px s).rdata = s.rdata := rfl
@[simp] theorem classifyPixel_bit (px : Pixel) : (classifyPixel px s).bit = isBlack px s.thresh := rfl
@[simp] theorem classifyPixel_agenda (px : Pixel) : (classifyPixel px s).agenda = s.agenda := rfl
@[simp] theorem classifyPixel_freeCtr (px : Pixel) : (classifyPixel px s).freeCtr = s.freeCtr := rfl

/-! ### packPixel -/

@[simp] theorem packPixel_phase (b : Bool) : (packPixel b s).phase = s.phase := rfl
@[simp] theorem packPixel_thresh (b : Bool) : (packPixel b s).thresh = s.thresh := rfl
@[simp] theorem packPixel_compEn (b : Bool) : (packPixel b s).compEn = s.compEn := rfl
@[simp] theorem packPixel_width (b : Bool) : (packPixel b s).width = s.width := rfl
@[simp] theorem packPixel_height (b : Bool) : (packPixel b s).height = s.height := rfl
@[simp] theorem packPixel_bpr (b : Bool) : (packPixel b s).bpr = s.bpr := rfl
@[simp] theorem packPixel_total (b : Bool) : (packPixel b s).total = s.total := rfl
@[simp] theorem packPixel_errCause (b : Bool) : (packPixel b s).errCause = s.errCause := rfl
@[simp] theorem packPixel_errInfo (b : Bool) : (packPixel b s).errInfo = s.errInfo := rfl
@[simp] theorem packPixel_acc (b : Bool) : (packPixel b s).acc = packBit s.acc s.nbits b := rfl
@[simp] theorem packPixel_nbits (b : Bool) : (packPixel b s).nbits = s.nbits := rfl
@[simp] theorem packPixel_col (b : Bool) : (packPixel b s).col = s.col := rfl
@[simp] theorem packPixel_row (b : Bool) : (packPixel b s).row = s.row := rfl
@[simp] theorem packPixel_pend (b : Bool) : (packPixel b s).pend = s.pend := rfl
@[simp] theorem packPixel_run (b : Bool) : (packPixel b s).run = s.run := rfl
@[simp] theorem packPixel_fresh (b : Bool) : (packPixel b s).fresh = s.fresh := rfl
@[simp] theorem packPixel_line (b : Bool) : (packPixel b s).line = s.line := rfl
@[simp] theorem packPixel_prev (b : Bool) : (packPixel b s).prev = s.prev := rfl
@[simp] theorem packPixel_prevValid (b : Bool) : (packPixel b s).prevValid = s.prevValid := rfl
@[simp] theorem packPixel_out (b : Bool) : (packPixel b s).out = s.out := rfl
@[simp] theorem packPixel_hasRle (b : Bool) : (packPixel b s).hasRle = s.hasRle := rfl
@[simp] theorem packPixel_grid (b : Bool) : (packPixel b s).grid = s.grid := rfl
@[simp] theorem packPixel_rdata (b : Bool) : (packPixel b s).rdata = s.rdata := rfl
@[simp] theorem packPixel_bit (b : Bool) : (packPixel b s).bit = s.bit := rfl
@[simp] theorem packPixel_agenda (b : Bool) : (packPixel b s).agenda = s.agenda := rfl
@[simp] theorem packPixel_freeCtr (b : Bool) : (packPixel b s).freeCtr = s.freeCtr := rfl

/-! ### frameEnd -/

@[simp] theorem frameEnd_phase : (frameEnd s).phase = .done := rfl
@[simp] theorem frameEnd_thresh : (frameEnd s).thresh = s.thresh := rfl
@[simp] theorem frameEnd_compEn : (frameEnd s).compEn = s.compEn := rfl
@[simp] theorem frameEnd_width : (frameEnd s).width = s.width := rfl
@[simp] theorem frameEnd_height : (frameEnd s).height = s.height := rfl
@[simp] theorem frameEnd_bpr : (frameEnd s).bpr = s.bpr := rfl
@[simp] theorem frameEnd_total : (frameEnd s).total = s.total := rfl
@[simp] theorem frameEnd_errCause : (frameEnd s).errCause = s.errCause := rfl
@[simp] theorem frameEnd_errInfo : (frameEnd s).errInfo = s.errInfo := rfl
@[simp] theorem frameEnd_acc : (frameEnd s).acc = s.acc := rfl
@[simp] theorem frameEnd_nbits : (frameEnd s).nbits = s.nbits := rfl
@[simp] theorem frameEnd_col : (frameEnd s).col = s.col := rfl
@[simp] theorem frameEnd_row : (frameEnd s).row = s.row := rfl
@[simp] theorem frameEnd_pend : (frameEnd s).pend = s.pend := rfl
@[simp] theorem frameEnd_run : (frameEnd s).run = s.run := rfl
@[simp] theorem frameEnd_fresh : (frameEnd s).fresh = s.fresh := rfl
@[simp] theorem frameEnd_line : (frameEnd s).line = s.line := rfl
@[simp] theorem frameEnd_prev : (frameEnd s).prev = s.prev := rfl
@[simp] theorem frameEnd_prevValid : (frameEnd s).prevValid = s.prevValid := rfl
@[simp] theorem frameEnd_out : (frameEnd s).out = s.out := rfl
@[simp] theorem frameEnd_hasRle : (frameEnd s).hasRle = s.hasRle := rfl
@[simp] theorem frameEnd_grid : (frameEnd s).grid = s.grid := rfl
@[simp] theorem frameEnd_rdata : (frameEnd s).rdata = s.rdata := rfl
@[simp] theorem frameEnd_bit : (frameEnd s).bit = s.bit := rfl
@[simp] theorem frameEnd_agenda : (frameEnd s).agenda = s.agenda := rfl
@[simp] theorem frameEnd_freeCtr : (frameEnd s).freeCtr = s.freeCtr := rfl

/-! ### resetEvent -/

@[simp] theorem resetEvent_phase : (resetEvent s).phase = State.reset.phase := rfl
@[simp] theorem resetEvent_thresh : (resetEvent s).thresh = State.reset.thresh := rfl
@[simp] theorem resetEvent_compEn : (resetEvent s).compEn = State.reset.compEn := rfl
@[simp] theorem resetEvent_width : (resetEvent s).width = State.reset.width := rfl
@[simp] theorem resetEvent_height : (resetEvent s).height = State.reset.height := rfl
@[simp] theorem resetEvent_bpr : (resetEvent s).bpr = State.reset.bpr := rfl
@[simp] theorem resetEvent_total : (resetEvent s).total = State.reset.total := rfl
@[simp] theorem resetEvent_errCause : (resetEvent s).errCause = State.reset.errCause := rfl
@[simp] theorem resetEvent_errInfo : (resetEvent s).errInfo = State.reset.errInfo := rfl
@[simp] theorem resetEvent_acc : (resetEvent s).acc = State.reset.acc := rfl
@[simp] theorem resetEvent_nbits : (resetEvent s).nbits = State.reset.nbits := rfl
@[simp] theorem resetEvent_col : (resetEvent s).col = State.reset.col := rfl
@[simp] theorem resetEvent_row : (resetEvent s).row = State.reset.row := rfl
@[simp] theorem resetEvent_pend : (resetEvent s).pend = State.reset.pend := rfl
@[simp] theorem resetEvent_run : (resetEvent s).run = State.reset.run := rfl
@[simp] theorem resetEvent_fresh : (resetEvent s).fresh = State.reset.fresh := rfl
@[simp] theorem resetEvent_line : (resetEvent s).line = State.reset.line := rfl
@[simp] theorem resetEvent_prev : (resetEvent s).prev = State.reset.prev := rfl
@[simp] theorem resetEvent_prevValid : (resetEvent s).prevValid = State.reset.prevValid := rfl
@[simp] theorem resetEvent_out : (resetEvent s).out = State.reset.out := rfl
@[simp] theorem resetEvent_hasRle : (resetEvent s).hasRle = s.hasRle := rfl
@[simp] theorem resetEvent_grid : (resetEvent s).grid = s.grid := rfl
@[simp] theorem resetEvent_rdata : (resetEvent s).rdata = State.reset.rdata := rfl
@[simp] theorem resetEvent_bit : (resetEvent s).bit = State.reset.bit := rfl
@[simp] theorem resetEvent_agenda : (resetEvent s).agenda = s.agenda := rfl
@[simp] theorem resetEvent_freeCtr : (resetEvent s).freeCtr = s.freeCtr := rfl

/-! ### Flow -/

@[simp] theorem Flow.andThen_cont (k : State → Flow) : (Flow.cont s).andThen k = k s := rfl
@[simp] theorem Flow.andThen_stop (k : State → Flow) : (Flow.stop s).andThen k = .stop s := rfl
@[simp] theorem Flow.state_cont : (Flow.cont s).state = s := rfl
@[simp] theorem Flow.state_stop : (Flow.stop s).state = s := rfl
@[simp] theorem Flow.outcome_eq (f : Flow) : f.outcome = .next f.state := rfl

/-! ### Appending a string -/

theorem outAppendAll_eq (cs : List Byte) : outAppendAll cs s = { s with out := s.out ++ cs } := by
  induction cs generalizing s with
  | nil => simp [outAppendAll]
  | cons c cs ih =>
    have h := ih (outAppend c s)
    simp only [outAppendAll, List.foldl_cons] at h ⊢
    rw [h]
    simp [outAppend]

/-! ### When a row is performed (log 14, log 15) -/

theorem whileBusy_on {s : State} (h : s.phase = .busy) (f : Flow) : whileBusy s f = .next f.state := by
  simp [whileBusy, h, Flow.outcome]

theorem whileBusy_off {s : State} (h : s.phase ≠ .busy) (f : Flow) : whileBusy s f = .next s := by
  simp [whileBusy, h]

theorem whileCompressing_on {s : State} (h : s.phase = .busy) (hc : compEnabled s = true) (f : Flow) :
    whileCompressing s f = .next f.state := by
  simp [whileCompressing, h, hc, Flow.outcome]

theorem whileCompressing_off {s : State} (h : s.phase ≠ .busy ∨ compEnabled s = false) (f : Flow) :
    whileCompressing s f = .next s := by
  rcases h with h | h <;> simp [whileCompressing, h]

theorem appendSymbol_on {s : State} {c : Byte} (h : s.phase = .busy) (hc : inAlphabet (compEnabled s) c = true) :
    appendSymbol c s = .next (outAppend c s) := by
  simp [appendSymbol, h, hc]

theorem appendSymbol_off {s : State} {c : Byte} (h : s.phase ≠ .busy ∨ inAlphabet (compEnabled s) c = false) :
    appendSymbol c s = .next s := by
  rcases h with h | h <;> simp [appendSymbol, h]

end Sys2Proof.Machine
end

