-- ==== Sys2Proof/Laws/Memory.lean ====
section
/-! SUPPORT. The pixel space keeps its canonical form, and reads back what was written (log 9). -/

namespace Sys2Proof.Machine

/-- Every address of `m` is above `a`. -/
def Memory.above (a : Nat) (m : Memory) : Prop := ∀ c ∈ m, a < c.1

theorem Memory.wf_cons_iff (c : Host.Cell) (m : Memory) :
    Memory.wf (c :: m) = true ↔ Memory.above c.1 m ∧ Memory.wf m = true := by
  induction m generalizing c with
  | nil => simp [Memory.wf, Memory.above]
  | cons d m ih =>
    simp only [Memory.wf, Bool.and_eq_true, decide_eq_true_eq]
    constructor
    · rintro ⟨hlt, hwf⟩
      refine ⟨fun x hx => ?_, hwf⟩
      rcases List.mem_cons.mp hx with rfl | hx
      · exact hlt
      · exact lt_trans hlt ((ih d).mp hwf |>.1 x hx)
    · rintro ⟨hab, hwf⟩
      exact ⟨hab d (by simp), hwf⟩

theorem Memory.mem_write (m : Memory) (a : Nat) (b : Byte) (x : Host.Cell) (hx : x ∈ Memory.write m a b) :
    x.1 = a ∨ x ∈ m := by
  induction m with
  | nil => simp_all [Memory.write]
  | cons c m ih =>
    unfold Memory.write at hx
    split at hx
    · rcases List.mem_cons.mp hx with rfl | hx
      · exact .inl rfl
      · exact .inr hx
    · split at hx
      · rcases List.mem_cons.mp hx with rfl | hx
        · exact .inl rfl
        · exact .inr (List.mem_cons_of_mem _ hx)
      · rcases List.mem_cons.mp hx with rfl | hx
        · exact .inr (by simp)
        · exact (ih hx).imp id (List.mem_cons_of_mem _)

/-- A write keeps the canonical form. -/
theorem Memory.write_wf (m : Memory) (a : Nat) (b : Byte) (h : Memory.wf m = true) :
    Memory.wf (Memory.write m a b) = true := by
  induction m with
  | nil => simp [Memory.write, Memory.wf]
  | cons c m ih =>
    obtain ⟨hab, hwf⟩ := (Memory.wf_cons_iff c m).mp h
    unfold Memory.write
    split
    · rename_i hlt
      refine (Memory.wf_cons_iff _ _).mpr ⟨fun x hx => ?_, h⟩
      rcases List.mem_cons.mp hx with rfl | hx
      · exact hlt
      · exact lt_trans hlt (hab x hx)
    · split
      · rename_i heq
        exact (Memory.wf_cons_iff _ _).mpr ⟨fun x hx => heq ▸ hab x hx, hwf⟩
      · refine (Memory.wf_cons_iff _ _).mpr ⟨fun x hx => ?_, ih hwf⟩
        rcases Memory.mem_write m a b x hx with hxa | hx
        · omega
        · exact hab x hx

/-- The grid a host serves is in canonical form. -/
theorem gridOfCells_wf (cells : List Host.Cell) : Memory.wf (gridOfCells cells) = true := by
  have key : ∀ (m : Memory), Memory.wf m = true →
      Memory.wf (cells.foldl (fun m c => Memory.write m c.1 c.2) m) = true := by
    induction cells with
    | nil => exact fun m h => h
    | cons c cs ih => exact fun m h => ih _ (Memory.write_wf m c.1 c.2 h)
  exact key [] rfl

/-- A read after a write to the same address gives the byte written. -/
theorem Memory.read_write_same (m : Memory) (a : Nat) (b : Byte) : Memory.read (Memory.write m a b) a = some b := by
  induction m with
  | nil => simp [Memory.write, Memory.read]
  | cons c m ih =>
    unfold Memory.write
    split
    · simp [Memory.read]
    · split
      · simp [Memory.read]
      · rename_i h1 h2
        simp only [Memory.read]
        rw [if_neg (fun h => h2 h.symm), ih]

/-- A write leaves every other address alone. -/
theorem Memory.read_write_other (m : Memory) (a a' : Nat) (b : Byte) (h : a' ≠ a) :
    Memory.read (Memory.write m a b) a' = Memory.read m a' := by
  induction m with
  | nil => simp [Memory.write, Memory.read, h.symm]
  | cons c m ih =>
    unfold Memory.write
    split
    · simp [Memory.read, h.symm]
    · split
      · rename_i heq
        subst heq
        simp [Memory.read, h.symm]
      · simp only [Memory.read, ih]

end Sys2Proof.Machine
end

