-- ==== Sys2Proof/Laws/Operands.lean ====
section
/-! SUPPORT. What the assembly functions give: hex digits, the run alphabet, the text of a run, the packing of a bit, sizes. -/

namespace Sys2Proof.Machine

/-! ### Characters -/

theorem hexDigit_isHexDigit (n : BitVec 4) : isHexDigit (hexDigit n) = true := by
  revert n; decide

theorem hexDigit_ne_rb (n : BitVec 4) : isrbCond (hexDigit n) = false := by
  revert n; decide

theorem isHexDigit_ne_rb (c : Byte) (h : isHexDigit c = true) : isrbCond c = false := by
  simp only [isrbCond, beq_eq_false_iff_ne, ne_eq]
  rintro rfl
  exact absurd h (by decide)

theorem isrb_rb : isrbCond Config.rbCode = true := by decide

theorem inAlphabet_of_digit (b : Bool) (c : Byte) (h : isHexDigit c = true) : inAlphabet b c = true := by
  simp [inAlphabet, h]

theorem inAlphabet_of_letter (c : Byte) (h : isCountLetter c = true) : inAlphabet true c = true := by
  simp [inAlphabet, h]

/-! ### The run alphabet -/

theorem alpha_unit (n : Nat) (h1 : 1 ≤ n) (h2 : n ≤ 19) : alpha n = some (BitVec.ofNat 8 (0x46 + n)) := by
  simp [alpha, h1, h2]

theorem alpha_twenties (k : Nat) (h1 : 1 ≤ k) (h2 : k ≤ 20) : alpha (k * 20) = some (BitVec.ofNat 8 (0x66 + k)) := by
  have h3 : ¬(1 ≤ k * 20 ∧ k * 20 ≤ 19) := by omega
  have h4 : 20 ≤ k * 20 ∧ k * 20 ≤ Config.runMax ∧ k * 20 % Config.runBase = 0 := by
    simp only [Config.runMax, Config.runBase]; omega
  rw [alpha, if_neg h3, if_pos h4]
  congr 2
  simp only [Config.runBase]; omega

theorem alpha_isCountLetter (n : Nat) (a : Byte) (h : alpha n = some a) : isCountLetter a = true := by
  simp only [alpha, Config.runMax, Config.runBase] at h
  split at h
  · rename_i hn
    obtain ⟨h1, h2⟩ := hn
    interval_cases n <;> (obtain rfl := Option.some.inj h; decide)
  · split at h
    · rename_i hn
      obtain ⟨k, rfl⟩ : ∃ k, n = k * 20 := ⟨n / 20, by omega⟩
      have hk1 : 1 ≤ k := by omega
      have hk2 : k ≤ 20 := by omega
      interval_cases k <;> (obtain rfl := Option.some.inj h; decide)
    · exact absurd h (by simp)

/-! ### The text of a run (41_rle_compressor.md R169) -/

theorem encodeRun_none_iff (n : Nat) (c : Byte) : encodeRun n c = none ↔ n = 0 ∨ 400 < n := by
  simp only [encodeRun, Config.runMax, Config.runBase]
  by_cases h : n = 0 ∨ 400 < n
  · simp [h]
  · rw [if_neg h]
    simp only [h, iff_false]
    by_cases h20 : n ≤ 20
    · rw [if_pos h20]
      rcases Nat.lt_or_ge n 20 with hl | hl
      · rw [alpha_unit n (by omega) (by omega)]; simp
      · obtain rfl : n = 20 := by omega
        rw [show (20 : Nat) = 1 * 20 from rfl, alpha_twenties 1 (by omega) (by omega)]; simp
    · rw [if_neg h20, alpha_twenties (n / 20) (by omega) (by omega)]
      by_cases hr : n % 20 = 0
      · simp [hr]
      · rw [alpha_unit (n % 20) (by omega) (by omega)]; simp [hr]

theorem encodeRun_length (n : Nat) (c : Byte) (t : List Byte) (h : encodeRun n c = some t) : t.length ≤ 2 * n := by
  have hn : ¬(n = 0 ∨ 400 < n) := by
    intro hn
    rw [(encodeRun_none_iff n c).mpr hn] at h
    exact absurd h (by simp)
  simp only [encodeRun, Config.runMax, Config.runBase] at h
  rw [if_neg hn] at h
  split at h
  · obtain ⟨a, -, rfl⟩ := Option.map_eq_some_iff.mp h
    simp; omega
  · obtain ⟨a, -, h⟩ := Option.bind_eq_some_iff.mp h
    split at h
    · obtain rfl := Option.some.inj h; simp; omega
    · obtain ⟨u, -, rfl⟩ := Option.map_eq_some_iff.mp h; simp; omega

theorem encodeRun_alphabet (n : Nat) (c : Byte) (t : List Byte) (h : encodeRun n c = some t) (hc : isHexDigit c = true) :
    ∀ x ∈ t, inAlphabet true x = true := by
  have hd := inAlphabet_of_digit true c hc
  simp only [encodeRun] at h
  split at h
  · exact absurd h (by simp)
  · split at h
    · obtain ⟨a, ha, rfl⟩ := Option.map_eq_some_iff.mp h
      have := inAlphabet_of_letter a (alpha_isCountLetter _ _ ha)
      simp [this, hd]
    · obtain ⟨a, ha, h⟩ := Option.bind_eq_some_iff.mp h
      have hla := inAlphabet_of_letter a (alpha_isCountLetter _ _ ha)
      split at h
      · obtain rfl := Option.some.inj h; simp [hla, hd]
      · obtain ⟨u, hu, rfl⟩ := Option.map_eq_some_iff.mp h
        have hlu := inAlphabet_of_letter u (alpha_isCountLetter _ _ hu)
        simp [hla, hlu, hd]

/-! ### Packing (40_rasterizer.md R135) -/

theorem packBit_toNat (acc : BitVec 8) (nbits : BitVec 3) (b : Bool) (h : acc.toNat % 2 ^ (8 - nbits.toNat) = 0) :
    (packBit acc nbits b).toNat = acc.toNat + natOfBool b * 2 ^ (7 - nbits.toNat) := by
  have hn : nbits.toNat < 8 := nbits.isLt
  have hpow : 2 ^ (7 - nbits.toNat) ≤ 2 ^ 7 := Nat.pow_le_pow_right (by decide) (by omega)
  have hstep : 2 ^ (8 - nbits.toNat) = 2 * 2 ^ (7 - nbits.toNat) := by
    rw [show 8 - nbits.toNat = (7 - nbits.toNat) + 1 by omega, Nat.pow_succ]; ring
  have hb : natOfBool b ≤ 1 := by cases b <;> decide
  have hlt : natOfBool b * 2 ^ (7 - nbits.toNat) < 2 ^ (8 - nbits.toNat) := by
    rw [hstep]
    have hpos : 0 < 2 ^ (7 - nbits.toNat) := Nat.two_pow_pos _
    nlinarith
  have hsmall : natOfBool b * 2 ^ (7 - nbits.toNat) < 256 := by
    have : (2 : Nat) ^ (8 - nbits.toNat) ≤ 2 ^ 8 := Nat.pow_le_pow_right (by decide) (by omega)
    omega
  have hsh : (BitVec.ofNat 8 (natOfBool b) <<< (7 - nbits.toNat)).toNat = natOfBool b * 2 ^ (7 - nbits.toNat) := by
    rw [BitVec.toNat_shiftLeft, BitVec.toNat_ofNat, Nat.shiftLeft_eq]
    rw [Nat.mod_eq_of_lt (show natOfBool b < 2 ^ 8 by omega)]
    exact Nat.mod_eq_of_lt hsmall
  rw [packBit, BitVec.toNat_or, hsh]
  obtain ⟨q, hq⟩ := Nat.dvd_of_mod_eq_zero h
  rw [hq]
  exact (Nat.two_pow_add_eq_or_of_lt hlt q).symm

/-- The unfilled positions stay zero. -/
theorem packBit_unfilled (acc : BitVec 8) (nbits : BitVec 3) (b : Bool) (h : acc.toNat % 2 ^ (8 - nbits.toNat) = 0) :
    (packBit acc nbits b).toNat % 2 ^ (7 - nbits.toNat) = 0 := by
  rw [packBit_toNat acc nbits b h]
  have hn : nbits.toNat < 8 := nbits.isLt
  have hstep : 2 ^ (8 - nbits.toNat) = 2 ^ (7 - nbits.toNat) * 2 := by
    rw [show 8 - nbits.toNat = (7 - nbits.toNat) + 1 by omega, Nat.pow_succ]
  obtain ⟨q, hq⟩ := Nat.dvd_of_mod_eq_zero h
  apply Nat.mod_eq_zero_of_dvd
  rw [hq, hstep]
  exact Nat.dvd_add (Dvd.dvd.mul_right (Dvd.intro _ rfl) _) (Dvd.intro_left _ rfl)

/-! ### Sizes (30_encoding.md R97, R98) -/

theorem thresholdOfPercent_le (p : Nat) (h : p < 256) : (thresholdOfPercent p).toNat ≤ 1958 := by
  have h1 : p * 768 / 100 ≤ 1958 := by omega
  simp only [thresholdOfPercent, Config.thresholdScale, Config.percentDivisor, BitVec.toNat_ofNat]
  exact le_trans (Nat.mod_le _ _) h1

theorem bytesPerRow_toNat (w : BitVec 16) (h : w.toNat < 32768) : (bytesPerRow w).toNat = (w.toNat + 7) / 8 := by
  simp only [bytesPerRow, BitVec.toNat_ofNat]
  omega

theorem totalBytes_toNat (b : BitVec 13) (h : BitVec 16) : (totalBytes b h).toNat = b.toNat * h.toNat := by
  have hb := b.isLt
  have hh := h.isLt
  simp only [totalBytes, BitVec.toNat_ofNat]
  apply Nat.mod_eq_of_lt
  calc b.toNat * h.toNat < 2 ^ 13 * 2 ^ 16 := Nat.mul_lt_mul'' hb hh
    _ ≤ 2 ^ 32 := by decide

theorem negativeDim_false_iff (d : BitVec 16) : negativeDim d = false ↔ d.toNat < 32768 := by
  simp [negativeDim]

/-- A dimension below 32768 read as two's complement is itself. -/
theorem toInt_of_small (d : BitVec 16) (h : d.toNat < 32768) : d.toInt = d.toNat := by
  rw [BitVec.toInt_eq_toNat_cond]; split <;> omega

theorem toInt_pos_iff (d : BitVec 16) : 0 < d.toInt ↔ 0 < d.toNat ∧ d.toNat < 32768 := by
  have := d.isLt
  rw [BitVec.toInt_eq_toNat_cond]; split <;> omega

end Sys2Proof.Machine
end

