-- ==== Sys2Proof/Laws/Rle.lean ====
section
/-! SUPPORT. What RleStep can do (41_rle_compressor.md R162): it goes on, changing only the compressor's registers and OUT, or it
raises EncodingRangeError on the state it was given. -/

namespace Sys2Proof.Machine

/-- `t` differs from `s` at most in the compressor's registers and OUT. -/
def rleFrame (s t : State) : Prop :=
  t = { s with pend := t.pend, run := t.run, fresh := t.fresh, line := t.line, prev := t.prev, prevValid := t.prevValid,
               out := t.out }

theorem rleFrame_refl (s : State) : rleFrame s s := rfl

theorem rleFrame_trans {s t u : State} (h1 : rleFrame s t) (h2 : rleFrame t u) : rleFrame s u := by
  unfold rleFrame at *
  rw [h2, h1]

section Fields

variable {s t : State} (h : rleFrame s t)
include h

theorem rleFrame_phase : t.phase = s.phase := by rw [h]
theorem rleFrame_thresh : t.thresh = s.thresh := by rw [h]
theorem rleFrame_compEn : t.compEn = s.compEn := by rw [h]
theorem rleFrame_width : t.width = s.width := by rw [h]
theorem rleFrame_height : t.height = s.height := by rw [h]
theorem rleFrame_bpr : t.bpr = s.bpr := by rw [h]
theorem rleFrame_total : t.total = s.total := by rw [h]
theorem rleFrame_errCause : t.errCause = s.errCause := by rw [h]
theorem rleFrame_errInfo : t.errInfo = s.errInfo := by rw [h]
theorem rleFrame_acc : t.acc = s.acc := by rw [h]
theorem rleFrame_nbits : t.nbits = s.nbits := by rw [h]
theorem rleFrame_col : t.col = s.col := by rw [h]
theorem rleFrame_row : t.row = s.row := by rw [h]
theorem rleFrame_hasRle : t.hasRle = s.hasRle := by rw [h]
theorem rleFrame_grid : t.grid = s.grid := by rw [h]
theorem rleFrame_agenda : t.agenda = s.agenda := by rw [h]

end Fields

/-- FLUSH_LINE: what it appends (R168). -/
theorem flushLine_eq (s : State) :
    flushLine s = { s with out := s.out ++ (if s.prevValid = true ∧ s.line = s.prev then [chrRepeat] else s.line),
                           prev := s.line, prevValid := true } := by
  simp only [flushLine]
  split <;> simp [outAppend, outAppendAll_eq]

/-- CLOSE_RUN: the text it adds, or the raise (R167). -/
theorem closeRun_cases (s : State) :
    (∃ t, closeRun s = .cont { s with line := s.line ++ t } ∧
      ((t = [chrFill0] ∧ maxRowRuns s ≤ s.run.toNat ∧ s.pend = chrZero) ∨
       (t = [chrFill1] ∧ maxRowRuns s ≤ s.run.toNat ∧ s.pend = chrF) ∨ encodeRun s.run.toNat s.pend = some t)) ∨
    (closeRun s = .stop (errorEntry .encodingRange s.run s) ∧ encodeRun s.run.toNat s.pend = none) := by
  unfold closeRun
  split
  · rename_i h; exact .inl ⟨_, rfl, .inl ⟨rfl, h⟩⟩
  · split
    · rename_i h; exact .inl ⟨_, rfl, .inr (.inl ⟨rfl, h⟩)⟩
    · unfold appendRun
      cases he : encodeRun s.run.toNat s.pend with
      | some t => exact .inl ⟨t, rfl, .inr (.inr rfl)⟩
      | none => exact .inr ⟨rfl, rfl⟩

/-- RBOUND: it goes on with the run's text, or raises (R165). -/
theorem boundRun_cases (c : Byte) (s : State) :
    (∃ t, encodeRun s.run.toNat s.pend = some t ∧
      boundRun c s = .cont { s with line := s.line ++ t, run := 1#14, pend := c }) ∨
    (boundRun c s = .stop (errorEntry .encodingRange s.run s) ∧ encodeRun s.run.toNat s.pend = none) := by
  unfold boundRun appendRun
  cases he : encodeRun s.run.toNat s.pend with
  | some t => exact .inl ⟨t, rfl, rfl⟩
  | none => exact .inr ⟨rfl, rfl⟩

/-- RROWBRK: it goes on with the row flushed, or raises (R166). -/
theorem breakRow_cases (s : State) :
    (∃ t, breakRow s = .cont { s with out := s.out ++ (if s.prevValid = true ∧ s.line ++ t = s.prev then [chrRepeat] else s.line ++ t),
                                      prev := s.line ++ t, prevValid := true, line := [], run := 1#14, fresh := true } ∧
      ((t = [chrFill0] ∧ maxRowRuns s ≤ s.run.toNat ∧ s.pend = chrZero) ∨
       (t = [chrFill1] ∧ maxRowRuns s ≤ s.run.toNat ∧ s.pend = chrF) ∨ encodeRun s.run.toNat s.pend = some t)) ∨
    (breakRow s = .stop (errorEntry .encodingRange s.run s) ∧ encodeRun s.run.toNat s.pend = none) := by
  rcases closeRun_cases s with ⟨t, h, ht⟩ | ⟨h, hn⟩
  · exact .inl ⟨t, by simp [breakRow, h, flushLine_eq], ht⟩
  · exact .inr ⟨by simp [breakRow, h], hn⟩

/-- RleStep (R162): all it can do. -/
theorem rleStep_cases (c : Byte) (s : State) :
    (∃ t, rleStep c s = .cont t ∧ rleFrame s t) ∨
    (rleStep c s = .stop (errorEntry .encodingRange s.run s) ∧ s.fresh = false ∧ encodeRun s.run.toNat s.pend = none) := by
  unfold rleStep
  cases hf : s.fresh with
  | true => exact .inl ⟨_, rfl, rfl⟩
  | false =>
    simp only [Bool.false_eq_true, if_false]
    split
    · rcases breakRow_cases s with ⟨t, h, -⟩ | ⟨h, hn⟩
      · exact .inl ⟨_, h, rfl⟩
      · exact .inr ⟨h, trivial, hn⟩
    · split
      · exact .inl ⟨_, rfl, rfl⟩
      · rcases boundRun_cases c s with ⟨t, -, h⟩ | ⟨h, hn⟩
        · exact .inl ⟨_, h, rfl⟩
        · exact .inr ⟨h, trivial, hn⟩

/-- Nothing of a digit reaches OUT; what a row-break sends is appended (R165, R168). -/
theorem rleStep_out {c : Byte} {s t : State} (h : rleStep c s = .cont t) :
    (isrbCond c = false → t.out = s.out) ∧ ∃ more, t.out = s.out ++ more := by
  unfold rleStep at h
  split at h
  · obtain rfl := Flow.cont.inj h
    exact ⟨fun _ => rfl, [], by simp⟩
  · split at h
    · rename_i hrb
      rcases breakRow_cases s with ⟨x, h2, -⟩ | ⟨h2, -⟩
      · rw [h2] at h
        obtain rfl := Flow.cont.inj h
        exact ⟨fun h3 => (by simp [h3] at hrb), _, rfl⟩
      · rw [h2] at h; exact absurd h (by simp)
    · split at h
      · obtain rfl := Flow.cont.inj h
        exact ⟨fun _ => rfl, [], by simp⟩
      · rcases boundRun_cases c s with ⟨x, -, h2⟩ | ⟨h2, -⟩
        · rw [h2] at h
          obtain rfl := Flow.cont.inj h
          exact ⟨fun _ => rfl, [], by simp⟩
        · rw [h2] at h; exact absurd h (by simp)

/-! ### The compressor after `n` digits of a row (10_state.md R49, 41_rle_compressor.md R174) -/

/-- The compressor's registers when `n` digits of the present row have been handed to it. -/
structure RowInv (n : Nat) (s : State) : Prop where
  freshOfCount : s.fresh = true ↔ n = 0
  freshEmpty : s.fresh = true → s.run = 1#14 ∧ s.line = []
  pendIsDigit : s.fresh = false → isHexDigit s.pend = true
  runPositive : 1 ≤ s.run.toNat
  lineBound : s.fresh = false → s.line.length + 2 * s.run.toNat ≤ 2 * n
  prevBound : s.prevValid = true → s.prev.length ≤ 4 * s.bpr.toNat
  lineAlphabet : ∀ c ∈ s.line, inAlphabet true c = true
  outAlphabet : ∀ c ∈ s.out, inAlphabet true c = true

/-- A run that raises inside a row is above 400. -/
theorem RowInv.raise_above {n : Nat} {s : State} (h : RowInv n s) (hn : encodeRun s.run.toNat s.pend = none) :
    401 ≤ s.run.toNat := by
  have := (encodeRun_none_iff _ _).mp hn
  have := h.runPositive
  omega

/-- A digit inside a row keeps the invariant, and nothing reaches OUT. -/
theorem rleStep_digit {n : Nat} {s : State} (c : Byte) (h : RowInv n s) (hc : isHexDigit c = true) (hn : n < 8192) :
    (∃ t, rleStep c s = .cont t ∧ rleFrame s t ∧ RowInv (n + 1) t ∧ t.out = s.out) ∨
    (rleStep c s = .stop (errorEntry .encodingRange s.run s) ∧ s.fresh = false ∧ encodeRun s.run.toNat s.pend = none) := by
  have hrb := isHexDigit_ne_rb c hc
  unfold rleStep
  cases hf : s.fresh with
  | true =>
    obtain ⟨hr, hl⟩ := h.freshEmpty hf
    refine .inl ⟨_, rfl, rfl, ?_, rfl⟩
    constructor
    · simp
    · simp
    · simp [hc]
    · simp
    · simp [hl]
    · simpa using h.prevBound
    · simp [hl]
    · simpa using h.outAlphabet
  | false =>
    simp only [Bool.false_eq_true, if_false, hrb]
    have hb := h.lineBound hf
    have hp := h.runPositive
    split
    · have hrun : (s.run + 1#14).toNat = s.run.toNat + 1 := by
        rw [BitVec.toNat_add]; simp; omega
      refine .inl ⟨_, rfl, rfl, ?_, rfl⟩
      constructor
      · simp [hf]
      · simp [hf]
      · simpa using h.pendIsDigit
      · simp only [extendRun_run, hrun]; omega
      · simp only [extendRun_run, hrun, extendRun_line]; omega
      · simpa using h.prevBound
      · simpa using h.lineAlphabet
      · simpa using h.outAlphabet
    · rcases boundRun_cases c s with ⟨t, ht, h2⟩ | ⟨h2, h3⟩
      · have hlen := encodeRun_length _ _ _ ht
        refine .inl ⟨_, h2, rfl, ?_, rfl⟩
        constructor
        · simp [hf]
        · simp [hf]
        · simp [hc]
        · simp
        · simp; omega
        · simpa using h.prevBound
        · intro x hx
          rcases List.mem_append.mp hx with hx | hx
          · exact h.lineAlphabet x hx
          · exact encodeRun_alphabet _ _ _ ht (h.pendIsDigit hf) x hx
        · simpa using h.outAlphabet
      · exact .inr ⟨h2, trivial, h3⟩

/-- RleStep of a digit with the run's count followed: an equal digit extends the run, another closes it or raises (R164, R165). -/
theorem rleStep_digit_run {n : Nat} {s : State} (c : Byte) (h : RowInv n s) (hc : isHexDigit c = true) (hn : n < 8192) :
    (s.fresh = true ∧ ∃ t, rleStep c s = .cont t ∧ t.run.toNat = 1 ∧ t.pend = c) ∨
    (s.fresh = false ∧ c = s.pend ∧ ∃ t, rleStep c s = .cont t ∧ t.run.toNat = s.run.toNat + 1 ∧ t.pend = s.pend) ∨
    (s.fresh = false ∧ c ≠ s.pend ∧ ((∃ t, rleStep c s = .cont t ∧ t.run.toNat = 1 ∧ t.pend = c) ∨
      rleStep c s = .stop (errorEntry .encodingRange s.run s))) := by
  have hrb := isHexDigit_ne_rb c hc
  unfold rleStep
  cases hf : s.fresh with
  | true => exact .inl ⟨rfl, _, rfl, rfl, rfl⟩
  | false =>
    refine .inr ?_
    simp only [Bool.false_eq_true, if_false, hrb, sameCond, beq_iff_eq]
    have hb := h.lineBound hf
    by_cases hs : c = s.pend
    · refine .inl ⟨trivial, hs, _, if_pos hs, ?_, rfl⟩
      simp only [extendRun_run]
      rw [BitVec.toNat_add]; simp; omega
    · refine .inr ⟨trivial, hs, ?_⟩
      rw [if_neg hs]
      rcases boundRun_cases c s with ⟨t, -, h2⟩ | ⟨h2, -⟩
      · exact .inl ⟨_, h2, rfl, rfl⟩
      · exact .inr h2

/-- The row-break after `n` digits keeps the invariant. -/
theorem rleStep_rowBreak {n : Nat} {s : State} (h : RowInv n s) (h1 : 1 ≤ n) (h2 : n ≤ 2 * s.bpr.toNat) :
    (∃ t, rleStep Config.rbCode s = .cont t ∧ rleFrame s t ∧ RowInv 0 t) ∨
    (rleStep Config.rbCode s = .stop (errorEntry .encodingRange s.run s) ∧ s.fresh = false ∧
      encodeRun s.run.toNat s.pend = none) := by
  have hf : s.fresh = false := by
    cases hf : s.fresh with
    | false => rfl
    | true => have := h.freshOfCount.mp hf; omega
  have hb := h.lineBound hf
  have hp := h.runPositive
  simp only [rleStep, hf, isrb_rb, Bool.false_eq_true, if_false, if_true]
  rcases breakRow_cases s with ⟨t, h3, ht⟩ | ⟨h3, h4⟩
  · have hlen : (s.line ++ t).length ≤ 4 * s.bpr.toNat := by
      rw [List.length_append]
      rcases ht with ⟨rfl, -⟩ | ⟨rfl, -⟩ | ht
      · simp; omega
      · simp; omega
      · have := encodeRun_length _ _ _ ht; omega
    have halpha : ∀ x ∈ s.line ++ t, inAlphabet true x = true := by
      intro x hx
      rcases List.mem_append.mp hx with hx | hx
      · exact h.lineAlphabet x hx
      · rcases ht with ⟨rfl, -⟩ | ⟨rfl, -⟩ | ht
        · obtain rfl := List.mem_singleton.mp hx; decide
        · obtain rfl := List.mem_singleton.mp hx; decide
        · exact encodeRun_alphabet _ _ _ ht (h.pendIsDigit hf) x hx
    refine .inl ⟨_, h3, rfl, ?_⟩
    constructor
    · simp
    · simp
    · simp
    · simp
    · simp
    · intro _; exact hlen
    · simp
    · intro x hx
      rcases List.mem_append.mp hx with hx | hx
      · exact h.outAlphabet x hx
      · split at hx
        · obtain rfl := List.mem_singleton.mp hx; decide
        · exact halpha x hx
  · exact .inr ⟨h3, trivial, h4⟩

end Sys2Proof.Machine
end

