-- ==== Sys2Proof/Laws/Rast.lean ====
section
/-! SUPPORT. What the micro-operations of RAST and a PIX step can do (40_rasterizer.md R133 to R139), and that a PIX step keeps the
invariant of the scan (10_state.md R49). -/

namespace Sys2Proof.Machine

/-- A raise inside a step that began in `s`: the compressor's registers may have moved before it, OUT has not. -/
def raisedFrom (s : State) (f : Flow) : Prop :=
  ∃ t, f = .stop (errorEntry .encodingRange t.run t) ∧ rleFrame s t ∧ t.out = s.out ∧ encodeRun t.run.toNat t.pend = none

theorem compEnabled_of_frame {s t : State} (h : rleFrame s t) : compEnabled t = compEnabled s := by
  unfold compEnabled
  rw [rleFrame_hasRle h, rleFrame_compEn h]

/-! ### Emit (R139) -/

theorem emit_raw (c : Byte) (s : State) (h : compEnabled s = false) : emit c s = .cont (outAppend c s) := by
  simp [emit, h]

theorem emit_compressed (c : Byte) (s : State) (h : compEnabled s = true) : emit c s = rleStep c s := by
  simp [emit, h]

/-- Emit: all it can do. -/
theorem emit_cases (c : Byte) (s : State) :
    (∃ t, emit c s = .cont t ∧ rleFrame s t ∧ (∃ more, t.out = s.out ++ more) ∧
      (compEnabled s = true → isrbCond c = false → t.out = s.out)) ∨
    (compEnabled s = true ∧ raisedFrom s (emit c s)) := by
  unfold emit
  cases he : compEnabled s with
  | false => exact .inl ⟨_, rfl, rfl, ⟨[c], rfl⟩, by simp⟩
  | true =>
    rcases rleStep_cases c s with ⟨t, h, hf⟩ | ⟨h, -, hn⟩
    · exact .inl ⟨t, by simp [h], hf, (rleStep_out h).2, fun _ => (rleStep_out h).1⟩
    · exact .inr ⟨rfl, s, by simp [h], rfl, rfl, hn⟩

/-- A raise of Emit is the entry of EncodingRangeError with RUN, on the state it was given (R139, R171). -/
theorem emit_stop {c : Byte} {s t : State} (h : emit c s = .stop t) : t = errorEntry .encodingRange s.run s := by
  unfold emit at h
  split at h
  · rcases rleStep_cases c s with ⟨u, h2, -⟩ | ⟨h2, -⟩
    · rw [h2] at h; cases h
    · rw [h2] at h; exact (Flow.stop.inj h).symm
  · cases h

theorem raisedFrom_trans {s t : State} {f : Flow} (h : rleFrame s t) (ho : t.out = s.out) (hr : raisedFrom t f) :
    raisedFrom s f := by
  obtain ⟨u, h1, h2, h3, h4⟩ := hr
  exact ⟨u, h1, rleFrame_trans h h2, h3.trans ho, h4⟩

/-! ### EMITBYTE (R136) and ROWEND (R138) -/

/-- EMITBYTE: all it can do. -/
theorem emitByte_cases (s : State) :
    (∃ t, emitByte s = .cont { t with acc := 0#8, nbits := 0#3 } ∧ rleFrame s t ∧ (∃ more, t.out = s.out ++ more) ∧
      (compEnabled s = true → t.out = s.out)) ∨
    (compEnabled s = true ∧ raisedFrom s (emitByte s)) := by
  unfold emitByte
  rcases emit_cases (hexDigit (highNibble s.acc)) s with ⟨t, h, hf, ⟨m, hm⟩, ho⟩ | ⟨he, u, h, hf⟩
  · simp only [h, Flow.andThen_cont]
    have ht := compEnabled_of_frame hf
    rcases emit_cases (hexDigit (lowNibble s.acc)) t with ⟨v, h', hf', ⟨m', hm'⟩, ho'⟩ | ⟨he', u, h', hr⟩
    · refine .inl ⟨v, by simp [h'], rleFrame_trans hf hf', ⟨m ++ m', by rw [hm', hm, List.append_assoc]⟩, fun hc => ?_⟩
      rw [ho' (ht.trans hc) (hexDigit_ne_rb _), ho hc (hexDigit_ne_rb _)]
    · have hc := ht ▸ he'
      exact .inr ⟨hc, u, by simp [h'], rleFrame_trans hf hr.1, hr.2.1.trans (ho hc (hexDigit_ne_rb _)), hr.2.2⟩
  · exact .inr ⟨he, u, by simp [h], hf⟩

/-- ROWEND: all it can do. -/
theorem rowEnd_cases (lastrow : Bool) (s : State) :
    (∃ t, rowEnd lastrow s = .cont (if lastrow then { t with col := 0#16, phase := .done }
        else { t with col := 0#16, row := t.row + 1#16 }) ∧ rleFrame s t ∧ (∃ more, t.out = s.out ++ more) ∧
        emit Config.rbCode s = .cont t) ∨
    (compEnabled s = true ∧ raisedFrom s (rowEnd lastrow s)) := by
  unfold rowEnd
  rcases emit_cases Config.rbCode s with ⟨t, h, hf, hm, -⟩ | ⟨he, u, h, hf⟩
  · exact .inl ⟨t, by cases lastrow <;> simp [h, frameEnd], hf, hm, h⟩
  · exact .inr ⟨he, u, by simp [h], hf⟩

/-- EMITBYTE without compression: two digits reach OUT. -/
theorem emitByte_raw (s : State) (h : compEnabled s = false) :
    emitByte s = .cont { s with out := s.out ++ hexPair s.acc.toNat, acc := 0#8, nbits := 0#3 } := by
  have h2 : compEnabled (outAppend (hexDigit (highNibble s.acc)) s) = false := h
  simp only [emitByte, emit_raw _ _ h, Flow.andThen_cont, emit_raw _ _ h2]
  simp [outAppend, hexPair, highNibble, lowNibble]

/-- EMITBYTE with compression: two digits are handed to RLE. -/
theorem emitByte_compressed {n : Nat} (s : State) (h : compEnabled s = true) (hi : RowInv n s) (hn : n + 2 ≤ 8192) :
    (∃ t, emitByte s = .cont { t with acc := 0#8, nbits := 0#3 } ∧ rleFrame s t ∧ RowInv (n + 2) t ∧ t.out = s.out) ∨
    (∃ t, emitByte s = .stop (errorEntry .encodingRange t.run t) ∧ rleFrame s t ∧ 401 ≤ t.run.toNat ∧ t.out = s.out ∧
      t.run.toNat ≤ n + 1) := by
  unfold emitByte
  rw [emit_compressed _ _ h]
  rcases rleStep_digit (hexDigit (highNibble s.acc)) hi (hexDigit_isHexDigit _) (by omega) with
    ⟨t, h1, hf, hi', ho⟩ | ⟨h1, hf, hn'⟩
  · simp only [h1, Flow.andThen_cont]
    rw [emit_compressed _ _ ((compEnabled_of_frame hf).trans h)]
    rcases rleStep_digit (hexDigit (lowNibble s.acc)) hi' (hexDigit_isHexDigit _) (by omega) with
      ⟨u, h2, hf2, hi2, ho2⟩ | ⟨h2, hfr, hn2⟩
    · exact .inl ⟨u, by simp [h2], rleFrame_trans hf hf2, hi2, ho2.trans ho⟩
    · have := hi'.lineBound hfr
      exact .inr ⟨t, by simp [h2], hf, hi'.raise_above hn2, ho, by omega⟩
  · have := hi.lineBound hf
    exact .inr ⟨s, by simp [h1], rfl, hi.raise_above hn', rfl, by omega⟩

/-- How many digits of the byte in ACC extend the pending run: those before the first that differs from PEND. -/
def extending (s : State) : Nat := ((hexPair s.acc.toNat).takeWhile (· == s.pend)).length

/-- EMITBYTE with compression and the run's count followed: a run it leaves that is longer than the byte, and a run it raises with, is
the pending run extended by the byte's digits. -/
theorem emitByte_run {n : Nat} (s : State) (h : compEnabled s = true) (hi : RowInv n s) (hn : n + 2 ≤ 8192) :
    (∃ t, emitByte s = .cont t ∧ (2 < t.run.toNat → t.run.toNat = s.run.toNat + extending s)) ∨
    (∃ t, emitByte s = .stop (errorEntry .encodingRange t.run t) ∧ (2 < t.run.toNat → t.run.toNat = s.run.toNat + extending s)) := by
  have hx : extending s = (([hexDigit (highNibble s.acc), hexDigit (lowNibble s.acc)] : List Byte).takeWhile (· == s.pend)).length := by
    simp [extending, hexPair, highNibble, lowNibble]
  rw [hx]
  unfold emitByte
  rw [emit_compressed _ _ h]
  have hd := rleStep_digit_run (hexDigit (highNibble s.acc)) hi (hexDigit_isHexDigit _) (by omega)
  rcases rleStep_digit (hexDigit (highNibble s.acc)) hi (hexDigit_isHexDigit _) (by omega) with
    ⟨t, h1, hf, hi', -⟩ | ⟨h1, hfr, -⟩
  · simp only [h1, Flow.andThen_cont, Flow.cont.injEq, exists_eq_left'] at hd ⊢
    rw [emit_compressed _ _ ((compEnabled_of_frame hf).trans h)]
    rcases rleStep_digit_run (hexDigit (lowNibble s.acc)) hi' (hexDigit_isHexDigit _) (by omega) with
      ⟨f2, u, h2, r2, -⟩ | ⟨-, e2, u, h2, r2, -⟩ | ⟨-, e2, ⟨u, h2, r2, -⟩ | h2⟩
    · exact .inl ⟨_, by rw [h2]; rfl, by simp only [r2]; omega⟩
    · refine .inl ⟨_, by rw [h2]; rfl, ?_⟩
      simp only [r2]
      rcases hd with ⟨-, a, b⟩ | ⟨-, a, b, c⟩ | ⟨-, a, ⟨b, c⟩ | b⟩
      · omega
      · intro _; simp [a, e2, c, b]
      · omega
      · cases b
    · exact .inl ⟨_, by rw [h2]; rfl, by simp only [r2]; omega⟩
    · refine .inr ⟨t, by rw [h2]; rfl, ?_⟩
      rcases hd with ⟨-, a, b⟩ | ⟨-, a, b, c⟩ | ⟨-, a, ⟨b, c⟩ | b⟩
      · omega
      · intro _; rw [c] at e2; simp [a, b, e2]
      · omega
      · cases b
  · refine .inr ⟨s, by simp [h1], ?_⟩
    rcases hd with ⟨a, -⟩ | ⟨-, -, t, a, -⟩ | ⟨-, a, -⟩
    · simp [a] at hfr
    · rw [h1] at a; cases a
    · intro _; simp [a]

/-! ### A PIX step (R133) -/

/-- The state after CLASSIFY and PACK. -/
def packed (px : Pixel) (s : State) : State := packPixel (isBlack px s.thresh) (classifyPixel px s)

theorem pixStep_eq (px : Pixel) (s : State) :
    pixStep px s =
      (if fullCond s || lastcolCond s then emitByte (packed px s)
        else .cont { packed px s with nbits := s.nbits + 1#3 }).andThen
        fun u => if lastcolCond s then rowEnd (lastrowCond s) u else .cont { u with col := u.col + 1#16 } := rfl

/-- A PIX step: all it can do. It goes on with the scan advanced, or a raise ends it with nothing appended. -/
theorem pixStep_cases (px : Pixel) (s : State) :
    (∃ t, rleFrame (packed px s) t ∧ (∃ more, t.out = s.out ++ more) ∧ pixStep px s = .cont
      (if lastcolCond s then
        (if lastrowCond s then { t with acc := 0#8, nbits := 0#3, col := 0#16, phase := .done }
         else { t with acc := 0#8, nbits := 0#3, col := 0#16, row := s.row + 1#16 })
       else if fullCond s then { t with acc := 0#8, nbits := 0#3, col := s.col + 1#16 }
       else { t with nbits := s.nbits + 1#3, col := s.col + 1#16 })) ∨
    (compEnabled s = true ∧ (raisedFrom (packed px s) (pixStep px s) ∨
      raisedFrom { packed px s with acc := 0#8, nbits := 0#3 } (pixStep px s))) := by
  have hc : compEnabled (packed px s) = compEnabled s := rfl
  have hout : (packed px s).out = s.out := rfl
  rw [pixStep_eq]
  cases hl : lastcolCond s with
  | false =>
    simp only [Bool.or_false, Bool.false_eq_true, if_false]
    cases hfull : fullCond s with
    | false => exact .inl ⟨packed px s, rfl, ⟨[], by simp [hout]⟩, by simp [packed]⟩
    | true =>
      rcases emitByte_cases (packed px s) with ⟨t, h, hf, hm, -⟩ | ⟨he, u, h, hf⟩
      · refine .inl ⟨t, hf, hout ▸ hm, ?_⟩
        have hcol : t.col = (packed px s).col := rleFrame_col hf
        have hcol' : (packed px s).col = s.col := rfl
        simp [h, hcol, hcol']
      · exact .inr ⟨hc ▸ he, .inl ⟨u, by simp [h], hf⟩⟩
  | true =>
    simp only [Bool.or_true, if_true]
    rcases emitByte_cases (packed px s) with ⟨t, h, hf, ⟨m, hm⟩, ho⟩ | ⟨he, u, h, hf⟩
    · simp only [h, Flow.andThen_cont]
      have hf' : rleFrame { packed px s with acc := 0#8, nbits := 0#3 } { t with acc := 0#8, nbits := 0#3 } := by
        unfold rleFrame at *; rw [hf]
      rcases rowEnd_cases (lastrowCond s) { t with acc := 0#8, nbits := 0#3 } with ⟨v, h2, hf2, ⟨m2, hm2⟩, -⟩ | ⟨he, hr⟩
      · refine .inl ⟨{ v with acc := t.acc, nbits := t.nbits }, ?_, ⟨m ++ m2, ?_⟩, ?_⟩
        · unfold rleFrame at *; rw [hf2, hf]
        · simp only at hm2 ⊢
          rw [hm2, hm, hout, List.append_assoc]
        · have hrow : v.row = (packed px s).row := by
            have h1 : t.row = (packed px s).row := rleFrame_row hf
            have h2' : v.row = t.row := by have h3 := rleFrame_row hf2; exact h3
            rw [h2', h1]
          have hrow' : (packed px s).row = s.row := rfl
          have ha : v.acc = 0#8 := rleFrame_acc hf2
          have hnb : v.nbits = 0#3 := rleFrame_nbits hf2
          rw [h2]
          cases lastrowCond s <;> (obtain ⟨⟩ := v; simp_all)
      · have hcs : compEnabled (packed px s) = true := by rw [← compEnabled_of_frame hf]; exact he
        exact .inr ⟨hc ▸ hcs, .inr (raisedFrom_trans hf' (ho hcs) hr)⟩
    · exact .inr ⟨hc ▸ he, .inl ⟨u, by simp [h], hf⟩⟩

/-! ### The frame of a PIX step -/

/-- `t` has the configuration, the sizes, the instance, the pixel space and the model's agenda of `s`. -/
def pixFrame (s t : State) : Prop :=
  t.thresh = s.thresh ∧ t.compEn = s.compEn ∧ t.width = s.width ∧ t.height = s.height ∧ t.bpr = s.bpr ∧ t.total = s.total ∧
    t.hasRle = s.hasRle ∧ t.grid = s.grid ∧ t.rdata = s.rdata ∧ t.agenda = s.agenda

/-- How a PIX step ends: it goes on in the same phase, or ends the frame at the last pixel, or enters the error with OUT as it was. -/
theorem pixStep_ends (px : Pixel) (s : State) :
    pixFrame s (pixStep px s).state ∧
    (((pixStep px s).state.phase = s.phase ∧ (pixStep px s).state.errCause = s.errCause ∧
        (pixStep px s).state.errInfo = s.errInfo ∧ (∃ more, (pixStep px s).state.out = s.out ++ more) ∧
        (lastcolCond s && lastrowCond s) = false) ∨
      ((pixStep px s).state.phase = .done ∧ (pixStep px s).state.errCause = s.errCause ∧
        (pixStep px s).state.errInfo = s.errInfo ∧ (∃ more, (pixStep px s).state.out = s.out ++ more) ∧
        (lastcolCond s && lastrowCond s) = true) ∨
      ((pixStep px s).state.phase = .err ∧ (pixStep px s).state.errCause = .encodingRange ∧ compEnabled s = true ∧
        (pixStep px s).state.out = s.out)) := by
  have raised : ∀ s' : State, pixFrame s s' → s'.out = s.out → raisedFrom s' (pixStep px s) → compEnabled s = true →
      pixFrame s (pixStep px s).state ∧ (pixStep px s).state.phase = .err ∧
        (pixStep px s).state.errCause = .encodingRange ∧ compEnabled s = true ∧ (pixStep px s).state.out = s.out := by
    rintro s' h1 h2 ⟨u, h3, h4, h5, -⟩ h6
    rw [h3]
    refine ⟨?_, rfl, rfl, h6, h5.trans h2⟩
    obtain ⟨a, b, c, d, e, f, g, h, i, j⟩ := h1
    unfold rleFrame at h4
    rw [h4]
    exact ⟨a, b, c, d, e, f, g, h, i, j⟩
  rcases pixStep_cases px s with ⟨t, hf, hm, h⟩ | ⟨he, h⟩
  · have hfr : ∀ u : State, pixFrame (packed px s) u → pixFrame s u := fun _ h => h
    have ht : pixFrame (packed px s) t := by unfold rleFrame at hf; rw [hf]; exact ⟨rfl, rfl, rfl, rfl, rfl, rfl, rfl, rfl, rfl, rfl⟩
    have hp : t.phase = s.phase := (rleFrame_phase hf : t.phase = (packed px s).phase)
    have hc : t.errCause = s.errCause := (rleFrame_errCause hf : t.errCause = (packed px s).errCause)
    have hi : t.errInfo = s.errInfo := (rleFrame_errInfo hf : t.errInfo = (packed px s).errInfo)
    rw [h]
    cases lastcolCond s <;> cases lastrowCond s <;> cases fullCond s <;>
      first
      | exact ⟨hfr _ ht, .inl ⟨hp, hc, hi, hm, rfl⟩⟩
      | exact ⟨hfr _ ht, .inr (.inl ⟨rfl, hc, hi, hm, rfl⟩)⟩
  · have hs : pixFrame s (packed px s) := ⟨rfl, rfl, rfl, rfl, rfl, rfl, rfl, rfl, rfl, rfl⟩
    rcases h with h | h
    · obtain ⟨h1, h2⟩ := raised _ hs rfl h he
      exact ⟨h1, .inr (.inr h2)⟩
    · obtain ⟨h1, h2⟩ := raised { packed px s with acc := 0#8, nbits := 0#3 } hs rfl h he
      exact ⟨h1, .inr (.inr h2)⟩

end Sys2Proof.Machine
end

