-- ==== Sys2Proof/Laws/Text.lean ====
section
/-! SUPPORT. Runs, their texts, and the text of rows built from left to right: how the functions of Machine/Reference.lean
(41_rle_compressor.md R175) grow by one digit and by one row. -/

namespace Sys2Proof.Machine

/-! ### Maximal runs -/

/-- One more digit before a list of runs. -/
def pushFront (e : Byte) : List (Nat × Byte) → List (Nat × Byte)
  | [] => [(1, e)]
  | (n, d) :: rs => if e = d then (n + 1, d) :: rs else (1, e) :: (n, d) :: rs

/-- One more digit after a list of runs. -/
def pushBack : List (Nat × Byte) → Byte → List (Nat × Byte)
  | [], c => [(1, c)]
  | [(n, d)], c => if c = d then [(n + 1, d)] else [(n, d), (1, c)]
  | r :: q :: rs, c => r :: pushBack (q :: rs) c

theorem runsOf_cons (d : Byte) (ds : List Byte) : runsOf (d :: ds) = pushFront d (runsOf ds) := by
  cases h : runsOf ds with
  | nil => simp [runsOf, pushFront, h]
  | cons r rs => simp [runsOf, pushFront, h]

theorem pushFront_pushBack (e c : Byte) (rs : List (Nat × Byte)) :
    pushFront e (pushBack rs c) = pushBack (pushFront e rs) c := by
  match rs with
  | [] => by_cases h : e = c <;> simp [pushFront, pushBack, h, eq_comm]
  | [(n, d)] =>
    by_cases h1 : c = d <;> by_cases h2 : e = d <;> simp [pushFront, pushBack, h1, h2]
  | (n, d) :: q :: rs =>
    by_cases h : e = d <;> simp [pushFront, pushBack, h]

theorem runsOf_snoc (ds : List Byte) (c : Byte) : runsOf (ds ++ [c]) = pushBack (runsOf ds) c := by
  induction ds with
  | nil => rfl
  | cons d ds ih => rw [List.cons_append, runsOf_cons, runsOf_cons, ih, pushFront_pushBack]

theorem pushBack_concat (init : List (Nat × Byte)) (n : Nat) (d c : Byte) :
    pushBack (init ++ [(n, d)]) c = if c = d then init ++ [(n + 1, d)] else init ++ [(n, d), (1, c)] := by
  induction init with
  | nil => rfl
  | cons r init ih =>
    cases init with
    | nil => simp only [List.cons_append, List.nil_append, pushBack]; split <;> rfl
    | cons q init =>
      simp only [List.cons_append, pushBack] at ih ⊢
      rw [ih]; split <;> rfl

theorem runsOf_eq_nil {ds : List Byte} (h : runsOf ds = []) : ds = [] := by
  cases ds with
  | nil => rfl
  | cons d ds =>
    rw [runsOf_cons] at h
    unfold pushFront at h
    split at h
    · exact absurd h (by simp)
    · split at h <;> exact absurd h (by simp)

/-- A closed run before digits that go on differently stays as it is. -/
theorem runsOf_append_of_boundary (ds : List Byte) (init : List (Nat × Byte)) (n : Nat) (d c : Byte) (more : List Byte)
    (h : runsOf ds = init ++ [(n, d)]) (hc : c ≠ d) :
    ∃ r rs, runsOf (ds ++ c :: more) = init ++ (n, d) :: r :: rs := by
  induction more using List.reverseRecOn with
  | nil => exact ⟨(1, c), [], by rw [runsOf_snoc, h, pushBack_concat, if_neg hc]⟩
  | append_singleton more x ih =>
    obtain ⟨r, rs, ih⟩ := ih
    rw [← List.cons_append, ← List.append_assoc, runsOf_snoc, ih]
    rcases List.eq_nil_or_concat rs with rfl | ⟨rs', ⟨k, g⟩, rfl⟩
    · obtain ⟨k, g⟩ := r
      rw [show init ++ [(n, d), (k, g)] = (init ++ [(n, d)]) ++ [(k, g)] by simp, pushBack_concat]
      split
      · exact ⟨(k + 1, g), [], by simp⟩
      · exact ⟨(k, g), [(1, x)], by simp⟩
    · rw [List.concat_eq_append]
      rw [show init ++ (n, d) :: r :: (rs' ++ [(k, g)]) = (init ++ (n, d) :: r :: rs') ++ [(k, g)] by simp, pushBack_concat]
      split
      · exact ⟨r, rs' ++ [(k + 1, g)], by simp⟩
      · exact ⟨r, rs' ++ [(k, g), (1, x)], by simp⟩

/-- The counts of the runs are positive and sum to the length. -/
theorem runsOf_counts (ds : List Byte) :
    ((runsOf ds).map Prod.fst).sum = ds.length ∧ ∀ r ∈ runsOf ds, 1 ≤ r.1 := by
  induction ds with
  | nil => simp [runsOf]
  | cons d ds ih =>
    rw [runsOf_cons]
    cases h : runsOf ds with
    | nil => obtain rfl := runsOf_eq_nil h; simp [pushFront]
    | cons r rs =>
      obtain ⟨n, e⟩ := r
      rw [h] at ih
      simp only [List.map_cons, List.sum_cons, List.mem_cons, forall_eq_or_imp] at ih
      obtain ⟨h1, h2, h3⟩ := ih
      simp only [pushFront]
      split
      · refine ⟨by simp; omega, ?_⟩
        simp only [List.mem_cons, forall_eq_or_imp]
        exact ⟨by omega, h3⟩
      · refine ⟨by simp; omega, ?_⟩
        simp only [List.mem_cons, forall_eq_or_imp]
        exact ⟨le_refl 1, h2, h3⟩

/-! ### Texts of runs and rows -/

theorem encodeRuns_append (a b : List (Nat × Byte)) (t : List Byte) (h : encodeRuns a = .ok t) :
    encodeRuns (a ++ b) = match encodeRuns b with
      | .ok u => .ok (t ++ u)
      | .error m => .error m := by
  induction a generalizing t with
  | nil =>
    obtain rfl := Except.ok.inj h
    simp only [List.nil_append]
    cases encodeRuns b <;> rfl
  | cons r a ih =>
    obtain ⟨n, d⟩ := r
    simp only [List.cons_append, encodeRuns] at h ⊢
    cases he : encodeRun n d with
    | none => rw [he] at h; simp at h
    | some x =>
      rw [he] at h
      simp only at h ⊢
      cases ha : encodeRuns a with
      | error m => rw [ha] at h; simp at h
      | ok y =>
        rw [ha] at h
        obtain rfl := Except.ok.inj h
        rw [ih y ha]
        cases encodeRuns b <;> simp

/-- The text of a row of two runs or more. -/
theorem rowText_of_runs (ds : List Byte) (h : 2 ≤ (runsOf ds).length) : rowText ds = encodeRuns (runsOf ds) := by
  unfold rowText
  split
  · rename_i h2; rw [h2] at h; simp at h
  · rfl

/-- A run that raises inside a row raises for the row, whatever follows. -/
theorem rowText_raises (ds : List Byte) (init : List (Nat × Byte)) (n : Nat) (d c : Byte) (more t : List Byte)
    (h : runsOf ds = init ++ [(n, d)]) (ht : encodeRuns init = .ok t) (hc : c ≠ d) (hn : encodeRun n d = none) :
    rowText (ds ++ c :: more) = .error n := by
  obtain ⟨r, rs, h2⟩ := runsOf_append_of_boundary ds init n d c more h hc
  rw [rowText_of_runs _ (by rw [h2]; simp; omega), h2, encodeRuns_append init _ t ht]
  simp [encodeRuns, hn]

/-! ### The text of the rows -/

/-- The text of the last of the rows, which the next row is compared with. -/
def lastText (prev : Option (List Byte)) (rows : List (List Byte)) : Option (List Byte) :=
  match rows.getLast? with
  | none => prev
  | some r => (rowText r).toOption

/-- Rows that do not raise, then more. -/
theorem compressRows_append (prev : Option (List Byte)) (rows more : List (List Byte)) (o : List Byte)
    (h : compressRows prev rows = (o, none)) :
    compressRows prev (rows ++ more) =
      (o ++ (compressRows (lastText prev rows) more).1, (compressRows (lastText prev rows) more).2) := by
  induction rows generalizing prev o with
  | nil =>
    obtain ⟨rfl, -⟩ := Prod.mk.inj h
    simp [lastText]
  | cons r rows ih =>
    simp only [List.cons_append, compressRows] at h ⊢
    cases hr : rowText r with
    | error n => rw [hr] at h; simp at h
    | ok t =>
      rw [hr] at h
      simp only [Prod.mk.injEq] at h ⊢
      obtain ⟨h1, h2⟩ := h
      have hl : lastText prev (r :: rows) = lastText (some t) rows := by
        cases rows with
        | nil => simp [lastText, hr, Except.toOption]
        | cons q rows =>
          obtain ⟨z, hz⟩ : ∃ z, (q :: rows).getLast? = some z := ⟨_, List.getLast?_eq_some_getLast (by simp)⟩
          simp [lastText, List.getLast?_cons_cons, hz]
      rw [ih (some t) _ (Prod.ext rfl h2), hl, ← h1]
      simp

/-- One row more, which does not raise. -/
theorem compressRows_snoc_ok (prev : Option (List Byte)) (rows : List (List Byte)) (r o t : List Byte)
    (h : compressRows prev rows = (o, none)) (ht : rowText r = .ok t) :
    compressRows prev (rows ++ [r]) = (o ++ (if lastText prev rows = some t then [chrRepeat] else t), none) := by
  rw [compressRows_append prev rows [r] o h]
  simp [compressRows, ht]

/-- A row that raises ends the body. -/
theorem compressRows_snoc_error (prev : Option (List Byte)) (rows more : List (List Byte)) (r o : List Byte) (n : Nat)
    (h : compressRows prev rows = (o, none)) (hr : rowText r = .error n) :
    compressRows prev (rows ++ r :: more) = (o, some n) := by
  rw [compressRows_append prev rows (r :: more) o h]
  simp [compressRows, hr]

end Sys2Proof.Machine
end

