-- ==== Sys2Proof/Laws/Emission.lean ====
section
/-! SUPPORT. The characters handed to Emit against the text they are to give: HexBody without compression, CompressedBody with it
(40_rasterizer.md R139, R143; 41_rle_compressor.md R162, R175). -/

namespace Sys2Proof.Machine

/-- A last run as long as the row is the row. -/
theorem runsOf_whole {ds : List Byte} {init : List (Nat × Byte)} {n : Nat} {d : Byte} (h : runsOf ds = init ++ [(n, d)])
    (hn : ds.length ≤ n) : init = [] := by
  have hc := runsOf_counts ds
  rw [h] at hc
  obtain ⟨h1, h2⟩ := hc
  cases init with
  | nil => rfl
  | cons r init =>
    have h3 := h2 r (by simp)
    simp at h1
    omega

/-- The text of a row whose last run is no whole-row run of '0' or 'F'. -/
theorem rowText_normal {ds : List Byte} {init : List (Nat × Byte)} {n : Nat} {d : Byte} {l : List Byte}
    (h : runsOf ds = init ++ [(n, d)]) (hl : encodeRuns init = .ok l)
    (hno : ¬(ds.length ≤ n ∧ (d = chrZero ∨ d = chrF))) :
    rowText ds = match encodeRun n d with
      | none => .error n
      | some t => .ok (l ++ t) := by
  have key : encodeRuns (init ++ [(n, d)]) = match encodeRun n d with
      | none => .error n
      | some t => .ok (l ++ t) := by
    rw [encodeRuns_append init _ l hl]
    simp only [encodeRuns]
    cases encodeRun n d <;> simp
  cases init with
  | nil =>
    have hlen := (runsOf_counts ds).1
    rw [h] at hlen
    have hn : ds.length ≤ n := by simp at hlen; omega
    have h0 : d ≠ chrZero := fun hd => hno ⟨hn, .inl hd⟩
    have hF : d ≠ chrF := fun hd => hno ⟨hn, .inr hd⟩
    have h2 : runsOf ds = [(n, d)] := h
    rw [rowText, h2]
    simp only [h0, hF, if_false]
    exact key
  | cons r init =>
    rw [rowText_of_runs ds (by rw [h]; simp), h]
    exact key

/-- The text of a row of '0' only, or of 'F' only. -/
theorem rowText_fill {ds : List Byte} {init : List (Nat × Byte)} {n : Nat} {d : Byte} {l : List Byte}
    (h : runsOf ds = init ++ [(n, d)]) (hl : encodeRuns init = .ok l) (hn : ds.length ≤ n) :
    l = [] ∧ (d = chrZero → rowText ds = .ok [chrFill0]) ∧ (d = chrF → rowText ds = .ok [chrFill1]) := by
  obtain rfl := runsOf_whole h hn
  have h2 : runsOf ds = [(n, d)] := h
  refine ⟨(Except.ok.inj hl).symm, ?_, ?_⟩
  · rintro rfl; rw [rowText, h2]; rfl
  · rintro rfl; rw [rowText, h2]; rfl

/-! ### The compressor against the text of the rows -/

/-- The compressor after the digits `ds` of the present row: nothing, or the texts of the closed runs in LINE and the open run in
(RUN, PEND). -/
def RowSoFar (ds : List Byte) (s : State) : Prop :=
  (ds = [] ∧ s.fresh = true ∧ s.line = [] ∧ s.run = 1#14) ∨
  (s.fresh = false ∧ ∃ init, runsOf ds = init ++ [(s.run.toNat, s.pend)] ∧ encodeRuns init = .ok s.line)

/-- The compressor after whole rows: OUT is their text, PREV that of the last one. -/
def RowsDone (rows : List (List Byte)) (s : State) : Prop :=
  compressRows none rows = (s.out, none) ∧ lastText none rows = if s.prevValid then some s.prev else none

/-- What RAST's characters have come to: `rows` whole rows and then the digits `ds`. -/
def EmitAt (rows : List (List Byte)) (ds : List Byte) (s : State) : Prop :=
  if compEnabled s then RowSoFar ds s ∧ RowsDone rows s else s.out = hexBody rows ++ ds

/-- The fields EmitAt reads. -/
theorem EmitAt.of_eq {rows : List (List Byte)} {ds : List Byte} {s t : State} (h : EmitAt rows ds s)
    (h1 : compEnabled t = compEnabled s) (h2 : t.fresh = s.fresh) (h3 : t.line = s.line) (h4 : t.run = s.run)
    (h5 : t.pend = s.pend) (h6 : t.out = s.out) (h7 : t.prev = s.prev) (h8 : t.prevValid = s.prevValid) : EmitAt rows ds t := by
  unfold EmitAt RowSoFar RowsDone at *
  rw [h1, h2, h3, h4, h5, h6, h7, h8]
  exact h

/-- An open run that has no encoding is above 400. -/
theorem run_above {ds : List Byte} {init : List (Nat × Byte)} {n : Nat} {d : Byte} (h : runsOf ds = init ++ [(n, d)])
    (hn : encodeRun n d = none) : 400 < n := by
  have h2 := (runsOf_counts ds).2 (n, d) (by rw [h]; simp)
  rcases (encodeRun_none_iff n d).mp hn with h3 | h3
  · simp only at h2; omega
  · exact h3

/-- A digit handed to Emit. -/
theorem emit_digit {rows : List (List Byte)} {ds : List Byte} {s : State} {c : Byte} (h : EmitAt rows ds s)
    (hc : isHexDigit c = true) (hlen : ds.length < 8192) :
    (∃ t, emit c s = .cont t ∧ rleFrame s t ∧ EmitAt rows (ds ++ [c]) t) ∨
    (compEnabled s = true ∧ emit c s = .stop (errorEntry .encodingRange s.run s) ∧ 400 < s.run.toNat ∧
      RowsDone rows s ∧ ∀ more, rowText (ds ++ c :: more) = .error s.run.toNat) := by
  unfold EmitAt at h
  cases he : compEnabled s with
  | false =>
    rw [he] at h
    have h2 : s.out = hexBody rows ++ ds := by simpa using h
    refine .inl ⟨_, emit_raw c s he, rfl, ?_⟩
    have he2 : compEnabled (outAppend c s) = false := he
    unfold EmitAt
    rw [he2]
    simp [outAppend, h2]
  | true =>
    rw [he] at h
    obtain ⟨hr, hd⟩ : RowSoFar ds s ∧ RowsDone rows s := by simpa using h
    rw [emit_compressed c s he]
    have hrb := isHexDigit_ne_rb c hc
    have done : ∀ t : State, compEnabled t = compEnabled s → RowSoFar (ds ++ [c]) t → RowsDone rows t → EmitAt rows (ds ++ [c]) t := by
      intro t h1 h2 h3
      unfold EmitAt
      rw [h1, he]
      exact ⟨h2, h3⟩
    unfold rleStep
    cases hf : s.fresh with
    | true =>
      rcases hr with ⟨rfl, -, hl, -⟩ | ⟨h, -⟩
      · refine .inl ⟨_, rfl, rfl, done _ rfl (.inr ⟨rfl, [], rfl, ?_⟩) hd⟩
        simp [hl, encodeRuns]
      · rw [hf] at h; exact absurd h (by decide)
    | false =>
      simp only [Bool.false_eq_true, if_false, hrb]
      rcases hr with ⟨-, h, -⟩ | ⟨-, init, hruns, htext⟩
      · rw [hf] at h; exact absurd h (by decide)
      · by_cases hs : sameCond s c = true
        · have hcp : c = s.pend := by simpa [sameCond] using hs
          have hle : s.run.toNat ≤ ds.length := by
            have := (runsOf_counts ds).1
            rw [hruns] at this
            simp at this; omega
          have hrun : (s.run + 1#14).toNat = s.run.toNat + 1 := by
            rw [BitVec.toNat_add]; simp; omega
          simp only [hs, if_true]
          refine .inl ⟨_, rfl, rfl, done _ rfl (.inr ⟨hf, init, ?_, htext⟩) hd⟩
          rw [runsOf_snoc, hruns, pushBack_concat, if_pos hcp]
          simp [extendRun, hrun]
        · have hcp : c ≠ s.pend := by simpa [sameCond] using hs
          simp only [Bool.eq_false_of_not_eq_true hs, Bool.false_eq_true, if_false]
          rcases boundRun_cases c s with ⟨t, ht, h2⟩ | ⟨h2, hn⟩
          · refine .inl ⟨_, h2, rfl, done _ rfl (.inr ⟨hf, init ++ [(s.run.toNat, s.pend)], ?_, ?_⟩) hd⟩
            · rw [runsOf_snoc, hruns, pushBack_concat, if_neg hcp]
              simp
            · rw [encodeRuns_append init _ _ htext]
              simp [encodeRuns, ht]
          · exact .inr ⟨trivial, h2, run_above hruns hn, hd, fun more => rowText_raises ds init _ _ c more _ hruns htext hcp hn⟩

/-- The row-break handed to Emit after a whole row of digits. -/
theorem emit_rowBreak {rows : List (List Byte)} {ds : List Byte} {s : State} (h : EmitAt rows ds s)
    (hlen : ds.length = 2 * s.bpr.toNat) (hpos : ds ≠ []) :
    (∃ t, emit Config.rbCode s = .cont t ∧ rleFrame s t ∧ EmitAt (rows ++ [ds]) [] t) ∨
    (compEnabled s = true ∧ emit Config.rbCode s = .stop (errorEntry .encodingRange s.run s) ∧
      400 < s.run.toNat ∧ RowsDone rows s ∧ rowText ds = .error s.run.toNat) := by
  unfold EmitAt at h
  cases he : compEnabled s with
  | false =>
    rw [he] at h
    have h2 : s.out = hexBody rows ++ ds := by simpa using h
    refine .inl ⟨_, emit_raw _ s he, rfl, ?_⟩
    have he2 : compEnabled (outAppend Config.rbCode s) = false := he
    unfold EmitAt
    rw [he2]
    simp [outAppend, h2, hexBody]
  | true =>
    rw [he] at h
    obtain ⟨hr, hrows⟩ : RowSoFar ds s ∧ RowsDone rows s := by simpa using h
    rw [emit_compressed _ s he]
    rcases hr with ⟨rfl, -⟩ | ⟨hf, init, hruns, htext⟩
    · exact absurd rfl hpos
    · simp only [rleStep, hf, isrb_rb, Bool.false_eq_true, if_false, if_true]
      -- the row goes on with the text `t` that CLOSE_RUN adds
      have goesOn : ∀ t, closeRun s = .cont { s with line := s.line ++ t } → rowText ds = .ok (s.line ++ t) →
          ∃ u, breakRow s = .cont u ∧ rleFrame s u ∧ EmitAt (rows ++ [ds]) [] u := by
        intro t h1 h2
        have hb : breakRow s = .cont { s with
            out := s.out ++ (if s.prevValid = true ∧ s.line ++ t = s.prev then [chrRepeat] else s.line ++ t),
            prev := s.line ++ t, prevValid := true, line := [], run := 1#14, fresh := true } := by
          rw [breakRow, h1]; simp only [Flow.andThen_cont, flushLine_eq]
        refine ⟨_, hb, rfl, ?_⟩
        have he2 : ∀ o p l r, compEnabled { s with out := o, prev := p, prevValid := true, line := l, run := r, fresh := true } = true :=
          fun _ _ _ _ => he
        unfold EmitAt
        rw [he2, if_pos rfl]
        refine ⟨.inl ⟨rfl, rfl, rfl, rfl⟩, ?_, ?_⟩
        · rw [compressRows_snoc_ok none rows ds s.out _ hrows.1 h2, hrows.2]
          cases hv : s.prevValid <;> simp [eq_comm]
        · simp [lastText, h2, Except.toOption]
      by_cases hfill : maxRowRuns s ≤ s.run.toNat ∧ (s.pend = chrZero ∨ s.pend = chrF)
      · obtain ⟨h1, h2⟩ := hfill
        have h3 : ds.length ≤ s.run.toNat := by rw [hlen]; exact h1
        obtain ⟨h4, h5, h6⟩ := rowText_fill hruns htext h3
        rcases h2 with h2 | h2
        · exact .inl (goesOn [chrFill0] (by simp [closeRun, h1, h2]) (by rw [h4]; exact h5 h2))
        · refine .inl (goesOn [chrFill1] ?_ (by rw [h4]; exact h6 h2))
          have : chrF ≠ chrZero := by decide
          simp [closeRun, h1, h2, this]
      · have h1 : ¬(maxRowRuns s ≤ s.run.toNat ∧ s.pend = chrZero) := fun h => hfill ⟨h.1, .inl h.2⟩
        have h2 : ¬(maxRowRuns s ≤ s.run.toNat ∧ s.pend = chrF) := fun h => hfill ⟨h.1, .inr h.2⟩
        have h3 := rowText_normal hruns htext (by rw [hlen]; exact hfill)
        cases hn : encodeRun s.run.toNat s.pend with
        | some t =>
          rw [hn] at h3
          exact .inl (goesOn t (by simp [closeRun, h1, h2, appendRun, hn]) h3)
        | none =>
          rw [hn] at h3
          exact .inr ⟨trivial, by simp [breakRow, closeRun, h1, h2, appendRun, hn, raiseError], run_above hruns hn, hrows, h3⟩

/-- EMITBYTE: both digits taken, or a raise that is the row's, whatever follows. -/
theorem emitByte_at {rows : List (List Byte)} {ds : List Byte} {s : State} (h : EmitAt rows ds s) (hlen : ds.length + 1 < 8192) :
    (∃ t, emitByte s = .cont { t with acc := 0#8, nbits := 0#3 } ∧ rleFrame s t ∧ EmitAt rows (ds ++ hexPair s.acc.toNat) t) ∨
    (compEnabled s = true ∧ ∃ v, emitByte s = .stop (errorEntry .encodingRange v.run v) ∧ rleFrame s v ∧ 400 < v.run.toNat ∧
      RowsDone rows v ∧ ∀ more, rowText (ds ++ hexPair s.acc.toNat ++ more) = .error v.run.toNat) := by
  have hpair : hexPair s.acc.toNat = [hexDigit (highNibble s.acc), hexDigit (lowNibble s.acc)] := rfl
  rw [hpair]
  unfold emitByte
  rcases emit_digit h (hexDigit_isHexDigit (highNibble s.acc)) (by omega) with ⟨t, h1, hf, ht⟩ | ⟨he, h1, h400, hd, hr⟩
  · simp only [h1, Flow.andThen_cont]
    rcases emit_digit ht (hexDigit_isHexDigit (lowNibble s.acc)) (by simp; omega) with ⟨u, h2, hf2, hu⟩ | ⟨he, h2, h400, hd, hr⟩
    · exact .inl ⟨u, by simp [h2], rleFrame_trans hf hf2, by simpa using hu⟩
    · refine .inr ⟨(compEnabled_of_frame hf) ▸ he, t, by simp [h2], hf, h400, hd, fun more => ?_⟩
      have := hr more
      simpa using this
  · refine .inr ⟨he, s, by simp [h1], rfl, h400, hd, fun more => ?_⟩
    have := hr (hexDigit (lowNibble s.acc) :: more)
    simpa using this

end Sys2Proof.Machine
end

