-- ==== Sys2Proof/Laws/PerInstr.lean ====
section
/-! SUPPORT. The family RoundTrip (LAWS.json): decoding the word of a well-formed operation gives it back, one lemma per constructor. -/

namespace Sys2Proof.Laws.RoundTrip

/-- The decoder reads back the encoder's word of `i`, with every operand. -/
def Statement (i : Instr) : Prop := wellFormed i = true → decodeWord (spaceOf i) (encode i) = .ok i

/-! ### Shapes -/

theorem ctrl (i : Instr) (hi : BitVec 30) (cmd : Nat) (hc : cmd < 4) (hs : spaceOf i = .hreg)
    (he : encodeBits i = hregBits true 0x00 (hi.toNat * 4 + cmd))
    (h : (if cmd = 0 then Instr.wrCtrlNop hi else if cmd = 1 then .wrCtrlStart hi else if cmd = 2 then .wrCtrlClear hi
      else .wrCtrlRsvd hi) = i) : Statement i := by
  intro _
  have hlt : hi.toNat * 4 + cmd < 2 ^ 32 := by have := hi.isLt; omega
  rw [decodeWord_write i 0 _ hs he (by decide) (by decide) hlt, if_pos (by decide), decodeNamedWrite_ctrl hi cmd hc, h]

theorem write (i : Instr) (off : Nat) (v : Data) (hs : spaceOf i = .hreg) (he : encodeBits i = hregBits true off v.toNat)
    (ho : off < 0x28) (ha : off % 4 = 0) (h : decodeNamedWrite off v = i) : Statement i := by
  intro _
  rw [decodeWord_write i off v.toNat hs he (by omega) ha v.isLt, if_pos ho, BitVec.ofNat_toNat, BitVec.setWidth_eq, h]

theorem read (i : Instr) (off : Nat) (hs : spaceOf i = .hreg) (he : encodeBits i = hregBits false off 0)
    (ho : off < 0x28) (ha : off % 4 = 0) (h : decodeNamedRead off = i) : Statement i := by
  intro _
  rw [decodeWord_read i off hs he (by omega) ha, if_pos ho, h]

theorem reserved (i : Instr) (wr : Bool) (off : BitVec 8) (v : Data) (hs : spaceOf i = .hreg)
    (he : encodeBits i = hregBits wr off.toNat v.toNat) (hw : readHasNoData wr v = true) (ha : alignedOff off = true)
    (ho : 0x28 ≤ off.toNat) (h : decodeReserved wr off.toNat v = i) : decodeWord (spaceOf i) (encode i) = .ok i := by
  have hal : off.toNat % 4 = 0 := by simpa [alignedOff] using ha
  have hlt : off.toNat < 256 := off.isLt
  cases wr with
  | true =>
    rw [decodeWord_write i off.toNat v.toNat hs he hlt hal v.isLt, if_neg (by omega), BitVec.ofNat_toNat, BitVec.setWidth_eq, h]
  | false =>
    obtain rfl : v = 0#32 := by simpa [readHasNoData] using hw
    rw [decodeWord_read i off.toNat hs he hlt hal, if_neg (by omega), h]

theorem uopR (i : Instr) (row : RastRow) (a b c : Bool) (x : Nat) (hs : spaceOf i = .uopR row)
    (he : encodeBits i = condBits a b c + x * 65536) (hx : x < 2 ^ 24)
    (h : decodeUopR row (condBits a b c + x * 65536) = .ok i) : Statement i := by
  intro _
  have hlt : encodeBits i < 2 ^ 48 := by have := condBits_lt a b c; omega
  simp only [hs, decodeWord, encode_toNat i hlt]
  rw [he, h]

theorem uopC (i : Instr) (a b c : Bool) (x : Nat) (hs : spaceOf i = .uopC)
    (he : encodeBits i = condBits a b c + x * 65536) (hx : x < 16)
    (h : decodeUopC (condBits a b c + x * 65536) = .ok i) : Statement i := by
  intro _
  have hlt : encodeBits i < 2 ^ 48 := by have := condBits_lt a b c; omega
  simp only [hs, decodeWord, encode_toNat i hlt]
  rw [he, h]

theorem digitField (a b c : Bool) (d : BitVec 4) :
    fieldOf (condBits a b c + d.toNat * 65536) 16 4 = d.toNat ∧ (condBits a b c + d.toNat * 65536) < 1048576 := by
  have h1 := condBits_lt a b c
  have h2 := d.isLt
  simp only [fieldOf, Nat.reducePow]
  omega

/-! ### One lemma per constructor -/

theorem wrCtrlNop (hi : BitVec 30) : Statement (.wrCtrlNop hi) := ctrl _ hi 0 (by decide) rfl rfl rfl
theorem wrCtrlStart (hi : BitVec 30) : Statement (.wrCtrlStart hi) := ctrl _ hi 1 (by decide) rfl rfl rfl
theorem wrCtrlClear (hi : BitVec 30) : Statement (.wrCtrlClear hi) := ctrl _ hi 2 (by decide) rfl rfl rfl
theorem wrCtrlRsvd (hi : BitVec 30) : Statement (.wrCtrlRsvd hi) := ctrl _ hi 3 (by decide) rfl rfl rfl
theorem rdCtrl : Statement .rdCtrl := read _ 0x00 rfl rfl (by decide) (by decide) rfl
theorem rdStatus : Statement .rdStatus := read _ 0x04 rfl rfl (by decide) (by decide) rfl
theorem wrStatus (v : Data) : Statement (.wrStatus v) := write _ 0x04 v rfl rfl (by decide) (by decide) rfl
theorem wrPct (v : Data) : Statement (.wrPct v) := write _ 0x08 v rfl rfl (by decide) (by decide) rfl
theorem rdPct : Statement .rdPct := read _ 0x08 rfl rfl (by decide) (by decide) rfl
theorem rdThresh : Statement .rdThresh := read _ 0x0C rfl rfl (by decide) (by decide) rfl
theorem wrThresh (v : Data) : Statement (.wrThresh v) := write _ 0x0C v rfl rfl (by decide) (by decide) rfl
theorem wrCompEn (v : Data) : Statement (.wrCompEn v) := write _ 0x10 v rfl rfl (by decide) (by decide) rfl
theorem rdCompEn : Statement .rdCompEn := read _ 0x10 rfl rfl (by decide) (by decide) rfl
theorem wrWidth (v : Data) : Statement (.wrWidth v) := write _ 0x14 v rfl rfl (by decide) (by decide) rfl
theorem rdWidth : Statement .rdWidth := read _ 0x14 rfl rfl (by decide) (by decide) rfl
theorem wrHeight (v : Data) : Statement (.wrHeight v) := write _ 0x18 v rfl rfl (by decide) (by decide) rfl
theorem rdHeight : Statement .rdHeight := read _ 0x18 rfl rfl (by decide) (by decide) rfl
theorem rdBpr : Statement .rdBpr := read _ 0x1C rfl rfl (by decide) (by decide) rfl
theorem wrBpr (v : Data) : Statement (.wrBpr v) := write _ 0x1C v rfl rfl (by decide) (by decide) rfl
theorem rdTotal : Statement .rdTotal := read _ 0x20 rfl rfl (by decide) (by decide) rfl
theorem wrTotal (v : Data) : Statement (.wrTotal v) := write _ 0x20 v rfl rfl (by decide) (by decide) rfl
theorem rdErrInfo : Statement .rdErrInfo := read _ 0x24 rfl rfl (by decide) (by decide) rfl
theorem wrErrInfo (v : Data) : Statement (.wrErrInfo v) := write _ 0x24 v rfl rfl (by decide) (by decide) rfl
theorem rsvd28 (wr : Bool) (off : BitVec 8) (v : Data) : Statement (.rsvd28 wr off v) := by
  intro h
  simp only [wellFormed, inRsvd28, Bool.and_eq_true, beq_iff_eq] at h
  obtain ⟨⟨ha, ho⟩, hw⟩ := h
  refine reserved _ wr off v rfl rfl hw ha (by omega) ?_
  rw [decodeReserved, if_pos (by omega)]
  simp
theorem rsvd30 (wr : Bool) (off : BitVec 8) (v : Data) : Statement (.rsvd30 wr off v) := by
  intro h
  simp only [wellFormed, inRsvd30, Bool.and_eq_true, beq_iff_eq] at h
  obtain ⟨⟨ha, ho⟩, hw⟩ := h
  refine reserved _ wr off v rfl rfl hw ha (by omega) ?_
  rw [decodeReserved, if_neg (by omega), if_pos (by omega)]
  simp
theorem rsvd40 (wr : Bool) (off : BitVec 8) (v : Data) : Statement (.rsvd40 wr off v) := by
  intro h
  simp only [wellFormed, inRsvd40, Bool.and_eq_true, beq_iff_eq] at h
  obtain ⟨⟨ha, ho⟩, hw⟩ := h
  refine reserved _ wr off v rfl rfl hw ha (by omega) ?_
  rw [decodeReserved, if_neg (by omega), if_neg (by omega), if_pos (by omega)]
  simp
theorem rsvd80 (wr : Bool) (off : BitVec 8) (v : Data) : Statement (.rsvd80 wr off v) := by
  intro h
  simp only [wellFormed, inRsvd80, Bool.and_eq_true, beq_iff_eq] at h
  obtain ⟨⟨ha, ho⟩, hw⟩ := h
  refine reserved _ wr off v rfl rfl hw ha (by omega) ?_
  rw [decodeReserved, if_neg (by omega), if_neg (by omega), if_neg (by omega)]
  simp
theorem holdIdle : Statement .holdIdle := by intro _; decide
theorem pix : Statement .pix := by intro _; decide
theorem holdDone : Statement .holdDone := by intro _; decide
theorem holdErr : Statement .holdErr := by intro _; decide
theorem classify (k : RastCond) (px : Pixel) : Statement (.classify k px) := by
  refine uopR _ .classify k.full k.lastcol k.lastrow (pixelBits px) rfl rfl (pixelBits_lt px) ?_
  obtain ⟨h2, h1, h0, hz⟩ := cond_fields k.full k.lastcol k.lastrow (pixelBits px)
  have hp := pixelBits_lt px
  have hc := condBits_lt k.full k.lastcol k.lastrow
  have hf : fieldOf (condBits k.full k.lastcol k.lastrow + pixelBits px * 65536) 16 24 = pixelBits px := by
    simp only [fieldOf, Nat.reducePow]; omega
  have hq : (condBits k.full k.lastcol k.lastrow + pixelBits px * 65536) < 1099511627776 := by omega
  simp [decodeUopR, rastCondOf, h2, h1, h0, hz, hf, hq, pixelOf_pixelBits]
theorem pack (k : RastCond) (bit : Bool) : Statement (.pack k bit) := by
  refine uopR _ .pack k.full k.lastcol k.lastrow (natOfBool bit) rfl rfl (by cases bit <;> decide) ?_
  obtain ⟨h2, h1, h0, hz⟩ := cond_fields k.full k.lastcol k.lastrow (natOfBool bit)
  have hb : natOfBool bit < 2 := by cases bit <;> decide
  have hc := condBits_lt k.full k.lastcol k.lastrow
  have hf : bitOf (condBits k.full k.lastcol k.lastrow + natOfBool bit * 65536) 16 = bit := by
    cases bit <;> simp only [natOfBool, bitOf, beq_iff_eq, beq_eq_false_iff_ne, ne_eq, if_true, Bool.false_eq_true,
      if_false] <;> omega
  have hq : (condBits k.full k.lastcol k.lastrow + natOfBool bit * 65536) < 131072 := by omega
  simp [decodeUopR, rastCondOf, h2, h1, h0, hz, hf, hq]
theorem emitbyteFull (b c : Bool) : Statement (.emitbyteFull b c) := by
  intro _; cases b <;> cases c <;> decide
theorem emitbyteLastcol (a c : Bool) : Statement (.emitbyteLastcol a c) := by
  intro _; cases a <;> cases c <;> decide
theorem rowend (a c : Bool) : Statement (.rowend a c) := by
  intro _; cases a <;> cases c <;> decide
theorem frameend (a : Bool) : Statement (.frameend a) := by
  intro _; cases a <;> decide
theorem rseed (same : Bool) (c : RasterChar) : Statement (.rseed same c) := by
  cases c with
  | digit d =>
    refine uopC _ true false same d.toNat rfl rfl d.isLt ?_
    obtain ⟨h2, h1, h0, hz⟩ := cond_fields true false same d.toNat
    obtain ⟨hf, hq⟩ := digitField true false same d
    simp [decodeUopC, h2, h1, h0, hz, hf, hq]
  | rowBreak => intro _; cases same <;> decide
theorem rrowbrk (same : Bool) : Statement (.rrowbrk same) := by
  intro _; cases same <;> decide
theorem rsame : Statement .rsame := by intro _; decide
theorem rbound (d : BitVec 4) : Statement (.rbound d) := by
  refine uopC _ false false false d.toNat rfl rfl d.isLt ?_
  obtain ⟨h2, h1, h0, hz⟩ := cond_fields false false false d.toNat
  obtain ⟨hf, hq⟩ := digitField false false false d
  simp [decodeUopC, h2, h1, h0, hz, hf, hq]
theorem hex0 : Statement .hex0 := by intro _; decide
theorem hex1 : Statement .hex1 := by intro _; decide
theorem hex2 : Statement .hex2 := by intro _; decide
theorem hex3 : Statement .hex3 := by intro _; decide
theorem hex4 : Statement .hex4 := by intro _; decide
theorem hex5 : Statement .hex5 := by intro _; decide
theorem hex6 : Statement .hex6 := by intro _; decide
theorem hex7 : Statement .hex7 := by intro _; decide
theorem hex8 : Statement .hex8 := by intro _; decide
theorem hex9 : Statement .hex9 := by intro _; decide
theorem hexA : Statement .hexA := by intro _; decide
theorem hexB : Statement .hexB := by intro _; decide
theorem hexC : Statement .hexC := by intro _; decide
theorem hexD : Statement .hexD := by intro _; decide
theorem hexE : Statement .hexE := by intro _; decide
theorem hexF : Statement .hexF := by intro _; decide
theorem cntG : Statement .cntG := by intro _; decide
theorem cntH : Statement .cntH := by intro _; decide
theorem cntI : Statement .cntI := by intro _; decide
theorem cntJ : Statement .cntJ := by intro _; decide
theorem cntK : Statement .cntK := by intro _; decide
theorem cntL : Statement .cntL := by intro _; decide
theorem cntM : Statement .cntM := by intro _; decide
theorem cntN : Statement .cntN := by intro _; decide
theorem cntO : Statement .cntO := by intro _; decide
theorem cntP : Statement .cntP := by intro _; decide
theorem cntQ : Statement .cntQ := by intro _; decide
theorem cntR : Statement .cntR := by intro _; decide
theorem cntS : Statement .cntS := by intro _; decide
theorem cntT : Statement .cntT := by intro _; decide
theorem cntU : Statement .cntU := by intro _; decide
theorem cntV : Statement .cntV := by intro _; decide
theorem cntW : Statement .cntW := by intro _; decide
theorem cntX : Statement .cntX := by intro _; decide
theorem cntY : Statement .cntY := by intro _; decide
theorem cnt20g : Statement .cnt20g := by intro _; decide
theorem cnt20h : Statement .cnt20h := by intro _; decide
theorem cnt20i : Statement .cnt20i := by intro _; decide
theorem cnt20j : Statement .cnt20j := by intro _; decide
theorem cnt20k : Statement .cnt20k := by intro _; decide
theorem cnt20l : Statement .cnt20l := by intro _; decide
theorem cnt20m : Statement .cnt20m := by intro _; decide
theorem cnt20n : Statement .cnt20n := by intro _; decide
theorem cnt20o : Statement .cnt20o := by intro _; decide
theorem cnt20p : Statement .cnt20p := by intro _; decide
theorem cnt20q : Statement .cnt20q := by intro _; decide
theorem cnt20r : Statement .cnt20r := by intro _; decide
theorem cnt20s : Statement .cnt20s := by intro _; decide
theorem cnt20t : Statement .cnt20t := by intro _; decide
theorem cnt20u : Statement .cnt20u := by intro _; decide
theorem cnt20v : Statement .cnt20v := by intro _; decide
theorem cnt20w : Statement .cnt20w := by intro _; decide
theorem cnt20x : Statement .cnt20x := by intro _; decide
theorem cnt20y : Statement .cnt20y := by intro _; decide
theorem cnt20z : Statement .cnt20z := by intro _; decide
theorem fill0 : Statement .fill0 := by intro _; decide
theorem fill1 : Statement .fill1 := by intro _; decide
theorem rowRepeat : Statement .rowRepeat := by intro _; decide
theorem rb : Statement .rb := by intro _; decide

end Sys2Proof.Laws.RoundTrip
end

