-- ==== Sys2Proof/Laws/Step.lean ====
section
/-! SUPPORT. What START, a register access, a core move and a step can do, said once: the lemmas that later proofs cite. -/

namespace Sys2Proof.Machine

/-! ### START (40_rasterizer.md R132) -/

/-- The state START builds before its first test: the error record and OUT cleared. -/
def startCleared (s : State) : State := { s with errCause := .noError, errInfo := 0#14, out := [] }

/-- The state with the frame's sizes. -/
def startSized (s : State) : State :=
  { startCleared s with bpr := bytesPerRow s.width, total := totalBytes (bytesPerRow s.width) s.height }

theorem startFrame_negative (s : State) (h : negativeDim s.width = true ∨ negativeDim s.height = true) :
    startFrame s = .stop (errorEntry .invalidDimension 0#14 (startCleared s)) := by
  have h2 : (negativeDim s.width || negativeDim s.height) = true := by simpa using h
  simp only [startFrame, h2, if_true]; rfl

theorem startFrame_empty (s : State) (h1 : negativeDim s.width = false) (h2 : negativeDim s.height = false)
    (h3 : s.width = 0#16 ∨ s.height = 0#16) : startFrame s = .cont { startSized s with phase := .done } := by
  simp only [startFrame, h1, h2, h3, Bool.or_false, Bool.false_eq_true, if_false, if_true]; rfl

theorem startFrame_scan (s : State) (h1 : negativeDim s.width = false) (h2 : negativeDim s.height = false)
    (h3 : s.width ≠ 0#16) (h4 : s.height ≠ 0#16) : startFrame s = .cont (beginScan (startSized s)) := by
  have h5 : ¬(s.width = 0#16 ∨ s.height = 0#16) := by simp [h3, h4]
  simp only [startFrame, h1, h2, h5, Bool.or_false, Bool.false_eq_true, if_false]; rfl

/-- START: one of its three outcomes. -/
theorem startFrame_cases (s : State) :
    ((negativeDim s.width = true ∨ negativeDim s.height = true) ∧
      startFrame s = .stop (errorEntry .invalidDimension 0#14 (startCleared s))) ∨
    (negativeDim s.width = false ∧ negativeDim s.height = false ∧ (s.width = 0#16 ∨ s.height = 0#16) ∧
      startFrame s = .cont { startSized s with phase := .done }) ∨
    (negativeDim s.width = false ∧ negativeDim s.height = false ∧ s.width ≠ 0#16 ∧ s.height ≠ 0#16 ∧
      startFrame s = .cont (beginScan (startSized s))) := by
  cases h1 : negativeDim s.width with
  | true => exact .inl ⟨.inl rfl, startFrame_negative s (.inl h1)⟩
  | false =>
    cases h2 : negativeDim s.height with
    | true => exact .inl ⟨.inr rfl, startFrame_negative s (.inr h2)⟩
    | false =>
      by_cases h3 : s.width = 0#16
      · exact .inr (.inl ⟨rfl, rfl, .inl h3, startFrame_empty s h1 h2 (.inl h3)⟩)
      · by_cases h4 : s.height = 0#16
        · exact .inr (.inl ⟨rfl, rfl, .inr h4, startFrame_empty s h1 h2 (.inr h4)⟩)
        · exact .inr (.inr ⟨rfl, rfl, h3, h4, startFrame_scan s h1 h2 h3 h4⟩)

theorem negativeDim_iff_toInt (d : BitVec 16) : negativeDim d = true ↔ d.toInt < 0 := by
  have := d.isLt
  simp only [negativeDim, decide_eq_true_eq]
  rw [BitVec.toInt_eq_toNat_cond]; split <;> omega

theorem negativeDim_false_iff_toInt (d : BitVec 16) : negativeDim d = false ↔ 0 ≤ d.toInt := by
  have h := negativeDim_iff_toInt d
  cases hd : negativeDim d with
  | true => simp only [hd, true_iff] at h; simp; omega
  | false => simp only [hd, Bool.false_eq_true, false_iff] at h; simp; omega

theorem negativeDim_eq_bit (d : BitVec 16) : negativeDim d = d.getLsbD 15 := by
  have h := d.isLt
  simp only [negativeDim, BitVec.getLsbD, Nat.testBit_eq_decide_div_mod_eq]
  apply decide_eq_decide.mpr
  omega

theorem ne_zero_iff_toNat (d : BitVec 16) : d ≠ 0#16 ↔ 0 < d.toNat := by
  constructor
  · intro h
    rcases Nat.eq_zero_or_pos d.toNat with h0 | h0
    · exact absurd (BitVec.eq_of_toNat_eq h0) h
    · exact h0
  · rintro h rfl
    exact absurd h (by decide)

/-! ### Register accesses (42_host_register_ops.md) -/

/-- A register access: all it can do. -/
theorem execHreg_cases (i : Instr) (s : State) (hs : spaceOf i = .hreg) :
    (∃ r, exec i s = .next { s with rdata := r }) ∨
    (∃ v, i = .wrPct v ∧ s.phase ≠ .busy ∧ exec i s = .next { s with thresh := thresholdOfPercent (percentOf v) }) ∨
    (∃ v, i = .wrCompEn v ∧ s.phase ≠ .busy ∧ s.hasRle = true ∧ exec i s = .next { s with compEn := enableOf v }) ∨
    (∃ v, i = .wrWidth v ∧ s.phase ≠ .busy ∧ exec i s = .next { s with width := dimensionOf v }) ∨
    (∃ v, i = .wrHeight v ∧ s.phase ≠ .busy ∧ exec i s = .next { s with height := dimensionOf v }) ∨
    (∃ hi, i = .wrCtrlClear hi ∧ (s.phase = .done ∨ s.phase = .err) ∧ exec i s = .next (clearFrame s)) ∨
    (∃ hi, i = .wrCtrlStart hi ∧ s.phase = .idle ∧ exec i s = .next (startFrame s).state) := by
  cases i
  case wrCtrlStart hi =>
    simp only [exec, execWrCtrlStart]
    split
    · rename_i h; exact .inr (.inr (.inr (.inr (.inr (.inr ⟨hi, rfl, h, rfl⟩)))))
    · exact .inl ⟨s.rdata, rfl⟩
  case wrCtrlClear hi =>
    simp only [exec, execWrCtrlClear]
    split
    · rename_i h; exact .inr (.inr (.inr (.inr (.inr (.inl ⟨hi, rfl, h, rfl⟩)))))
    · exact .inl ⟨s.rdata, rfl⟩
  case wrPct v =>
    simp only [exec, execWrPct]
    split
    · rename_i h; exact .inr (.inl ⟨v, rfl, by simpa [configWritable] using h, rfl⟩)
    · exact .inl ⟨s.rdata, rfl⟩
  case wrCompEn v =>
    simp only [exec, execWrCompEn]
    split
    · rename_i h
      have h2 : s.phase ≠ .busy ∧ s.hasRle = true := by simpa [configWritable] using h
      exact .inr (.inr (.inl ⟨v, rfl, h2.1, h2.2, rfl⟩))
    · exact .inl ⟨s.rdata, rfl⟩
  case wrWidth v =>
    simp only [exec, execWrWidth]
    split
    · rename_i h; exact .inr (.inr (.inr (.inl ⟨v, rfl, by simpa [configWritable] using h, rfl⟩)))
    · exact .inl ⟨s.rdata, rfl⟩
  case wrHeight v =>
    simp only [exec, execWrHeight]
    split
    · rename_i h; exact .inr (.inr (.inr (.inr (.inl ⟨v, rfl, by simpa [configWritable] using h, rfl⟩))))
    · exact .inl ⟨s.rdata, rfl⟩
  case rsvd28 wr off v => cases wr <;> exact .inl ⟨_, rfl⟩
  case rsvd30 wr off v => cases wr <;> exact .inl ⟨_, rfl⟩
  case rsvd40 wr off v => cases wr <;> exact .inl ⟨_, rfl⟩
  case rsvd80 wr off v => cases wr <;> exact .inl ⟨_, rfl⟩
  all_goals first
    | exact .inl ⟨_, rfl⟩
    | exact absurd hs seq_ne_hreg
    | exact absurd hs uopR_ne_hreg
    | exact absurd hs uopC_ne_hreg
    | exact absurd hs sym8_ne_hreg

/-- A read is answered and changes nothing else. -/
theorem exec_read (w : Word) (i : Instr) (s : State) (hd : decodeWord .hreg w = .ok i) (hr : bitOf w.toNat 10 = false) :
    ∃ r, exec i s = .next { s with rdata := r } := by
  simp only [decodeWord, decodeHreg, hr, Bool.false_eq_true, if_false] at hd
  split_ifs at hd <;> obtain rfl := Except.ok.inj hd
  · unfold decodeNamedRead
    split_ifs <;> exact ⟨_, rfl⟩
  · unfold decodeReserved
    split_ifs <;> exact ⟨_, rfl⟩

/-- While BUSY a register access is answered and changes nothing else. -/
theorem exec_hreg_busy (i : Instr) (s : State) (hs : spaceOf i = .hreg) (hb : s.phase = .busy) :
    ∃ r, exec i s = .next { s with rdata := r } := by
  rcases execHreg_cases i s hs with h | ⟨_, _, h, _⟩ | ⟨_, _, h, _⟩ | ⟨_, _, h, _⟩ | ⟨_, _, h, _⟩ | ⟨_, _, h, _⟩ | ⟨_, _, h, _⟩
  · exact h
  all_goals simp [hb] at h

/-! ### The core's move -/

/-- The core's move in each phase. -/
theorem performCore_eq (s : State) :
    perform .core s = if s.phase = .busy then pixCore s else .next s := by
  cases h : s.phase with
  | idle =>
    have : decodeWord .seq (phaseWord .idle) = .ok .holdIdle := by decide
    simp [perform, runWord, h, this, exec, execHoldIdle]
  | busy =>
    have : decodeWord .seq (phaseWord .busy) = .ok .pix := by decide
    simp [perform, runWord, h, this, exec, execPix]
  | done =>
    have : decodeWord .seq (phaseWord .done) = .ok .holdDone := by decide
    simp [perform, runWord, h, this, exec, execHoldDone]
  | err =>
    have : decodeWord .seq (phaseWord .err) = .ok .holdErr := by decide
    simp [perform, runWord, h, this, exec, execHoldErr]

/-- What PIX can answer: a step on a sample, or the wait for one. -/
theorem pixCore_cases (s : State) :
    (pixelAddressValid s = true ∧ ∃ px, pixRead s.grid s.col.toNat s.row.toNat = some px ∧
      pixCore s = .next (pixStep px s).state) ∨
    (pixelAddressValid s = true ∧ pixRead s.grid s.col.toNat s.row.toNat = none ∧ pixCore s = .next s) ∨
    (pixelAddressValid s = false ∧
      pixCore s = .next (pixStep (sampleOutside s.freeCtr) { s with freeCtr := s.freeCtr + 1 }).state) := by
  cases hv : pixelAddressValid s with
  | true =>
    cases hp : pixRead s.grid s.col.toNat s.row.toNat with
    | some px => exact .inl ⟨rfl, px, rfl, by simp [pixCore, hv, hp, Flow.outcome]⟩
    | none => exact .inr (.inl ⟨rfl, rfl, by simp [pixCore, hv, hp]⟩)
  | false => exact .inr (.inr ⟨rfl, by simp [pixCore, hv, Flow.outcome]⟩)

/-- The core's move: all it can do. `u'` is the state, but for the count of free values read. -/
theorem performCore_cases {u t : State} (h : perform .core u = .next t) :
    (u.phase ≠ .busy ∧ t = u) ∨
    (u.phase = .busy ∧ pixRead u.grid u.col.toNat u.row.toNat = none ∧ t = u) ∨
    (u.phase = .busy ∧ ∃ px n, t = (pixStep px { u with freeCtr := n }).state ∧
      (pixelAddressValid u = true → n = u.freeCtr ∧ pixRead u.grid u.col.toNat u.row.toNat = some px)) := by
  rw [performCore_eq] at h
  split at h
  · rename_i hb
    rcases pixCore_cases u with ⟨hv, px, hp, h2⟩ | ⟨-, hp, h2⟩ | ⟨hv, h2⟩
    · rw [h2] at h
      exact .inr (.inr ⟨hb, px, u.freeCtr, (Host.Outcome.next.inj h).symm, fun _ => ⟨rfl, hp⟩⟩)
    · rw [h2] at h
      exact .inr (.inl ⟨hb, hp, (Host.Outcome.next.inj h).symm⟩)
    · rw [h2] at h
      exact .inr (.inr ⟨hb, _, _, (Host.Outcome.next.inj h).symm, fun h3 => by simp [hv] at h3⟩)
  · rename_i hb
    exact .inl ⟨hb, (Host.Outcome.next.inj h).symm⟩

/-- PIX on a served pixel of the frame. -/
theorem execPix_served {s : State} {px : Pixel} (hb : s.phase = .busy) (hc : s.col.toNat < s.width.toNat)
    (hr : s.row.toNat < s.height.toNat) (hp : pixRead s.grid s.col.toNat s.row.toNat = some px) :
    exec .pix s = .next (pixStep px s).state := by
  simp [exec, execPix, hb, pixCore, pixelAddressValid, hc, hr, hp, Flow.outcome]

/-! ### The agenda -/

@[simp] theorem nextMove_nil (s : State) (h : s.agenda = []) : nextMove s = (.core, s) := by simp [nextMove, h]

@[simp] theorem nextMove_cons (s : State) (e : Event) (rest : List Event) :
    nextMove { s with agenda := e :: rest } = (e, { s with agenda := rest }) := rfl

theorem step_cons (s : State) (e : Event) (rest : List Event) :
    step { s with agenda := e :: rest } = perform e { s with agenda := rest } := rfl

theorem step_nil (s : State) (h : s.agenda = []) : step s = perform .core s := by
  simp [step, nextMove, h]

/-- The state the head move is performed in differs from `s` at most in the agenda. -/
theorem nextMove_state (s : State) : (nextMove s).2 = { s with agenda := (nextMove s).2.agenda } := by
  simp only [nextMove]
  split <;> rfl

theorem nextMove_agenda (s : State) : (nextMove s).2.agenda = s.agenda.tail := by
  simp only [nextMove]
  split <;> rename_i h <;> simp [h]

/-- A step of the hardware: which move it is. -/
theorem step_hardware_cases {s t : State} (hw : (headMove s).isHardware = true) (h : step s = .next t) :
    (∃ i, spaceOf i = .hreg ∧ (headMove s).accesses i ∧ exec i (nextMove s).2 = .next t) ∨
    (headMove s = .core ∧ perform .core (nextMove s).2 = .next t) ∨
    (headMove s = .reset ∧ t = resetEvent (nextMove s).2) ∨
    (∃ cells, headMove s = .supply cells ∧ s.phase ≠ .busy ∧ t = { (nextMove s).2 with grid := gridOfCells cells }) := by
  unfold headMove at *
  unfold step at h
  cases he : (nextMove s).1 with
  | op sp w =>
    rw [he] at hw h
    cases sp with
    | hreg =>
      simp only [perform, runWord] at h
      cases hd : decodeWord .hreg w with
      | error e => simp [hd] at h
      | ok i =>
        rw [hd] at h
        exact .inl ⟨i, spaceOf_hreg hd, ⟨w, rfl, hd⟩, h⟩
    | seq => exact absurd hw (by simp [Event.isHardware])
    | uopR r => exact absurd hw (by simp [Event.isHardware])
    | uopC => exact absurd hw (by simp [Event.isHardware])
    | sym8 => exact absurd hw (by simp [Event.isHardware])
  | core => rw [he] at h; exact .inr (.inl ⟨rfl, h⟩)
  | reset => rw [he] at h; exact .inr (.inr (.inl ⟨rfl, by simpa [perform] using h.symm⟩))
  | supply cells =>
    rw [he] at h
    simp only [perform, supplyGrid] at h
    split at h
    · exact absurd h (by simp)
    · rename_i hb
      rw [nextMove_state] at hb
      exact .inr (.inr (.inr ⟨cells, rfl, hb, by simpa using h.symm⟩))

end Sys2Proof.Machine
end

