-- ==== Sys2Proof/Laws/Invariant.lean ====
section
/-! SUPPORT. What a PIX step inside the invariant gives (10_state.md R49): the scan advances, the raw stream has its length, the
compressor keeps its row invariant or raises with a count above 400. -/

namespace Sys2Proof.Machine

/-! ### The scan -/

theorem lastcol_iff {s : State} (h : s.col.toNat < s.width.toNat) : lastcolCond s = true ↔ s.col.toNat + 1 = s.width.toNat := by
  have := s.width.isLt
  simp only [lastcolCond, beq_iff_eq]
  constructor
  · intro h2; rw [h2]; simp; omega
  · intro h2; apply BitVec.eq_of_toNat_eq; simp; omega

theorem lastrow_iff {s : State} (h : s.row.toNat < s.height.toNat) : lastrowCond s = true ↔ s.row.toNat + 1 = s.height.toNat := by
  have := s.height.isLt
  simp only [lastrowCond, beq_iff_eq]
  constructor
  · intro h2; rw [h2]; simp; omega
  · intro h2; apply BitVec.eq_of_toNat_eq; simp; omega

theorem fullCond_iff (s : State) : fullCond s = true ↔ s.nbits.toNat = 7 := by
  simp only [fullCond, beq_iff_eq]; omega

theorem succ_toNat {d e : BitVec 16} (h : d.toNat + 1 < e.toNat) : (d + 1#16).toNat = d.toNat + 1 := by
  have := e.isLt
  rw [BitVec.toNat_add]; simp; omega

theorem nbits_succ {s : State} (h : s.nbits.toNat ≠ 7) : (s.nbits + 1#3).toNat = s.nbits.toNat + 1 := by
  have := s.nbits.isLt
  rw [BitVec.toNat_add]; simp; omega

/-- The state in which a PIX step goes on, from the state `t` that the emissions left. -/
def advanced (s t : State) : State :=
  if lastcolCond s then
    (if lastrowCond s then { t with acc := 0#8, nbits := 0#3, col := 0#16, phase := .done }
     else { t with acc := 0#8, nbits := 0#3, col := 0#16, row := s.row + 1#16 })
  else if fullCond s then { t with acc := 0#8, nbits := 0#3, col := s.col + 1#16 }
  else { t with nbits := s.nbits + 1#3, col := s.col + 1#16 }

/-- A scan that goes on keeps its invariant. -/
theorem ScanInv.advanced {px : Pixel} {s t : State} (h : ScanInv s) (hf : rleFrame (packed px s) t)
    (hb : (Machine.advanced s t).phase = s.phase) (hp : s.phase = .busy) : ScanInv (Machine.advanced s t) := by
  have hw : t.width = s.width := (rleFrame_width hf : t.width = (packed px s).width)
  have hh : t.height = s.height := (rleFrame_height hf : t.height = (packed px s).height)
  have hr : t.row = s.row := (rleFrame_row hf : t.row = (packed px s).row)
  have hbp : t.bpr = s.bpr := (rleFrame_bpr hf : t.bpr = (packed px s).bpr)
  have ht : t.total = s.total := (rleFrame_total hf : t.total = (packed px s).total)
  have hc : t.errCause = s.errCause := (rleFrame_errCause hf : t.errCause = (packed px s).errCause)
  have hi : t.errInfo = s.errInfo := (rleFrame_errInfo hf : t.errInfo = (packed px s).errInfo)
  have ha : t.acc = (packed px s).acc := rleFrame_acc hf
  have hrow := h.rowInGrid
  have hcol := h.colInRow
  have hnb := h.nbitsOfCol
  unfold Machine.advanced at hb ⊢
  by_cases hl : lastcolCond s = true
  · simp only [hl, if_true] at hb ⊢
    by_cases hlr : lastrowCond s = true
    · simp [hlr, hp] at hb
    · simp only [hlr, Bool.false_eq_true, if_false] at hb ⊢
      have h2 : s.row.toNat + 1 < s.height.toNat := by
        have := mt (lastrow_iff hrow).mpr hlr; omega
      constructor
      · simpa [hw] using h.widthPositive
      · simpa [hh] using h.heightPositive
      · simp [hw]; omega
      · simp only [hh, succ_toNat h2]; exact h2
      · simp
      · simp
      · simpa [hbp, hw] using h.bprOfWidth
      · simpa [hbp, ht, hh] using h.totalOfSizes
      · simpa [hc, hi] using h.noError
  · have h2 : s.col.toNat + 1 < s.width.toNat := by
      have := mt (lastcol_iff hcol).mpr hl; omega
    simp only [hl, Bool.false_eq_true, if_false] at hb ⊢
    by_cases hfl : fullCond s = true
    · have h7 := (fullCond_iff s).mp hfl
      simp only [hfl, if_true] at hb ⊢
      constructor
      · simpa [hw] using h.widthPositive
      · simpa [hh] using h.heightPositive
      · simpa only [hw, succ_toNat h2] using h2
      · simpa only [hh, hr] using hrow
      · simp only [succ_toNat h2]; simp; omega
      · simp
      · simpa [hbp, hw] using h.bprOfWidth
      · simpa [hbp, ht, hh] using h.totalOfSizes
      · simpa [hc, hi] using h.noError
    · have h7 := mt (fullCond_iff s).mpr hfl
      simp only [hfl, Bool.false_eq_true, if_false] at hb ⊢
      have h8 := nbits_succ h7
      constructor
      · simpa [hw] using h.widthPositive
      · simpa [hh] using h.heightPositive
      · simpa only [hw, succ_toNat h2] using h2
      · simpa only [hh, hr] using hrow
      · simp only [succ_toNat h2, h8]; omega
      · simp only [h8, ha]
        have h9 := packBit_unfilled s.acc s.nbits (isBlack px s.thresh) h.accUnfilledZero
        rwa [show 8 - (s.nbits.toNat + 1) = 7 - s.nbits.toNat by omega]
      · simpa [hbp, hw] using h.bprOfWidth
      · simpa [hbp, ht, hh] using h.totalOfSizes
      · simpa [hc, hi] using h.noError

/-! ### Without compression -/

/-- What a PIX step appends to OUT without compression. -/
def rawText (px : Pixel) (s : State) : List Byte :=
  (if fullCond s || lastcolCond s then hexPair (packed px s).acc.toNat else []) ++
    (if lastcolCond s then [Config.rbCode] else [])

/-- PIX without compression never raises (R133, R139). -/
theorem pixStep_raw (px : Pixel) (s : State) (h : compEnabled s = false) :
    pixStep px s = .cont (advanced s { packed px s with out := s.out ++ rawText px s }) := by
  have h1 : compEnabled (packed px s) = false := h
  rw [pixStep_eq]
  simp only [advanced, rawText]
  cases lastcolCond s with
  | false =>
    simp only [Bool.or_false, Bool.false_eq_true, if_false, List.append_nil]
    cases fullCond s with
    | false =>
      simp only [Bool.false_eq_true, if_false, Flow.andThen_cont, List.append_nil]
      rfl
    | true =>
      simp only [if_true, emitByte_raw _ h1, Flow.andThen_cont]
      rfl
  | true =>
    simp only [Bool.or_true, if_true, emitByte_raw _ h1, Flow.andThen_cont, rowEnd]
    rw [emit_raw _ _ (by exact h)]
    simp only [Flow.andThen_cont, outAppend]
    cases lastrowCond s <;> simp [frameEnd, packed, packPixel, classifyPixel]

/-! ### With compression -/

theorem rleInv_iff_rowInv (s : State) : RleInv s ↔ RowInv (2 * (s.col.toNat / 8)) s := by
  constructor
  · intro h
    exact ⟨by rw [h.freshOfCol]; omega, h.freshEmpty, h.pendIsDigit, h.runPositive,
      fun h2 => by have := h.lineBound h2; omega, h.prevBound, h.lineAlphabet, h.outAlphabet⟩
  · intro h
    exact ⟨by rw [h.freshOfCount]; omega, h.freshEmpty, h.pendIsDigit, h.runPositive,
      fun h2 => by have := h.lineBound h2; omega, h.prevBound, h.lineAlphabet, h.outAlphabet⟩

/-- The row invariant speaks of the compressor's registers, BPR and OUT only. -/
theorem RowInv.of_eq {n : Nat} {s t : State} (h : RowInv n s) (h1 : t.fresh = s.fresh) (h2 : t.run = s.run)
    (h3 : t.line = s.line) (h4 : t.pend = s.pend) (h5 : t.prevValid = s.prevValid) (h6 : t.prev = s.prev) (h7 : t.bpr = s.bpr)
    (h8 : t.out = s.out) : RowInv n t := by
  obtain ⟨a, b, c, d, e, f, g, i⟩ := h
  constructor <;> simp only [h1, h2, h3, h4, h5, h6, h7, h8] <;> assumption

/-- At the start of a row. -/
theorem rleInv_of_rowStart {t : State} (h : RowInv 0 t) (hc : t.col = 0#16) : RleInv t :=
  (rleInv_iff_rowInv t).mpr (by rw [hc]; exact h)

/-- PIX with compression: it goes on with the row invariant for one digit pair more when a byte was emitted, or for a new row; or it
raises with a count above 400 and at most the row's digits. -/
theorem pixStep_compressed (px : Pixel) (s : State) (hc : compEnabled s = true) (hs : ScanInv s) (hr : RleInv s) :
    (∃ t, rleFrame (packed px s) t ∧ pixStep px s = .cont (advanced s t) ∧ RleInv (advanced s t)) ∨
    (∃ t, pixStep px s = .stop (errorEntry .encodingRange t.run t) ∧ 401 ≤ t.run.toNat ∧ t.run.toNat ≤ 2 * s.bpr.toNat) := by
  have hi := (rleInv_iff_rowInv s).mp hr
  have hip : RowInv (2 * (s.col.toNat / 8)) (packed px s) := hi.of_eq rfl rfl rfl rfl rfl rfl rfl rfl
  have hcp : compEnabled (packed px s) = true := hc
  have hcol := hs.colInRow
  have hnb := hs.nbitsOfCol
  have hbpr := hs.bprOfWidth
  have hbl := s.bpr.isLt
  have hwl : s.width.toNat < 32768 := ((toInt_pos_iff _).mp hs.widthPositive).2
  have hwcol : s.col.toNat / 8 + 1 ≤ s.bpr.toNat := by omega
  rw [pixStep_eq]
  by_cases hl : lastcolCond s = true
  · have hlc := (lastcol_iff hcol).mp hl
    have hb : s.bpr.toNat = s.col.toNat / 8 + 1 := by omega
    simp only [hl, Bool.or_true, if_true]
    rcases emitByte_compressed (packed px s) hcp hip (by omega) with ⟨t, h1, hf, hi2, ho⟩ | ⟨t, h1, hf, h400, ho, hle⟩
    · have htb : t.bpr = s.bpr := (rleFrame_bpr hf : t.bpr = (packed px s).bpr)
      have hi3 : RowInv (2 * (s.col.toNat / 8) + 2) { t with acc := 0#8, nbits := 0#3 } :=
        hi2.of_eq rfl rfl rfl rfl rfl rfl rfl rfl
      have hct : compEnabled ({ t with acc := 0#8, nbits := 0#3 } : State) = true := (compEnabled_of_frame hf).trans hc
      simp only [h1, Flow.andThen_cont, rowEnd, emit_compressed _ _ hct]
      rcases rleStep_rowBreak hi3 (by omega) (by simp only [htb]; omega) with ⟨v, h2, hf2, hi4⟩ | ⟨h2, hfr, hn⟩
      · refine .inl ⟨{ v with acc := (packed px s).acc, nbits := (packed px s).nbits }, ?_, ?_, ?_⟩
        · unfold rleFrame at *; rw [hf2, hf]
        · rw [h2]
          simp only [Flow.andThen_cont, advanced, hl, if_true]
          have hrow : v.row = s.row := by
            have h3 := rleFrame_row hf2
            have h4 : t.row = (packed px s).row := rleFrame_row hf
            exact h3.trans h4
          have hva : v.acc = 0#8 := rleFrame_acc hf2
          have hvn : v.nbits = 0#3 := rleFrame_nbits hf2
          cases lastrowCond s
          · simp only [Bool.false_eq_true, if_false, hrow]
            obtain ⟨⟩ := v; simp_all
          · simp only [if_true, frameEnd]
            obtain ⟨⟩ := v; simp_all
        · simp only [advanced, hl, if_true]
          cases lastrowCond s
          · simp only [Bool.false_eq_true, if_false]
            exact rleInv_of_rowStart (hi4.of_eq rfl rfl rfl rfl rfl rfl rfl rfl) rfl
          · simp only [if_true]
            exact rleInv_of_rowStart (hi4.of_eq rfl rfl rfl rfl rfl rfl rfl rfl) rfl
      · have hbd := hi3.lineBound hfr
        refine .inr ⟨_, by rw [h2]; rfl, hi3.raise_above hn, ?_⟩
        simp only at hbd ⊢; omega
    · exact .inr ⟨t, by simp [h1], h400, by omega⟩
  · simp only [hl, Bool.or_false, Bool.false_eq_true, if_false]
    have h2 : s.col.toNat + 1 < s.width.toNat := by
      have := mt (lastcol_iff hcol).mpr hl; omega
    by_cases hfl : fullCond s = true
    · have h7 := (fullCond_iff s).mp hfl
      simp only [hfl, if_true]
      rcases emitByte_compressed (packed px s) hcp hip (by omega) with ⟨t, h1, hf, hi2, ho⟩ | ⟨t, h1, hf, h400, ho, hle⟩
      · refine .inl ⟨t, hf, ?_, ?_⟩
        · have htc : t.col = s.col := (rleFrame_col hf : t.col = (packed px s).col)
          simp [h1, advanced, hl, hfl, htc]
        · simp only [advanced, hl, hfl, Bool.false_eq_true, if_false, if_true]
          refine (rleInv_iff_rowInv _).mpr ?_
          simp only [succ_toNat h2]
          rw [show 2 * ((s.col.toNat + 1) / 8) = 2 * (s.col.toNat / 8) + 2 by omega]
          exact hi2.of_eq rfl rfl rfl rfl rfl rfl rfl rfl
      · exact .inr ⟨t, by simp [h1], h400, by omega⟩
    · have h7 := mt (fullCond_iff s).mpr hfl
      refine .inl ⟨packed px s, rfl, ?_, ?_⟩
      · simp only [hfl, Bool.false_eq_true, if_false, Flow.andThen_cont, advanced, hl]
        rfl
      · simp only [advanced, hl, hfl, Bool.false_eq_true, if_false]
        refine (rleInv_iff_rowInv _).mpr ?_
        simp only [succ_toNat h2]
        rw [show 2 * ((s.col.toNat + 1) / 8) = 2 * (s.col.toNat / 8) by omega]
        exact hip.of_eq rfl rfl rfl rfl rfl rfl rfl rfl

/-- The count a PIX step raises with (R171, 60_exceptions.md R252): the pending run extended by the byte's digits. -/
theorem pixStep_raise_count {px : Pixel} {s t : State} (hc : compEnabled s = true) (hs : ScanInv s) (hr : RleInv s)
    (h : pixStep px s = .stop (errorEntry .encodingRange t.run t)) (h2 : 2 < t.run.toNat) :
    t.run.toNat = s.run.toNat + extending (packed px s) := by
  have hi := (rleInv_iff_rowInv s).mp hr
  have hip : RowInv (2 * (s.col.toNat / 8)) (packed px s) := hi.of_eq rfl rfl rfl rfl rfl rfl rfl rfl
  have hcp : compEnabled (packed px s) = true := hc
  have hcol := hs.colInRow
  have hbpr := hs.bprOfWidth
  have hbl := s.bpr.isLt
  have hwl : s.width.toNat < 32768 := ((toInt_pos_iff _).mp hs.widthPositive).2
  have key : ∀ u : State, errorEntry .encodingRange t.run t = errorEntry .encodingRange u.run u → t.run = u.run :=
    fun u e => congrArg State.errInfo e
  rw [pixStep_eq] at h
  split at h
  · rcases emitByte_run (packed px s) hcp hip (by omega) with ⟨u, h1, hu⟩ | ⟨u, h1, hu⟩
    · rw [h1, Flow.andThen_cont] at h
      split at h
      · cases he : emit Config.rbCode u with
        | cont v => rw [rowEnd, he, Flow.andThen_cont] at h; split at h <;> cases h
        | stop v =>
          rw [rowEnd, he, Flow.andThen_stop, emit_stop he] at h
          rw [key u (Flow.stop.inj h).symm] at h2 ⊢
          exact hu h2
      · cases h
    · rw [h1, Flow.andThen_stop] at h
      rw [key u (Flow.stop.inj h).symm] at h2 ⊢
      exact hu h2
  · rw [Flow.andThen_cont] at h
    rename_i hn
    simp at hn
    simp [hn] at h
end Sys2Proof.Machine
end

