-- ==== Sys2Proof/Laws/Frame.lean ====
section
/-! SUPPORT. The core after `k` of a served frame's pixels (40_rasterizer.md R143; 41_rle_compressor.md R175): the scan is at
(k % WIDTH, k / WIDTH), and what has been delivered is the text of the pixels read. One PIX step carries this from `k` to `k + 1`. -/

namespace Sys2Proof.Machine

/-! ### The byte being assembled -/

/-- The first `j` bits of byte `k` of row `y`, in their places (40_rasterizer.md R143). -/
def partialByte (px : Nat → Nat → Pixel) (thresh : BitVec 11) (w k y j : Nat) : Nat :=
  ((List.range j).map fun i => natOfBool (bitAt px thresh w (8 * k + i) y) * 2 ^ (7 - i)).sum

theorem partialByte_succ (px : Nat → Nat → Pixel) (thresh : BitVec 11) (w k y j : Nat) :
    partialByte px thresh w k y (j + 1) =
      partialByte px thresh w k y j + natOfBool (bitAt px thresh w (8 * k + j) y) * 2 ^ (7 - j) := by
  simp [partialByte, List.range_succ]

theorem partialByte_unfilled (px : Nat → Nat → Pixel) (thresh : BitVec 11) (w k y j : Nat) (hj : j ≤ 8) :
    partialByte px thresh w k y j % 2 ^ (8 - j) = 0 := by
  induction j with
  | zero => rfl
  | succ j ih =>
    have h1 : 2 ^ (8 - j) = 2 ^ (7 - j) * 2 := by
      rw [show 8 - j = (7 - j) + 1 by omega, Nat.pow_succ]
    have h2 : 8 - (j + 1) = 7 - j := by omega
    obtain ⟨q, hq⟩ := Nat.dvd_of_mod_eq_zero (ih (by omega))
    rw [partialByte_succ, hq, h1, h2]
    apply Nat.mod_eq_zero_of_dvd
    exact Nat.dvd_add (Dvd.dvd.mul_right (Dvd.intro _ rfl) _) (Dvd.intro_left _ rfl)

/-- A byte whose further columns lie beyond the row is complete: the padding is zero (20_memory.md R70). -/
theorem partialByte_padded (px : Nat → Nat → Pixel) (thresh : BitVec 11) (w k y j : Nat) (hj : j ≤ 8)
    (h : ∀ i, j ≤ i → i < 8 → w ≤ 8 * k + i) : partialByte px thresh w k y j = rowByte px thresh w k y := by
  have key : ∀ n, j + n ≤ 8 → partialByte px thresh w k y (j + n) = partialByte px thresh w k y j := by
    intro n
    induction n with
    | zero => intro _; rfl
    | succ n ih =>
      intro hn
      have h2 := h (j + n) (by omega) (by omega)
      have h3 : bitAt px thresh w (8 * k + (j + n)) y = false := by simp [bitAt]; omega
      rw [← Nat.add_assoc, partialByte_succ, ih (by omega), h3]
      simp [natOfBool]
  have := key (8 - j) (by omega)
  rw [show j + (8 - j) = 8 by omega] at this
  exact this.symm

/-! ### The digits of a row so far -/

/-- The digits of the first `n` bytes of row `y`. -/
def digitsSoFar (px : Nat → Nat → Pixel) (thresh : BitVec 11) (w y n : Nat) : List Byte :=
  (List.range n).flatMap fun k => hexPair (rowByte px thresh w k y)

theorem digitsSoFar_succ (px : Nat → Nat → Pixel) (thresh : BitVec 11) (w y n : Nat) :
    digitsSoFar px thresh w y (n + 1) = digitsSoFar px thresh w y n ++ hexPair (rowByte px thresh w n y) := by
  simp [digitsSoFar, List.range_succ]

theorem digitsSoFar_length (px : Nat → Nat → Pixel) (thresh : BitVec 11) (w y n : Nat) :
    (digitsSoFar px thresh w y n).length = 2 * n := by
  induction n with
  | zero => rfl
  | succ n ih => rw [digitsSoFar_succ, List.length_append, ih]; simp [hexPair]; omega

theorem digitsSoFar_isHexDigit (px : Nat → Nat → Pixel) (thresh : BitVec 11) (w y n : Nat) :
    ∀ c ∈ digitsSoFar px thresh w y n, isHexDigit c = true := by
  induction n with
  | zero => simp [digitsSoFar]
  | succ n ih =>
    rw [digitsSoFar_succ]
    intro c hc
    rcases List.mem_append.mp hc with hc | hc
    · exact ih c hc
    · simp only [hexPair, List.mem_cons, List.not_mem_nil, or_false] at hc
      rcases hc with rfl | rfl <;> exact hexDigit_isHexDigit _

theorem digitsSoFar_prefix (px : Nat → Nat → Pixel) (thresh : BitVec 11) (w y : Nat) {m n : Nat} (h : m ≤ n) :
    ∃ more, digitsSoFar px thresh w y n = digitsSoFar px thresh w y m ++ more := by
  obtain ⟨d, rfl⟩ := Nat.exists_eq_add_of_le h
  induction d with
  | zero => exact ⟨[], by simp⟩
  | succ d ih =>
    obtain ⟨more, ih⟩ := ih (by omega)
    exact ⟨more ++ hexPair (rowByte px thresh w (m + d) y), by rw [← Nat.add_assoc, digitsSoFar_succ, ih, List.append_assoc]⟩

/-- The digits of a row are those of all its bytes. -/
theorem rowDigits_eq (px : Nat → Nat → Pixel) (thresh : BitVec 11) (w y : Nat) :
    rowDigits px thresh w y = digitsSoFar px thresh w y ((w + 7) / 8) := rfl

theorem frameRows_succ (px : Nat → Nat → Pixel) (thresh : BitVec 11) (w h : Nat) :
    frameRows px thresh w (h + 1) = frameRows px thresh w h ++ [rowDigits px thresh w h] := by
  simp [frameRows, List.range_succ]

theorem frameRows_split (px : Nat → Nat → Pixel) (thresh : BitVec 11) (w : Nat) {y h : Nat} (hy : y < h) :
    ∃ more, frameRows px thresh w h = frameRows px thresh w y ++ rowDigits px thresh w y :: more := by
  obtain ⟨d, rfl⟩ := Nat.exists_eq_add_of_lt hy
  induction d with
  | zero => exact ⟨[], frameRows_succ px thresh w y⟩
  | succ d ih =>
    obtain ⟨more, ih⟩ := ih (by omega)
    refine ⟨more ++ [rowDigits px thresh w (y + d + 1)], ?_⟩
    rw [show y + (d + 1) + 1 = (y + d + 1) + 1 by omega, frameRows_succ, ih]
    simp

/-! ### The scan after `k` pixels -/

/-- The core after `k` of a frame's pixels, in the frame that `s` began: the scan position, the byte being assembled, the characters
delivered so far, and all that a frame keeps. -/
structure FrameAt (px : Nat → Nat → Pixel) (s : State) (k : Nat) (u : State) : Prop where
  busy : u.phase = .busy
  col : u.col.toNat = k % s.width.toNat
  row : u.row.toNat = k / s.width.toNat
  nbits : u.nbits.toNat = k % s.width.toNat % 8
  acc : u.acc.toNat = partialByte px s.thresh s.width.toNat (k % s.width.toNat / 8) (k / s.width.toNat) (k % s.width.toNat % 8)
  emitted : EmitAt (frameRows px s.thresh s.width.toNat (k / s.width.toNat))
    (digitsSoFar px s.thresh s.width.toNat (k / s.width.toNat) (k % s.width.toNat / 8)) u
  frame : pixFrame s u
  noError : u.errCause = .noError ∧ u.errInfo = 0#14

/-- The frame ended in DONE: every row delivered. -/
structure FrameDone (px : Nat → Nat → Pixel) (s t : State) : Prop where
  done : t.phase = .done
  emitted : EmitAt (frameRows px s.thresh s.width.toNat s.height.toNat) [] t
  frame : pixFrame s t
  noError : t.errCause = .noError ∧ t.errInfo = 0#14

/-- The frame ended in ERR: the record is the count of a run above 400, and OUT what the rows before gave. -/
structure FrameRaised (px : Nat → Nat → Pixel) (s t : State) : Prop where
  err : t.phase = .err
  cause : t.errCause = .encodingRange
  above : 400 < t.errInfo.toNat
  text : compressRows none (frameRows px s.thresh s.width.toNat s.height.toNat) = (t.out, some t.errInfo.toNat)
  frame : pixFrame s t
  compressed : compEnabled s = true

theorem compEnabled_of_pixFrame {s t : State} (h : pixFrame s t) : compEnabled t = compEnabled s := by
  obtain ⟨-, h1, -, -, -, -, h2, -⟩ := h
  simp [compEnabled, h1, h2]

theorem pixFrame_trans {s t u : State} (h1 : pixFrame s t) (h2 : pixFrame t u) : pixFrame s u := by
  obtain ⟨a, b, c, d, e, f, g, h, i, j⟩ := h1
  obtain ⟨a', b', c', d', e', f', g', h', i', j'⟩ := h2
  exact ⟨a'.trans a, b'.trans b, c'.trans c, d'.trans d, e'.trans e, f'.trans f, g'.trans g, h'.trans h, i'.trans i, j'.trans j⟩

theorem pixFrame_of_rleFrame {s t : State} (h : rleFrame s t) : pixFrame s t := by
  unfold rleFrame at h
  rw [h]
  exact ⟨rfl, rfl, rfl, rfl, rfl, rfl, rfl, rfl, rfl, rfl⟩

/-- A raise in row `y` ends the frame as FrameRaised says. -/
theorem frameRaised_of {px : Nat → Nat → Pixel} {s v : State} {y : Nat} (hy : y < s.height.toNat)
    (hf : pixFrame s v) (hc : compEnabled v = true) (h400 : 400 < v.run.toNat)
    (hd : RowsDone (frameRows px s.thresh s.width.toNat y) v)
    (hr : rowText (rowDigits px s.thresh s.width.toNat y) = .error v.run.toNat) :
    FrameRaised px s (errorEntry .encodingRange v.run v) := by
  refine ⟨rfl, rfl, h400, ?_, hf, (compEnabled_of_pixFrame hf).symm.trans hc⟩
  obtain ⟨more, hm⟩ := frameRows_split px s.thresh s.width.toNat hy
  rw [hm]
  exact compressRows_snoc_error none _ more _ _ _ hd.1 hr

/-- CLASSIFY and PACK put the next bit of the byte in its place. -/
theorem packed_acc {px : Nat → Nat → Pixel} {s u : State} {k : Nat} (h : FrameAt px s k u) (hw : 0 < s.width.toNat) :
    (packed (px (k % s.width.toNat) (k / s.width.toNat)) u).acc.toNat =
      partialByte px s.thresh s.width.toNat (k % s.width.toNat / 8) (k / s.width.toNat) (k % s.width.toNat % 8 + 1) := by
  have hlt := Nat.mod_lt k hw
  have h0 : u.acc.toNat % 2 ^ (8 - u.nbits.toNat) = 0 := by
    rw [h.acc, h.nbits]
    exact partialByte_unfilled _ _ _ _ _ _ (by omega)
  have h1 : (packed (px (k % s.width.toNat) (k / s.width.toNat)) u).acc =
      packBit u.acc u.nbits (isBlack (px (k % s.width.toNat) (k / s.width.toNat)) u.thresh) := rfl
  rw [h1, packBit_toNat _ _ _ h0, partialByte_succ, h.acc, h.nbits, h.frame.1]
  rw [show 8 * (k % s.width.toNat / 8) + k % s.width.toNat % 8 = k % s.width.toNat by omega]
  simp [bitAt, hlt]

/-- A PIX step of a served frame: the scan goes on, or it was the last pixel, or a run raises. -/
theorem pixStep_at {px : Nat → Nat → Pixel} {s u : State} {k : Nat} (h : FrameAt px s k u) (hw : 0 < s.width.toNat)
    (hw2 : s.width.toNat < 32768) (hbpr : s.bpr.toNat = (s.width.toNat + 7) / 8)
    (hk : k < s.width.toNat * s.height.toNat) :
    (k + 1 < s.width.toNat * s.height.toNat ∧
      FrameAt px s (k + 1) (pixStep (px (k % s.width.toNat) (k / s.width.toNat)) u).state) ∨
    (k + 1 = s.width.toNat * s.height.toNat ∧ FrameDone px s (pixStep (px (k % s.width.toNat) (k / s.width.toNat)) u).state) ∨
    FrameRaised px s (pixStep (px (k % s.width.toNat) (k / s.width.toNat)) u).state := by
  have hcw := Nat.mod_lt k hw
  have hrow : k / s.width.toNat < s.height.toNat := Nat.div_lt_of_lt_mul hk
  have hdm := Nat.div_add_mod k s.width.toNat
  have hcolu := h.col
  have hrowu := h.row
  have hnbu := h.nbits
  have hacc := packed_acc h hw
  have hwu : u.width = s.width := h.frame.2.2.1
  have hhu : u.height = s.height := h.frame.2.2.2.1
  have hlast : lastcolCond u = true ↔ k % s.width.toNat + 1 = s.width.toNat := by
    have := lastcol_iff (s := u) (by rw [h.col, hwu]; exact hcw)
    rw [this, h.col, hwu]
  have hlrow : lastrowCond u = true ↔ k / s.width.toNat + 1 = s.height.toNat := by
    have := lastrow_iff (s := u) (by rw [h.row, hhu]; exact hrow)
    rw [this, h.row, hhu]
  have hfull : fullCond u = true ↔ k % s.width.toNat % 8 = 7 := by rw [fullCond_iff, h.nbits]
  have hem : EmitAt (frameRows px s.thresh s.width.toNat (k / s.width.toNat))
      (digitsSoFar px s.thresh s.width.toNat (k / s.width.toNat) (k % s.width.toNat / 8))
      (packed (px (k % s.width.toNat) (k / s.width.toNat)) u) := h.emitted.of_eq rfl rfl rfl rfl rfl rfl rfl rfl
  have hpk : pixFrame s (packed (px (k % s.width.toNat) (k / s.width.toNat)) u) := h.frame
  rw [pixStep_eq]
  generalize hp : packed (px (k % s.width.toNat) (k / s.width.toNat)) u = p at *
  have hpc : p.col = u.col := by rw [← hp]; rfl
  have hpr : p.row = u.row := by rw [← hp]; rfl
  have hpp : p.phase = .busy := by rw [← hp]; exact h.busy
  have hpe : p.errCause = .noError ∧ p.errInfo = 0#14 := by rw [← hp]; exact h.noError
  have hpn : p.nbits = u.nbits := by rw [← hp]; rfl
  clear hp
  generalize hW : s.width.toNat = W at *
  generalize hc : k % W = c at *
  generalize hr : k / W = r at *
  have hlen := digitsSoFar_length px s.thresh W r (c / 8)
  by_cases hl : c + 1 = W
  · -- the last column: the byte and the row-break
    have hbyte : p.acc.toNat = rowByte px s.thresh W (c / 8) r := by
      rw [hacc]
      exact partialByte_padded px s.thresh W (c / 8) r (c % 8 + 1) (by omega) (by intro i h1 h2; omega)
    have hcl : c / 8 + 1 = (W + 7) / 8 := by omega
    have hdig : digitsSoFar px s.thresh W r (c / 8) ++ hexPair p.acc.toNat = rowDigits px s.thresh W r := by
      rw [rowDigits_eq, ← hcl, digitsSoFar_succ, hbyte]
    simp only [hlast.mpr hl, Bool.or_true, if_true]
    rcases emitByte_at hem (by omega) with ⟨t, h1, hf, ht⟩ | ⟨he, v, h1, hf, h400, hd, hrt⟩
    · rw [hdig] at ht
      simp only [h1, Flow.andThen_cont, rowEnd]
      have hft := pixFrame_trans hpk (pixFrame_of_rleFrame hf)
      have ht2 : EmitAt (frameRows px s.thresh W r) (rowDigits px s.thresh W r) { t with acc := 0#8, nbits := 0#3 } :=
        ht.of_eq rfl rfl rfl rfl rfl rfl rfl rfl
      have hlen2 : (rowDigits px s.thresh W r).length = 2 * ({ t with acc := 0#8, nbits := 0#3 } : State).bpr.toNat := by
        have : t.bpr = s.bpr := hft.2.2.2.2.1
        rw [rowDigits_eq, digitsSoFar_length, this, hbpr]
      rcases emit_rowBreak ht2 hlen2 (by intro h0; rw [h0] at hlen2; have : t.bpr = s.bpr := hft.2.2.2.2.1; rw [this, hbpr] at hlen2; simp at hlen2; omega) with
        ⟨v, h2, hf2, hv⟩ | ⟨he, h2, h400, hd, hrt⟩
      · simp only [h2, Flow.andThen_cont]
        have hfv : pixFrame s v := pixFrame_trans (show pixFrame s { t with acc := 0#8, nbits := 0#3 } from hft) (pixFrame_of_rleFrame hf2)
        rw [← frameRows_succ] at hv
        have hvr : v.row = u.row := Eq.trans (by have h3 := rleFrame_row hf2; exact h3) ((rleFrame_row hf).trans hpr)
        have hvp : v.phase = .busy := Eq.trans (by have h3 := rleFrame_phase hf2; exact h3) ((rleFrame_phase hf).trans hpp)
        have hve : v.errCause = .noError ∧ v.errInfo = 0#14 :=
          ⟨Eq.trans (by have h3 := rleFrame_errCause hf2; exact h3) ((rleFrame_errCause hf).trans hpe.1),
           Eq.trans (by have h3 := rleFrame_errInfo hf2; exact h3) ((rleFrame_errInfo hf).trans hpe.2)⟩
        have hva : v.acc = 0#8 := rleFrame_acc hf2
        have hvn : v.nbits = 0#3 := rleFrame_nbits hf2
        have hk1 : k + 1 = W * (r + 1) := by rw [Nat.mul_add]; omega
        by_cases hlr : r + 1 = s.height.toNat
        · simp only [hlrow.mpr hlr, if_true]
          refine .inr (.inl ⟨by rw [hk1, hlr], rfl, ?_, hfv, hve⟩)
          rw [hW, ← hlr]
          exact hv.of_eq rfl rfl rfl rfl rfl rfl rfl rfl
        · have hlr2 : lastrowCond u = false := by
            cases hx : lastrowCond u with
            | true => exact absurd (hlrow.mp hx) hlr
            | false => rfl
          simp only [hlr2, Bool.false_eq_true, if_false]
          have h1m : (k + 1) % W = 0 := by rw [hk1]; exact Nat.mul_mod_right _ _
          have h1d : (k + 1) / W = r + 1 := by rw [hk1]; exact Nat.mul_div_cancel_left _ (by omega)
          refine .inl ⟨?_, ?_⟩
          · rw [hk1]; exact Nat.mul_lt_mul_of_pos_left (by omega) (by omega)
          · have hrs : (u.row + 1#16).toNat = r + 1 := by
              have := succ_toNat (d := u.row) (e := s.height) (by rw [hrowu]; omega)
              rw [this, hrowu]
            constructor
            · exact hvp
            · rw [hW, h1m]; rfl
            · rw [hW, h1d]; simp only [Flow.state, hvr]; exact hrs
            · rw [hW, h1m]; simp only [Flow.state, hvn]; rfl
            · rw [hW, h1m]; simp only [Flow.state, hva]; rfl
            · rw [hW, h1m, h1d]; exact hv.of_eq rfl rfl rfl rfl rfl rfl rfl rfl
            · exact hfv
            · exact hve
      · refine .inr (.inr ?_)
        simp only [h2, Flow.andThen_stop, Flow.state]
        rw [← hW] at hd hrt
        exact frameRaised_of (y := r) hrow hft he h400 hd hrt
    · refine .inr (.inr ?_)
      simp only [h1, Flow.andThen_stop, Flow.state]
      have h2 := hrt []
      rw [List.append_nil, hdig] at h2
      rw [← hW] at hd h2
      exact frameRaised_of (y := r) hrow (pixFrame_trans hpk (pixFrame_of_rleFrame hf)) ((compEnabled_of_frame hf).trans he) h400 hd h2
  · -- inside the row
    have hl2 : lastcolCond u = false := by
      cases hx : lastcolCond u with
      | true => exact absurd (hlast.mp hx) hl
      | false => rfl
    have hm1 : (k + 1) % W = c + 1 := by
      have h1 : k + 1 = W * r + (c + 1) := by omega
      rw [h1, Nat.mul_add_mod, Nat.mod_eq_of_lt (by omega)]
    have hd1 : (k + 1) / W = r := by
      have h1 : k + 1 = (c + 1) + W * r := by omega
      rw [h1, Nat.add_mul_div_left _ _ (by omega), Nat.div_eq_of_lt (by omega)]; omega
    have hklt : k + 1 < W * s.height.toNat := by
      have : W * (r + 1) ≤ W * s.height.toNat := Nat.mul_le_mul_left _ hrow
      rw [Nat.mul_add] at this; omega
    have hcs : (u.col + 1#16).toNat = c + 1 := by
      have := succ_toNat (d := u.col) (e := s.width) (by rw [hcolu, hW]; omega)
      rw [this, hcolu]
    simp only [hl2, Bool.or_false, Bool.false_eq_true, if_false]
    by_cases hfl : c % 8 = 7
    · have hbyte : p.acc.toNat = rowByte px s.thresh W (c / 8) r := by
        rw [hacc, hfl]; rfl
      have hdig : digitsSoFar px s.thresh W r (c / 8) ++ hexPair p.acc.toNat = digitsSoFar px s.thresh W r (c / 8 + 1) := by
        rw [digitsSoFar_succ, hbyte]
      simp only [hfull.mpr hfl, if_true]
      rcases emitByte_at hem (by omega) with ⟨t, h1, hf, ht⟩ | ⟨he, v, h1, hf, h400, hd, hrt⟩
      · simp only [h1, Flow.andThen_cont, Flow.state]
        have htc : t.col = u.col := (rleFrame_col hf).trans hpc
        have htr : t.row = u.row := (rleFrame_row hf).trans hpr
        rw [hdig] at ht
        refine .inl ⟨hklt, ?_⟩
        constructor
        · exact (rleFrame_phase hf).trans hpp
        · rw [hW, hm1]; simp only [htc]; exact hcs
        · rw [hW, hd1]; simp only [htr]; exact hrowu
        · rw [hW, hm1]; show 0 = _; omega
        · rw [hW, hm1, show (c + 1) % 8 = 0 by omega]; rfl
        · rw [hW, hm1, hd1, show (c + 1) / 8 = c / 8 + 1 by omega]
          exact ht.of_eq rfl rfl rfl rfl rfl rfl rfl rfl
        · have h9 := pixFrame_trans hpk (pixFrame_of_rleFrame hf)
          exact h9
        · exact ⟨(rleFrame_errCause hf).trans hpe.1, (rleFrame_errInfo hf).trans hpe.2⟩
      · refine .inr (.inr ?_)
        simp only [h1, Flow.andThen_stop, Flow.state]
        obtain ⟨more, hmore⟩ := digitsSoFar_prefix px s.thresh W r (show c / 8 + 1 ≤ (W + 7) / 8 by omega)
        have h2 := hrt more
        rw [hdig, ← hmore, ← rowDigits_eq] at h2
        rw [← hW] at hd h2
        exact frameRaised_of (y := r) hrow (pixFrame_trans hpk (pixFrame_of_rleFrame hf)) ((compEnabled_of_frame hf).trans he) h400 hd h2
    · have hfl2 : fullCond u = false := by
        cases hx : fullCond u with
        | true => exact absurd (hfull.mp hx) hfl
        | false => rfl
      simp only [hfl2, Bool.false_eq_true, if_false, Flow.andThen_cont, Flow.state]
      have hns : (u.nbits + 1#3).toNat = c % 8 + 1 := by rw [nbits_succ (by rw [hnbu]; exact hfl), hnbu]
      refine .inl ⟨hklt, ?_⟩
      constructor
      · exact hpp
      · rw [hW, hm1]; simp only [hpc]; exact hcs
      · rw [hW, hd1]; simp only [hpr]; exact hrowu
      · rw [hW, hm1]; simp only [hns]; omega
      · rw [hW, hm1, hd1, show (c + 1) % 8 = c % 8 + 1 by omega, show (c + 1) / 8 = c / 8 by omega]; exact hacc
      · rw [hW, hm1, hd1, show (c + 1) / 8 = c / 8 by omega]
        exact hem.of_eq rfl rfl rfl rfl rfl rfl rfl rfl
      · exact hpk
      · exact hpe

end Sys2Proof.Machine
end

