-- ==== Sys2Proof/Laws/Independence.lean ====
section
/-! SUPPORT. The core's step neither reads nor writes the agenda and the answer RDATA, which are the model's own (log 1, log 7):
it commutes with changing them (70_reset_and_hazards.md R295). -/

namespace Sys2Proof.Machine

/-- The state with another agenda and another answer. -/
def withOwn (a : List Event) (d : Data) (s : State) : State := { s with agenda := a, rdata := d }

/-- A function of the state, applied to how a step ends. -/
def Flow.map (g : State → State) : Flow → Flow
  | .cont s => .cont (g s)
  | .stop s => .stop (g s)

@[simp] theorem Flow.map_cont (g : State → State) (s : State) : (Flow.cont s).map g = .cont (g s) := rfl
@[simp] theorem Flow.map_stop (g : State → State) (s : State) : (Flow.stop s).map g = .stop (g s) := rfl
@[simp] theorem Flow.map_state (g : State → State) (f : Flow) : (f.map g).state = g f.state := by cases f <;> rfl

theorem Flow.map_andThen (g : State → State) (f : Flow) (k : State → Flow) (h : ∀ s, k (g s) = (k s).map g) :
    (f.map g).andThen k = (f.andThen k).map g := by
  cases f with
  | cont s => exact h s
  | stop s => rfl

variable (a : List Event) (d : Data)

theorem appendRun_own (s : State) : appendRun (withOwn a d s) = (appendRun s).map (withOwn a d) := by
  have h : encodeRun (withOwn a d s).run.toNat (withOwn a d s).pend = encodeRun s.run.toNat s.pend := rfl
  unfold appendRun
  rw [h]
  cases encodeRun s.run.toNat s.pend <;> rfl

theorem boundRun_own (c : Byte) (s : State) : boundRun c (withOwn a d s) = (boundRun c s).map (withOwn a d) := by
  unfold boundRun
  rw [appendRun_own]
  exact Flow.map_andThen _ _ _ fun _ => rfl

theorem closeRun_own (s : State) : closeRun (withOwn a d s) = (closeRun s).map (withOwn a d) := by
  have h1 : (withOwn a d s).run = s.run := rfl
  have h2 : (withOwn a d s).pend = s.pend := rfl
  have h3 : maxRowRuns (withOwn a d s) = maxRowRuns s := rfl
  unfold closeRun
  rw [h1, h2, h3, appendRun_own]
  split
  · rfl
  · split <;> rfl

theorem breakRow_own (s : State) : breakRow (withOwn a d s) = (breakRow s).map (withOwn a d) := by
  unfold breakRow
  rw [closeRun_own]
  apply Flow.map_andThen
  intro t
  simp only [flushLine_eq, Flow.map_cont]
  rfl

theorem rleStep_own (c : Byte) (s : State) : rleStep c (withOwn a d s) = (rleStep c s).map (withOwn a d) := by
  have h1 : (withOwn a d s).fresh = s.fresh := rfl
  have h2 : sameCond (withOwn a d s) c = sameCond s c := rfl
  unfold rleStep
  rw [h1, h2, breakRow_own, boundRun_own]
  split
  · rfl
  · split
    · rfl
    · split <;> rfl

theorem emit_own (c : Byte) (s : State) : emit c (withOwn a d s) = (emit c s).map (withOwn a d) := by
  have h : compEnabled (withOwn a d s) = compEnabled s := rfl
  unfold emit
  rw [h, rleStep_own]
  split <;> rfl

theorem emitByte_own (s : State) : emitByte (withOwn a d s) = (emitByte s).map (withOwn a d) := by
  have h : (withOwn a d s).acc = s.acc := rfl
  unfold emitByte
  rw [h, emit_own]
  apply Flow.map_andThen
  intro t
  rw [emit_own]
  exact Flow.map_andThen _ _ _ fun _ => rfl

theorem rowEnd_own (l : Bool) (s : State) : rowEnd l (withOwn a d s) = (rowEnd l s).map (withOwn a d) := by
  unfold rowEnd
  rw [emit_own]
  apply Flow.map_andThen
  intro t
  cases l <;> rfl

theorem pixStep_own (px : Pixel) (s : State) : pixStep px (withOwn a d s) = (pixStep px s).map (withOwn a d) := by
  have h1 : packed px (withOwn a d s) = withOwn a d (packed px s) := rfl
  have h2 : fullCond (withOwn a d s) = fullCond s := rfl
  have h3 : lastcolCond (withOwn a d s) = lastcolCond s := rfl
  have h4 : lastrowCond (withOwn a d s) = lastrowCond s := rfl
  rw [pixStep_eq, pixStep_eq, h1, h2, h3, h4, emitByte_own]
  have key : (if (fullCond s || lastcolCond s) = true then (emitByte (packed px s)).map (withOwn a d)
      else .cont { withOwn a d (packed px s) with nbits := (withOwn a d s).nbits + 1#3 }) =
      (if (fullCond s || lastcolCond s) = true then emitByte (packed px s)
        else .cont { packed px s with nbits := s.nbits + 1#3 }).map (withOwn a d) := by
    split <;> rfl
  rw [key]
  apply Flow.map_andThen
  intro t
  split
  · exact rowEnd_own a d _ t
  · rfl

/-- The core's move, with another agenda and another answer. -/
theorem performCore_own (s : State) :
    perform .core (withOwn a d s) = match perform .core s with
      | .next t => .next (withOwn a d t)
      | .fault r => .fault r
      | .refused r => .refused r := by
  rw [performCore_eq, performCore_eq]
  have h1 : (withOwn a d s).phase = s.phase := rfl
  rw [h1]
  split
  · have h2 : pixelAddressValid (withOwn a d s) = pixelAddressValid s := rfl
    have h3 : pixRead (withOwn a d s).grid (withOwn a d s).col.toNat (withOwn a d s).row.toNat =
      pixRead s.grid s.col.toNat s.row.toNat := rfl
    unfold pixCore
    rw [h2, h3]
    split
    · cases pixRead s.grid s.col.toNat s.row.toNat with
      | none => rfl
      | some px => simp only [pixStep_own, Flow.outcome_eq, Flow.map_state]
    · have h4 : ({ withOwn a d s with freeCtr := (withOwn a d s).freeCtr + 1 } : State) =
          withOwn a d { s with freeCtr := s.freeCtr + 1 } := rfl
      have h5 : (withOwn a d s).freeCtr = s.freeCtr := rfl
      rw [h4, h5, pixStep_own]
      simp only [Flow.outcome_eq, Flow.map_state]
  · rfl

end Sys2Proof.Machine
end

