-- ==== Sys2Proof/Laws/Run.lean ====
section
/-! SUPPORT. Runs of the core: `coreSteps n` is what `n` core steps give (70_reset_and_hazards.md R293, R295), register accesses between
them change nothing, and a served frame is where FrameAt says after each of them. -/

namespace Sys2Proof.Machine

/-! ### Core steps -/

/-- A core move is always answered. -/
theorem performCore_next (s : State) : ∃ t, perform .core s = .next t := by
  rw [performCore_eq]; split
  · rcases pixCore_cases s with ⟨-, px, -, h⟩ | ⟨-, -, h⟩ | ⟨-, h⟩ <;> exact ⟨_, h⟩
  · exact ⟨_, rfl⟩

/-- Outside BUSY the core holds. -/
theorem performCore_stays {s t : State} (h : perform .core s = .next t) (hb : s.phase ≠ .busy) : t = s := by
  rw [performCore_eq, if_neg hb] at h; exact (Host.Outcome.next.inj h).symm

/-- The core's move keeps the model's own agenda and answer. -/
theorem performCore_ownFields {s t : State} (h : perform .core s = .next t) : t.agenda = s.agenda ∧ t.rdata = s.rdata := by
  rcases performCore_cases h with ⟨-, rfl⟩ | ⟨-, -, rfl⟩ | ⟨-, px, n, rfl, -⟩
  · exact ⟨rfl, rfl⟩
  · exact ⟨rfl, rfl⟩
  · obtain ⟨-, -, -, -, -, -, -, -, h1, h2⟩ := (pixStep_ends px { s with freeCtr := n }).1
    exact ⟨h2, h1⟩

/-- The state after `n` core moves. -/
def coreSteps : Nat → State → State
  | 0, s => s
  | n + 1, s =>
    match perform .core s with
    | .next t => coreSteps n t
    | _ => s

/-- Core moves written out in the agenda are core moves. -/
theorem runSteps_coreSteps (n : Nat) (r : List Event) : ∀ s : State,
    runSteps n { s with agenda := List.replicate n .core ++ r } =
      .next { coreSteps n { s with agenda := r } with agenda := r } := by
  induction n with
  | zero => intro s; rfl
  | succ n ih =>
    intro s
    simp only [List.replicate_succ, List.cons_append, runSteps, step_cons]
    obtain ⟨t, ht⟩ := performCore_next { s with agenda := r }
    have h2 := performCore_own (List.replicate n .core ++ r) s.rdata { s with agenda := r }
    rw [ht] at h2
    have e : withOwn (List.replicate n Event.core ++ r) s.rdata { s with agenda := r } = { s with agenda := List.replicate n .core ++ r } := rfl
    rw [e] at h2
    rw [h2]
    simp only
    have hrd : t.rdata = s.rdata := (performCore_ownFields ht).2
    have hag := (performCore_ownFields ht).1
    have e2 : withOwn (List.replicate n Event.core ++ r) s.rdata t = { t with agenda := List.replicate n .core ++ r } := by rw [← hrd]; rfl
    rw [e2, ih]
    simp only [coreSteps, ht]
    have : ({ t with agenda := r } : State) = t := by rw [show r = t.agenda from hag.symm]
    rw [this]

theorem coreSteps_own (a : List Event) (d : Data) (n : Nat) : ∀ s, coreSteps n (withOwn a d s) = withOwn a d (coreSteps n s) := by
  induction n with
  | zero => intro s; rfl
  | succ n ih =>
    intro s
    obtain ⟨t, ht⟩ := performCore_next s
    simp only [coreSteps, performCore_own, ht, ih]

theorem coreSteps_busy (n : Nat) : ∀ s, (coreSteps n s).phase = .busy → s.phase = .busy := by
  induction n with
  | zero => intro s h; exact h
  | succ n ih =>
    intro s h
    obtain ⟨t, ht⟩ := performCore_next s
    simp only [coreSteps, ht] at h
    have := ih t h
    by_contra hb
    rw [performCore_stays ht hb] at this; exact hb this

/-- Register accesses among the core's moves of a frame change the answer RDATA only. -/
theorem runSteps_interleaved (moves rest : List Event) (hm : ∀ e ∈ moves, e.isAccessOrCore) :
    ∀ s, (coreSteps (coreCount moves) s).phase = .busy → ∃ d, runSteps moves.length (withOwn (moves ++ rest) s.rdata s) = .next (withOwn rest d (coreSteps (coreCount moves) s)) := by
  induction moves with
  | nil => intro s _; exact ⟨s.rdata, rfl⟩
  | cons e m ih =>
    intro s h
    have hm2 : ∀ e ∈ m, e.isAccessOrCore := fun x hx => hm x (List.mem_cons_of_mem _ hx)
    rcases hm e (by simp) with rfl | ⟨i, w, rfl, hd⟩
    · have hcc : coreCount (Event.core :: m) = coreCount m + 1 := by simp [coreCount]
      rw [hcc] at h ⊢
      obtain ⟨t, ht⟩ := performCore_next s
      simp only [coreSteps, ht] at h ⊢
      obtain ⟨d, hd⟩ := ih hm2 t h
      have hs : step (withOwn (Event.core :: m ++ rest) s.rdata s) = .next (withOwn (m ++ rest) s.rdata t) := by
        have : step (withOwn (Event.core :: m ++ rest) s.rdata s) = perform .core (withOwn (m ++ rest) s.rdata s) := rfl
        rw [this, performCore_own, ht]
      have hrd : t.rdata = s.rdata := (performCore_ownFields ht).2
      refine ⟨d, ?_⟩
      simp only [List.length_cons, runSteps, hs]
      rw [← hrd]; exact hd
    · have hcc : coreCount (Event.op .hreg w :: m) = coreCount m := by simp [coreCount]
      rw [hcc] at h ⊢
      have hb := coreSteps_busy _ _ h
      obtain ⟨r, hr⟩ := exec_hreg_busy i (withOwn (m ++ rest) s.rdata s) (spaceOf_hreg hd) hb
      have hs : step (withOwn (Event.op .hreg w :: m ++ rest) s.rdata s) = .next (withOwn (m ++ rest) r s) := by
        have : step (withOwn (Event.op .hreg w :: m ++ rest) s.rdata s) = perform (.op .hreg w) (withOwn (m ++ rest) s.rdata s) := rfl
        rw [this]; simp only [perform, runWord, hd, hr]; rfl
      have h' : (coreSteps (coreCount m) { s with rdata := r }).phase = .busy := by
        have e := coreSteps_own s.agenda r (coreCount m) s
        have : withOwn s.agenda r s = { s with rdata := r } := rfl
        rw [this] at e; rw [e]; exact h
      obtain ⟨d, hd⟩ := ih hm2 { s with rdata := r } h'
      refine ⟨d, ?_⟩
      simp only [List.length_cons, runSteps, hs]
      have e1 : withOwn (m ++ rest) r s = withOwn (m ++ rest) ({ s with rdata := r } : State).rdata { s with rdata := r } := rfl
      rw [e1, hd]
      have e := coreSteps_own s.agenda r (coreCount m) s
      have : withOwn s.agenda r s = { s with rdata := r } := rfl
      rw [this] at e; rw [e]; rfl

theorem runSteps_add (m n : Nat) : ∀ s t, runSteps m s = .next t → runSteps (m + n) s = runSteps n t := by
  induction m with
  | zero => intro s t h; cases h; simp
  | succ m ih =>
    intro s t h
    rw [Nat.succ_add]
    simp only [runSteps] at h ⊢
    cases hs : step s with
    | next u => rw [hs] at h; simp only at h ⊢; exact ih u t h
    | fault r => rw [hs] at h; cases h
    | refused r => rw [hs] at h; cases h

/-- With nothing in the agenda the core moves alone. -/
theorem runSteps_alone (n : Nat) : ∀ s : State, s.agenda = [] → runSteps n s = .next (coreSteps n s) := by
  induction n with
  | zero => intro s _; rfl
  | succ n ih =>
    intro s h
    obtain ⟨t, ht⟩ := performCore_next s
    simp only [runSteps, step_nil s h, ht, coreSteps]
    exact ih t ((performCore_ownFields ht).1.trans h)

theorem coreSteps_succ (n : Nat) : ∀ s t : State, perform .core (coreSteps n s) = .next t → coreSteps (n + 1) s = t := by
  induction n with
  | zero => intro s t h; simp only [coreSteps] at h ⊢; simp [h]
  | succ n ih =>
    intro s t h
    obtain ⟨u, hu⟩ := performCore_next s
    have h1 : coreSteps (n + 1) s = coreSteps n u := by simp only [coreSteps, hu]
    have h2 : coreSteps (n + 1 + 1) s = coreSteps (n + 1) u := by rw [coreSteps, hu]
    rw [h1] at h
    rw [h2]
    exact ih u t h

theorem coreSteps_add (m n : Nat) : ∀ s : State, coreSteps (m + n) s = coreSteps n (coreSteps m s) := by
  induction m with
  | zero => intro s; simp [coreSteps]
  | succ m ih =>
    intro s
    obtain ⟨t, ht⟩ := performCore_next s
    rw [Nat.succ_add]
    simp only [coreSteps, ht]
    exact ih t

/-- Outside BUSY any number of core moves changes nothing. -/
theorem coreSteps_held (n : Nat) (s : State) (h : s.phase ≠ .busy) : coreSteps n s = s := by
  induction n with
  | zero => rfl
  | succ n ih =>
    obtain ⟨t, ht⟩ := performCore_next s
    obtain rfl := performCore_stays ht h
    simp only [coreSteps, ht, ih]

/-! ### A served frame -/

/-- After `k` core moves of a served frame, `k` up to its pixels: the scan has read `k` of them, or the frame has ended. -/
theorem coreSteps_at {px : Nat → Nat → Pixel} {u : State} (h0 : FrameAt px u 0 u) (hw : 0 < u.width.toNat)
    (hw2 : u.width.toNat < 32768) (hh : 0 < u.height.toNat) (hbpr : u.bpr.toNat = (u.width.toNat + 7) / 8)
    (hs : servesGrid u.grid u.width.toNat u.height.toNat px) (k : Nat) (hk : k ≤ u.width.toNat * u.height.toNat) :
    (k < u.width.toNat * u.height.toNat ∧ FrameAt px u k (coreSteps k u)) ∨
    (k = u.width.toNat * u.height.toNat ∧ FrameDone px u (coreSteps k u)) ∨ FrameRaised px u (coreSteps k u) := by
  induction k with
  | zero => exact .inl ⟨Nat.mul_pos hw hh, h0⟩
  | succ k ih =>
    rcases ih (by omega) with ⟨hlt, h⟩ | ⟨heq, -⟩ | h
    · have hcol := Nat.mod_lt k hw
      have hrow : k / u.width.toNat < u.height.toNat := Nat.div_lt_of_lt_mul hlt
      have hg : (coreSteps k u).grid = u.grid := h.frame.2.2.2.2.2.2.2.1
      have hp : pixRead (coreSteps k u).grid (coreSteps k u).col.toNat (coreSteps k u).row.toNat =
          some (px (k % u.width.toNat) (k / u.width.toNat)) := by
        rw [hg, h.col, h.row]; exact hs _ _ hcol hrow
      have hv : pixelAddressValid (coreSteps k u) = true := by
        simp only [pixelAddressValid, h.frame.2.2.1, h.frame.2.2.2.1, h.col, h.row, hcol, hrow, decide_true, Bool.and_self]
      have hstep : perform .core (coreSteps k u) =
          .next (pixStep (px (k % u.width.toNat) (k / u.width.toNat)) (coreSteps k u)).state := by
        rw [performCore_eq, if_pos h.busy]
        simp [pixCore, hv, hp, Flow.outcome]
      rw [coreSteps_succ k u _ hstep]
      rcases pixStep_at h hw hw2 hbpr hlt with h1 | h1 | h1
      · exact .inl h1
      · exact .inr (.inl h1)
      · exact .inr (.inr h1)
    · omega
    · obtain ⟨t, ht⟩ := performCore_next (coreSteps k u)
      have hb : (coreSteps k u).phase ≠ .busy := by rw [h.err]; decide
      obtain rfl := performCore_stays ht hb
      rw [coreSteps_succ k u _ ht]
      exact .inr (.inr h)

/-- The host's START is the access it encodes. -/
theorem step_start (s : State) (hi : BitVec 30) (rest : List Event) :
    step { s with agenda := startEvent hi :: rest } = exec (.wrCtrlStart hi) { s with agenda := rest } := by
  have hd : decodeWord .hreg (encode (.wrCtrlStart hi)) = .ok (.wrCtrlStart hi) := Laws.RoundTrip.wrCtrlStart hi rfl
  rw [startEvent, step_cons]
  simp only [perform, runWord, hd]

/-- START of a frame with pixels begins the scan. -/
theorem step_start_scan (s : State) (hi : BitVec 30) (rest : List Event) (hp : s.phase = .idle) (hw : 0 < s.width.toInt)
    (hh : 0 < s.height.toInt) :
    step { s with agenda := startEvent hi :: rest } = .next (beginScan (startSized { s with agenda := rest })) := by
  have h1 := (negativeDim_false_iff_toInt s.width).mpr (by omega)
  have h2 := (negativeDim_false_iff_toInt s.height).mpr (by omega)
  have h3 := (ne_zero_iff_toNat s.width).mpr ((toInt_pos_iff _).mp hw).1
  have h4 := (ne_zero_iff_toNat s.height).mpr ((toInt_pos_iff _).mp hh).1
  rw [step_start]
  have h5 : exec (.wrCtrlStart hi) { s with agenda := rest } = (startFrame { s with agenda := rest }).outcome := if_pos hp
  rw [h5, startFrame_scan { s with agenda := rest } h1 h2 h3 h4]
  rfl

/-- START of a frame with pixels: the scan is at its beginning. -/
theorem frameAt_start (px : Nat → Nat → Pixel) (s : State) :
    FrameAt px (beginScan (startSized s)) 0 (beginScan (startSized s)) := by
  have hm : 0 % (beginScan (startSized s)).width.toNat = 0 := Nat.zero_mod _
  have hd : 0 / (beginScan (startSized s)).width.toNat = 0 := Nat.zero_div _
  constructor
  · unfold beginScan; split <;> rfl
  · rw [hm]; unfold beginScan; split <;> rfl
  · rw [hd]; unfold beginScan; split <;> rfl
  · rw [hm]; unfold beginScan; split <;> rfl
  · rw [hm]; unfold beginScan; split <;> rfl
  · rw [hm, hd]
    unfold EmitAt
    split
    · rename_i h
      have hr : s.hasRle = true := by
        have h2 : compEnabled (beginScan (startSized s)) = (s.hasRle && s.compEn) := by unfold beginScan; split <;> rfl
        rw [h2] at h; exact (Bool.and_eq_true _ _ ▸ h).1
      have h2 : beginScan (startSized s) = { startSized s with
          acc := 0#8, nbits := 0#3, col := 0#16, row := 0#16, phase := .busy, run := 1#14, fresh := true, line := [], prevValid := false } := by
        unfold beginScan; simp only [show (startSized s).hasRle = true from hr, if_true]
      rw [h2]
      exact ⟨.inl ⟨rfl, rfl, rfl, rfl⟩, rfl, rfl⟩
    · unfold beginScan; split <;> rfl
  · exact ⟨rfl, rfl, rfl, rfl, rfl, rfl, rfl, rfl, rfl, rfl⟩
  · unfold beginScan; split <;> exact ⟨rfl, rfl⟩

end Sys2Proof.Machine
end

