-- ==== Sys2Proof/Tests/Slice0.lean ====
section
/-! SUPPORT. The model's own tests. Expected results are those of 95_test_vectors.md (its section in the comment) or written out
from the rule named. The theorems `witness_…` show, for each statement of Obligations.lean that has hypotheses, a state and operands
that meet them. -/

namespace Sys2Proof.Tests

open Sys2Proof.Machine

/-! ### Helpers -/

/-- A word decodes to an operation. -/
def decodesTo (sp : Space) (w : Nat) (i : Instr) : Bool :=
  match decodeWord sp (BitVec.ofNat 48 w) with
  | .ok j => i == j
  | .error _ => false

/-- A word is rejected, for this reason. -/
def rejects (sp : Space) (w : Nat) (e : DecodeError) : Bool :=
  match decodeWord sp (BitVec.ofNat 48 w) with
  | .ok _ => false
  | .error d => d == e

/-- The outcome is a next state that meets `p`. -/
def goesTo (o : Host.Outcome State Fault Refusal) (p : State → Bool) : Bool :=
  match o with
  | .next t => p t
  | _ => false

/-- The outcome is a refusal. -/
def isRefused : Host.Outcome State Fault Refusal → Bool
  | .refused _ => true
  | _ => false

/-- A state in IDLE with dimensions. -/
def idleWith (w h : Nat) (comp : Bool) (grid : Memory) : State :=
  { State.reset with width := BitVec.ofNat 16 w, height := BitVec.ofNat 16 h, compEn := comp, grid := grid }

/-- A state in BUSY just after START, RLE fresh. -/
def busyWith (w h : Nat) (comp : Bool) (grid : Memory) : State :=
  { idleWith w h comp grid with
    phase := .busy, bpr := BitVec.ofNat 13 ((w + 7) / 8), total := BitVec.ofNat 32 ((w + 7) / 8 * h), run := 1#14, fresh := true }

/-- One sample at (col, row). -/
def sampleAt (col row : Nat) (r g b : Byte) : Memory :=
  [((row * 65536 + col) * 3, r), ((row * 65536 + col) * 3 + 1, g), ((row * 65536 + col) * 3 + 2, b)]

/-- The RLE state of a row of 95_test_vectors.md 2.5 (BPR 2), BUSY with compression. -/
def rleWith (pend : Byte) (run : Nat) (line prev : List Byte) (valid : Bool) : State :=
  { busyWith 16 5 true [] with
    pend := pend, run := BitVec.ofNat 14 run, fresh := false, line := line, prev := prev, prevValid := valid }

/-- Two by two samples: black, white above white, black. -/
def checkerGrid : Memory := sampleAt 0 0 0 0 0 ++ sampleAt 1 0 255 255 255 ++ sampleAt 0 1 255 255 255 ++ sampleAt 1 1 0 0 0

def checker (x y : Nat) : Pixel := if x = y then ⟨0#8, 0#8, 0#8⟩ else ⟨255#8, 255#8, 255#8⟩

/-! ### WellFormed refuses ill-formed terms -/

theorem test_wellFormed_rsvd28_offset : wellFormed (.rsvd28 true 0x30#8 0#32) = false := by decide
theorem test_wellFormed_rsvd28_misaligned : wellFormed (.rsvd28 true 0x29#8 0#32) = false := by decide
theorem test_wellFormed_rsvd28_readData : wellFormed (.rsvd28 false 0x28#8 1#32) = false := by decide
theorem test_wellFormed_rsvd30_offset : wellFormed (.rsvd30 true 0x40#8 0#32) = false := by decide
theorem test_wellFormed_rsvd30_misaligned : wellFormed (.rsvd30 false 0x32#8 0#32) = false := by decide
theorem test_wellFormed_rsvd30_readData : wellFormed (.rsvd30 false 0x30#8 7#32) = false := by decide
theorem test_wellFormed_rsvd40_offset : wellFormed (.rsvd40 true 0x80#8 0#32) = false := by decide
theorem test_wellFormed_rsvd40_misaligned : wellFormed (.rsvd40 true 0x43#8 0#32) = false := by decide
theorem test_wellFormed_rsvd40_readData : wellFormed (.rsvd40 false 0x7C#8 1#32) = false := by decide
theorem test_wellFormed_rsvd80_offset : wellFormed (.rsvd80 true 0x7C#8 0#32) = false := by decide
theorem test_wellFormed_rsvd80_misaligned : wellFormed (.rsvd80 true 0xFF#8 0#32) = false := by decide
theorem test_wellFormed_rsvd80_readData : wellFormed (.rsvd80 false 0xFC#8 1#32) = false := by decide
theorem test_wellFormed_accepts : (wellFormed (.rsvd28 false 0x2C#8 0#32) && wellFormed (.rsvd30 true 0x3C#8 9#32) &&
    wellFormed (.rsvd40 true 0x40#8 9#32) && wellFormed (.rsvd80 false 0x80#8 0#32) && wellFormed .pix) = true := by decide

/-! ### Decoding: words written out from 30_encoding.md R104 to R109, R95. HREG is WR at bit 10, OFF at 9:2, CMD at 1:0. -/

theorem test_decode_ctrl :
    (decodesTo .hreg 0b1_00000000_00 (.wrCtrlNop 0#30) && decodesTo .hreg 0b1_00000000_01 (.wrCtrlStart 0#30) &&
      decodesTo .hreg 0b1_00000000_10 (.wrCtrlClear 0#30) && decodesTo .hreg 0b1_00000000_11 (.wrCtrlRsvd 0#30) &&
      decodesTo .hreg 0b0_00000000_00 .rdCtrl && decodesTo .hreg 0b0_00000000_11 .rdCtrl &&
      decodesTo .hreg 0x1_0401 (.wrCtrlStart 1#30)) = true := by decide
theorem test_decode_status_pct_thresh :
    (decodesTo .hreg 0b0_00000100_10 .rdStatus && decodesTo .hreg 0b1_00000100_11 (.wrStatus 3#32) &&
      decodesTo .hreg 0x8_0421 (.wrPct 0x21#32) && decodesTo .hreg 0b0_00001000_00 .rdPct &&
      decodesTo .hreg 0b0_00001100_00 .rdThresh && decodesTo .hreg 0b1_00001100_00 (.wrThresh 0#32)) = true := by decide
theorem test_decode_configuration :
    (decodesTo .hreg 0b1_00010000_01 (.wrCompEn 1#32) && decodesTo .hreg 0b0_00010000_01 .rdCompEn &&
      decodesTo .hreg 0x2_0450 (.wrWidth 8#32) && decodesTo .hreg 0x3FFF_FFFF_0453 (.wrWidth 0xFFFFFFFF#32) &&
      decodesTo .hreg 0b0_00010100_00 .rdWidth && decodesTo .hreg 0b1_00011000_10 (.wrHeight 2#32) &&
      decodesTo .hreg 0b0_00011000_00 .rdHeight) = true := by decide
theorem test_decode_results :
    (decodesTo .hreg 0b0_00011100_00 .rdBpr && decodesTo .hreg 0b1_00011100_00 (.wrBpr 0#32) &&
      decodesTo .hreg 0b0_00100000_00 .rdTotal && decodesTo .hreg 0b1_00100000_00 (.wrTotal 0#32) &&
      decodesTo .hreg 0b0_00100100_00 .rdErrInfo && decodesTo .hreg 0b1_00100100_01 (.wrErrInfo 1#32)) = true := by decide
theorem test_decode_reserved :
    (decodesTo .hreg 0b0_00101000_00 (.rsvd28 false 0x28#8 0#32) && decodesTo .hreg 0b1_00101100_01 (.rsvd28 true 0x2C#8 1#32) &&
      decodesTo .hreg 0b1_00110000_00 (.rsvd30 true 0x30#8 0#32) && decodesTo .hreg 0b0_00111100_00 (.rsvd30 false 0x3C#8 0#32) &&
      decodesTo .hreg 0b0_01000000_00 (.rsvd40 false 0x40#8 0#32) && decodesTo .hreg 0b1_01111100_00 (.rsvd40 true 0x7C#8 0#32) &&
      decodesTo .hreg 0b0_10000000_00 (.rsvd80 false 0x80#8 0#32) &&
      decodesTo .hreg 0b1_11111100_11 (.rsvd80 true 0xFC#8 3#32)) = true := by decide
theorem test_decode_seq :
    (decodesTo .seq 0b00 .holdIdle && decodesTo .seq 0b01 .pix && decodesTo .seq 0b10 .holdDone &&
      decodesTo .seq 0b11 .holdErr) = true := by decide
theorem test_decode_uopR :
    (decodesTo (.uopR .classify) 0xC8_6450_0000 (.classify ⟨false, false, false⟩ ⟨0xC8#8, 0x64#8, 0x50#8⟩) &&
      decodesTo (.uopR .pack) 0x1_0004 (.pack ⟨true, false, false⟩ true) &&
      decodesTo (.uopR .emitFull) 0b101 (.emitbyteFull false true) &&
      decodesTo (.uopR .emitLastcol) 0b010 (.emitbyteLastcol false false) &&
      decodesTo (.uopR .rowend) 0b011 (.rowend false true) && decodesTo (.uopR .frameend) 0b111 (.frameend true)) = true := by
  decide
theorem test_decode_uopC :
    (decodesTo .uopC 0xF_0100 (.rseed false (.digit 0xF#4)) == false && decodesTo .uopC 0xF_0004 (.rseed false (.digit 0xF#4)) &&
      decodesTo .uopC 0b111 (.rseed true .rowBreak) && decodesTo .uopC 0b010 (.rrowbrk false) && decodesTo .uopC 0b001 .rsame &&
      decodesTo .uopC 0x8_0000 (.rbound 8#4)) = true := by decide
theorem test_decode_hex :
    (decodesTo .sym8 0x30 .hex0 && decodesTo .sym8 0x31 .hex1 && decodesTo .sym8 0x32 .hex2 && decodesTo .sym8 0x33 .hex3 &&
      decodesTo .sym8 0x34 .hex4 && decodesTo .sym8 0x35 .hex5 && decodesTo .sym8 0x36 .hex6 && decodesTo .sym8 0x37 .hex7 &&
      decodesTo .sym8 0x38 .hex8 && decodesTo .sym8 0x39 .hex9 && decodesTo .sym8 0x41 .hexA && decodesTo .sym8 0x42 .hexB &&
      decodesTo .sym8 0x43 .hexC && decodesTo .sym8 0x44 .hexD && decodesTo .sym8 0x45 .hexE && decodesTo .sym8 0x46 .hexF) = true := by
  decide
theorem test_decode_unitLetters :
    (decodesTo .sym8 0x47 .cntG && decodesTo .sym8 0x48 .cntH && decodesTo .sym8 0x49 .cntI && decodesTo .sym8 0x4A .cntJ &&
      decodesTo .sym8 0x4B .cntK && decodesTo .sym8 0x4C .cntL && decodesTo .sym8 0x4D .cntM && decodesTo .sym8 0x4E .cntN &&
      decodesTo .sym8 0x4F .cntO && decodesTo .sym8 0x50 .cntP && decodesTo .sym8 0x51 .cntQ && decodesTo .sym8 0x52 .cntR &&
      decodesTo .sym8 0x53 .cntS && decodesTo .sym8 0x54 .cntT && decodesTo .sym8 0x55 .cntU && decodesTo .sym8 0x56 .cntV &&
      decodesTo .sym8 0x57 .cntW && decodesTo .sym8 0x58 .cntX && decodesTo .sym8 0x59 .cntY) = true := by decide
theorem test_decode_twentyLetters :
    (decodesTo .sym8 0x67 .cnt20g && decodesTo .sym8 0x68 .cnt20h && decodesTo .sym8 0x69 .cnt20i && decodesTo .sym8 0x6A .cnt20j &&
      decodesTo .sym8 0x6B .cnt20k && decodesTo .sym8 0x6C .cnt20l && decodesTo .sym8 0x6D .cnt20m && decodesTo .sym8 0x6E .cnt20n &&
      decodesTo .sym8 0x6F .cnt20o && decodesTo .sym8 0x70 .cnt20p && decodesTo .sym8 0x71 .cnt20q && decodesTo .sym8 0x72 .cnt20r &&
      decodesTo .sym8 0x73 .cnt20s && decodesTo .sym8 0x74 .cnt20t && decodesTo .sym8 0x75 .cnt20u && decodesTo .sym8 0x76 .cnt20v &&
      decodesTo .sym8 0x77 .cnt20w && decodesTo .sym8 0x78 .cnt20x && decodesTo .sym8 0x79 .cnt20y &&
      decodesTo .sym8 0x7A .cnt20z) = true := by decide
theorem test_decode_marks :
    (decodesTo .sym8 0x2C .fill0 && decodesTo .sym8 0x21 .fill1 && decodesTo .sym8 0x3A .rowRepeat && decodesTo .sym8 0x0A .rb) = true := by
  decide
/-- R217, R112: an offset that is no word offset, codes the core never produces, bits outside the format. -/
theorem test_decode_rejects :
    (rejects .hreg 0b0_00000001_00 .misalignedOffset && rejects .hreg 0b1_11111111_00 .misalignedOffset &&
      rejects .hreg 0x800 .strayBits && rejects .hreg 0x1_0010 .strayBits && rejects .seq 4 .strayBits && rejects .uopC 8 .strayBits &&
      rejects (.uopR .emitFull) 0b011 .rowNotSelected && rejects (.uopR .frameend) 0b110 .rowNotSelected &&
      rejects .sym8 0x61 .unknownSymbol && rejects .sym8 0x5A .unknownSymbol && rejects .sym8 0x0D .unknownSymbol &&
      rejects .sym8 0x20 .unknownSymbol && rejects .sym8 0x130 .strayBits) = true := by decide
/-- The table's words, by the host's numbering. -/
theorem test_decodeTableWord :
    decodeTableWord 16 0x401 = some (.wrCtrlStart 0#30) ∧ decodeTableWord 16 0x0A0 = some (.rsvd28 false 0x28#8 0#32) ∧
      decodeTableWord 8 1 = some .pix ∧ decodeTableWord 8 0x67 = some .cnt20g ∧ decodeTableWord 8 5 = some (.rseed true (.digit 0#4)) ∧
      decodeTableWord 16 0x004 = none := by decide

/-! ### Register accesses (95_test_vectors.md 2.6) -/

theorem test_rdStatus_reset : goesTo (exec .rdStatus State.reset) (fun t => t.rdata == 0x100#32) = true := by decide
theorem test_rdStatus_err : goesTo (exec .rdStatus { State.reset with phase := .err, errCause := .invalidDimension })
    (fun t => t.rdata == 0x113#32) = true := by decide
theorem test_rdStatus_noRle : goesTo (exec .rdStatus { State.reset with hasRle := false }) (fun t => t.rdata == 0#32) = true := by decide
theorem test_rdThresh_reset : goesTo (exec .rdThresh State.reset) (fun t => t.rdata == 0x17C#32) = true := by decide
theorem test_rdZeros_reset :
    ([.rdCompEn, .rdWidth, .rdHeight, .rdBpr, .rdTotal, .rdErrInfo, .rdCtrl, .rdPct].all fun i =>
      goesTo (exec i { State.reset with rdata := 7#32 }) (fun t => t.rdata == 0#32)) = true := by decide
theorem test_wrPct : ([(0, 0), (1, 7), (2, 15), (13, 99), (33, 253), (49, 376), (50, 384), (51, 391), (99, 760), (100, 768),
    (101, 775), (200, 1536), (255, 1958), (0x100, 0), (0x132, 384)].all fun (p, n) =>
      goesTo (exec (.wrPct (BitVec.ofNat 32 p)) State.reset) (fun t => t.thresh == BitVec.ofNat 11 n)) = true := by decide
theorem test_wrWidth : goesTo (exec (.wrWidth 0x10008#32) State.reset) (fun t => t.width == 8#16) = true := by decide
theorem test_rdWidth_negative : goesTo (exec .rdWidth { State.reset with width := 0xFFFF#16 }) (fun t => t.rdata == 0xFFFF#32) = true := by
  decide
theorem test_wrHeight : goesTo (exec (.wrHeight 0x30002#32) State.reset) (fun t => t.height == 2#16 && t.width == 0#16) = true := by decide
theorem test_rdHeight : goesTo (exec .rdHeight { State.reset with width := 9#16, height := 3#16 }) (fun t => t.rdata == 3#32) = true := by decide
theorem test_wrCompEn : exec (.wrCompEn 2#32) State.reset = .next State.reset := rfl
theorem test_wrCompEn_noRle : exec (.wrCompEn 1#32) { State.reset with hasRle := false } = .next { State.reset with hasRle := false } := rfl
theorem test_rdCompEn : goesTo (exec .rdCompEn { State.reset with compEn := true }) (fun t => t.rdata == 1#32) = true := by decide
theorem test_rdBpr_rdTotal : (goesTo (exec .rdBpr (busyWith 10 3 false [])) (fun t => t.rdata == 2#32) &&
    goesTo (exec .rdTotal (busyWith 10 3 false [])) (fun t => t.rdata == 6#32)) = true := by decide
theorem test_rdErrInfo : goesTo (exec .rdErrInfo { State.reset with errInfo := 402#14 }) (fun t => t.rdata == 402#32) = true := by decide
theorem test_busy_ignores_writes :
    ([.wrPct 0#32, .wrCompEn 1#32, .wrWidth 16#32, .wrHeight 1#32, .wrCtrlStart 0#30, .wrCtrlClear 0#30].all fun i =>
      goesTo (exec i (busyWith 8 2 false [])) (fun t => t == busyWith 8 2 false [])) = true := by decide
theorem test_ignored_writes :
    ([.wrCtrlNop 0x3FFFFFFF#30, .wrCtrlRsvd 0#30, .wrStatus 1#32, .wrThresh 1#32, .wrBpr 1#32, .wrTotal 1#32, .wrErrInfo 1#32,
      .wrCtrlClear 0#30, .rsvd28 true 0x28#8 1#32, .rsvd30 true 0x30#8 1#32, .rsvd40 true 0x40#8 1#32, .rsvd80 true 0xFC#8 1#32].all
        fun i => goesTo (exec i State.reset) (fun t => t == State.reset)) = true := by decide
theorem test_reserved_reads :
    ([.rsvd28 false 0x28#8 0#32, .rsvd30 false 0x30#8 0#32, .rsvd40 false 0x40#8 0#32, .rsvd80 false 0x80#8 0#32].all fun i =>
      goesTo (exec i { State.reset with rdata := 7#32 }) (fun t => t.rdata == 0#32)) = true := by decide
theorem test_done_start_clear :
    (goesTo (exec (.wrCtrlStart 0#30) { busyWith 8 2 false [] with phase := .done })
        (fun t => t == { busyWith 8 2 false [] with phase := .done }) &&
      goesTo (exec (.wrCtrlClear 0#30) { busyWith 8 2 false [] with phase := .done, out := [0x46#8] })
        (fun t => t == { busyWith 8 2 false [] with phase := .idle, out := [0x46#8] })) = true := by decide

/-! ### START, errors, reset (95_test_vectors.md 2.7) -/

theorem test_start_busy : goesTo (exec (.wrCtrlStart 1#30) { idleWith 8 2 false [] with out := [0x30#8] })
    (fun t => t.phase == .busy && t.bpr == 1#13 && t.total == 2#32 && t.out == [] && t.run == 1#14 && t.fresh) = true := by decide
theorem test_start_zero :
    ([(0, 5, 0, 0), (9, 0, 2, 0), (0, 0, 0, 0)].all fun (w, h, b, n) => goesTo (exec (.wrCtrlStart 0#30) (idleWith w h false []))
      (fun t => t.phase == .done && t.bpr == BitVec.ofNat 13 b && t.total == BitVec.ofNat 32 n && t.out == [])) = true := by decide
theorem test_start_negative :
    ([(0xFFFF, 2), (8, 0x8000), (0xFFFF, 0)].all fun (w, h) =>
      goesTo (exec (.wrCtrlStart 0#30) { idleWith w h false [] with bpr := 5#13, out := [0x30#8] })
        (fun t => t.phase == .err && t.errCause == .invalidDimension && t.errInfo == 0#14 && t.bpr == 5#13 && t.out == [])) = true := by
  decide
theorem test_start_largest : goesTo (exec (.wrCtrlStart 0#30) (idleWith 32767 32767 false []))
    (fun t => t.phase == .busy && t.bpr == 4096#13 && t.total == 0x07FFF000#32) = true := by decide
theorem test_reset_while_busy : goesTo (step { busyWith 8 2 true [] with thresh := 5#11, out := [0x46#8], agenda := [.reset] })
    (fun t => t == State.reset) = true := by decide

/-! ### The core's step (95_test_vectors.md P1, P2) -/

theorem test_holds : (goesTo (exec .holdIdle State.reset) (· == State.reset) &&
    goesTo (exec .holdDone { State.reset with phase := .done }) (· == { State.reset with phase := .done }) &&
    goesTo (exec .holdErr { State.reset with phase := .err }) (· == { State.reset with phase := .err })) = true := by decide
/-- Step 1 of P1. -/
theorem test_pix_first : goesTo (step (busyWith 8 2 false (sampleAt 0 0 0 0 0)))
    (fun t => t.acc == 0x80#8 && t.nbits == 1#3 && t.col == 1#16 && t.row == 0#16 && t.out == [] && t.phase == .busy) = true := by decide
/-- Step 16 of P1. -/
theorem test_pix_last :
    goesTo (step { busyWith 8 2 false (sampleAt 7 1 255 255 255) with
        acc := 0xF0#8, nbits := 7#3, col := 7#16, row := 1#16, out := [0x46#8, 0x30#8, 0x0A#8] })
      (fun t => t.acc == 0#8 && t.nbits == 0#3 && t.col == 0#16 && t.row == 1#16 && t.phase == .done &&
        t.out == [0x46#8, 0x30#8, 0x0A#8, 0x46#8, 0x30#8, 0x0A#8]) = true := by decide
/-- Step 8 of P2. -/
theorem test_pix_compressed :
    goesTo (step { busyWith 8 2 true (sampleAt 7 0 255 255 255) with acc := 0xF0#8, nbits := 7#3, col := 7#16 })
      (fun t => t.pend == 0x30#8 && t.run == 1#14 && t.fresh && t.line == [] && t.prev == [0x47#8, 0x46#8, 0x47#8, 0x30#8] &&
        t.prevValid && t.out == [0x47#8, 0x46#8, 0x47#8, 0x30#8] && t.row == 1#16) = true := by decide
/-- R62: the pixel source does not answer. -/
theorem test_pix_unanswered : goesTo (step (busyWith 8 2 false [])) (· == busyWith 8 2 false []) = true := by decide

/-! ### Micro-operations (95_test_vectors.md 2.1, 2.2, 2.3, 2.5) -/

theorem test_classify :
    ([(200, 100, 80, 380, true), (200, 100, 81, 380, false), (0, 0, 0, 0, true), (1, 0, 0, 0, false), (0, 0, 1, 0, false),
      (255, 255, 255, 768, true), (255, 255, 255, 765, true), (255, 255, 255, 764, false), (255, 255, 255, 1958, true),
      (128, 128, 128, 380, false), (128, 128, 128, 384, true)].all fun (r, g, b, n, black) =>
        goesTo (exec (.classify ⟨false, false, false⟩ ⟨BitVec.ofNat 8 r, BitVec.ofNat 8 g, BitVec.ofNat 8 b⟩)
          { busyWith 8 2 false [] with thresh := BitVec.ofNat 11 n }) (fun t => t.bit == black)) = true := by decide
theorem test_pack : (goesTo (exec (.pack ⟨false, false, false⟩ true) { busyWith 8 2 false [] with acc := 0xC0#8, nbits := 2#3 })
    (fun t => t.acc == 0xE0#8 && t.nbits == 2#3) && goesTo (exec (.pack ⟨true, false, false⟩ true)
      { busyWith 8 2 false [] with acc := 0xF0#8, nbits := 7#3 }) (fun t => t.acc == 0xF1#8)) = true := by decide
theorem test_emitbyteFull : goesTo (exec (.emitbyteFull false false) { busyWith 16 1 false [] with acc := 0xA8#8, nbits := 7#3 })
    (fun t => t.out == [0x41#8, 0x38#8] && t.acc == 0#8 && t.nbits == 0#3) = true := by decide
theorem test_emitbyteLastcol : goesTo (exec (.emitbyteLastcol false true) { busyWith 1 1 true [] with acc := 0x80#8 })
    (fun t => t.out == [] && t.line == [0x47#8, 0x38#8] && t.pend == 0x30#8 && t.run == 1#14 && !t.fresh) = true := by decide
theorem test_rowend : (goesTo (exec (.rowend true false) { busyWith 8 2 false [] with col := 7#16 })
    (fun t => t.out == [0x0A#8] && t.col == 0#16 && t.row == 1#16 && t.phase == .busy) &&
    goesTo (exec (.rowend true true) { busyWith 8 2 false [] with col := 7#16, row := 1#16 })
      (fun t => t.col == 0#16 && t.row == 1#16 && t.phase == .done)) = true := by decide
theorem test_frameend : goesTo (exec (.frameend true) (busyWith 8 2 false [])) (fun t => t.phase == .done) = true := by decide
theorem test_rseed : goesTo (exec (.rseed true (.digit 0#4)) { rleWith 0x30#8 1 [] [] true with fresh := true })
    (fun t => t.pend == 0x30#8 && t.run == 1#14 && !t.fresh && t.out == []) = true := by decide
theorem test_rsame : goesTo (exec .rsame (rleWith 0x46#8 1 [] [] false)) (fun t => t == rleWith 0x46#8 2 [] [] false) = true := by decide
theorem test_rbound : goesTo (exec (.rbound 8#4) (rleWith 0x46#8 2 [] [] false))
    (fun t => t == rleWith 0x38#8 1 [0x48#8, 0x46#8] [] false) = true := by decide
theorem test_rbound_raises : goesTo (exec (.rbound 0xF#4) (rleWith 0x30#8 401 [] [] false))
    (fun t => t.phase == .err && t.errCause == .encodingRange && t.errInfo == 401#14 && t.out == []) = true := by decide
theorem test_rrowbrk_fill_repeat :
    (goesTo (exec (.rrowbrk false) (rleWith 0x30#8 4 [] [0x2C#8] true))
        (fun t => t.out == [0x3A#8] && t.prev == [0x2C#8] && t.line == [] && t.run == 1#14 && t.fresh) &&
      goesTo (exec (.rrowbrk false) (rleWith 0x46#8 4 [] [0x2C#8] true)) (fun t => t.out == [0x21#8] && t.prev == [0x21#8])) = true := by
  decide
theorem test_rrowbrk_normal :
    (goesTo (exec (.rrowbrk false) (rleWith 0x30#8 3 [0x47#8, 0x38#8] [] false))
        (fun t => t.out == [0x47#8, 0x38#8, 0x49#8, 0x30#8] && t.prevValid) &&
      goesTo (exec (.rrowbrk false) (rleWith 0x41#8 4 [] [0x21#8] true)) (fun t => t.out == [0x4A#8, 0x41#8])) = true := by decide
theorem test_enc :
    ([(1, [0x47#8]), (2, [0x48#8]), (19, [0x59#8]), (20, [0x67#8]), (21, [0x67#8, 0x47#8]), (39, [0x67#8, 0x59#8]), (40, [0x68#8]),
      (59, [0x68#8, 0x59#8]), (61, [0x69#8, 0x47#8]), (100, [0x6B#8]), (399, [0x79#8, 0x59#8]), (400, [0x7A#8])].all fun (n, t) =>
        encodeRun n 0x41#8 == some (t ++ [0x41#8])) = true := by decide
theorem test_enc_none : ([0, 401, 402, 419, 420, 8192].all fun n => encodeRun n 0x41#8 == none) = true := by decide

/-! ### Symbols (20_memory.md R65, R66) -/

theorem test_symbols_raw :
    ([(.hex0, 0x30), (.hex1, 0x31), (.hex2, 0x32), (.hex3, 0x33), (.hex4, 0x34), (.hex5, 0x35), (.hex6, 0x36), (.hex7, 0x37),
      (.hex8, 0x38), (.hex9, 0x39), (.hexA, 0x41), (.hexB, 0x42), (.hexC, 0x43), (.hexD, 0x44), (.hexE, 0x45), (.hexF, 0x46),
      (.rb, 0x0A)].all fun (i, n) => goesTo (exec i { busyWith 8 2 false [] with out := [0x30#8] })
        (fun t => t == { busyWith 8 2 false [] with out := [0x30#8, BitVec.ofNat 8 n] })) = true := by decide
theorem test_symbols_unit :
    ([(.cntG, 0x47), (.cntH, 0x48), (.cntI, 0x49), (.cntJ, 0x4A), (.cntK, 0x4B), (.cntL, 0x4C), (.cntM, 0x4D), (.cntN, 0x4E),
      (.cntO, 0x4F), (.cntP, 0x50), (.cntQ, 0x51), (.cntR, 0x52), (.cntS, 0x53), (.cntT, 0x54), (.cntU, 0x55), (.cntV, 0x56),
      (.cntW, 0x57), (.cntX, 0x58), (.cntY, 0x59)].all fun (i, n) => goesTo (exec i (busyWith 8 2 true []))
        (fun t => t.out == [BitVec.ofNat 8 n])) = true := by decide
theorem test_symbols_twenty :
    ([(.cnt20g, 0x67), (.cnt20h, 0x68), (.cnt20i, 0x69), (.cnt20j, 0x6A), (.cnt20k, 0x6B), (.cnt20l, 0x6C), (.cnt20m, 0x6D),
      (.cnt20n, 0x6E), (.cnt20o, 0x6F), (.cnt20p, 0x70), (.cnt20q, 0x71), (.cnt20r, 0x72), (.cnt20s, 0x73), (.cnt20t, 0x74),
      (.cnt20u, 0x75), (.cnt20v, 0x76), (.cnt20w, 0x77), (.cnt20x, 0x78), (.cnt20y, 0x79), (.cnt20z, 0x7A), (.fill0, 0x2C),
      (.fill1, 0x21), (.rowRepeat, 0x3A)].all fun (i, n) => goesTo (exec i (busyWith 8 2 true []))
        (fun t => t.out == [BitVec.ofNat 8 n])) = true := by decide

/-! ### Whole-frame functions (95_test_vectors.md 1.3, 2.2, 2.4) -/

theorem test_hexBody : hexBody (frameRows checker 380#11 2 2) = [0x38#8, 0x30#8, 0x0A#8, 0x34#8, 0x30#8, 0x0A#8] := by decide
theorem test_compressRows :
    compressRows none [[0x46#8, 0x30#8], [0x30#8, 0x46#8], [0x30#8, 0x46#8], [0x30#8, 0x30#8]] =
      (ascii ['G', 'F', 'G', '0', 'G', '0', 'G', 'F', ':', ','], none) := by decide
theorem test_decodeBody : decodeBody 1 (ascii ['G', 'F', 'G', '0', ':', ',', '!']) =
    ascii ['F', '0', '\n', 'F', '0', '\n', '0', '0', '\n', 'F', 'F', '\n'] := by decide
theorem test_hostText : hostText { busyWith 8 2 false [] with phase := .done, out := ascii ['G', 'F', 'G', '0', ':'] } =
    some (ascii ['^', 'G', 'F', 'A', ',', '2', ',', '2', ',', '1', ',', ' ', 'G', 'F', 'G', '0', ':']) := by decide

/-! ### Refusals -/

theorem test_misaligned_refused : isRefused (step { State.reset with agenda := [.op .hreg 0x004#48] }) = true := by decide
theorem test_supply_refused_busy : isRefused (step { busyWith 8 2 false [] with agenda := [.supply []] }) = true := by decide
theorem test_supply_idle : goesTo (step { State.reset with agenda := [.supply [(2, 5#8), (0, 3#8), (2, 7#8)]] })
    (fun t => t.grid == [(0, 3#8), (2, 7#8)]) = true := by decide

/-! ### Placing a word -/

theorem test_withFetchWord :
    (goesTo (step (State.reset.withFetchWord 16 0x450)) (fun t => t.width == 0#16 && t.agenda == []) &&
      goesTo (step (State.reset.withFetchWord 16 0x453)) (fun t => t.width == 3#16) &&
      goesTo (step (State.reset.withFetchWord 8 0x67)) (fun t => t.out == [0x67#8]) &&
      goesTo (step (State.reset.withFetchWord 8 0x0A)) (fun t => t.out == [0x0A#8]) &&
      goesTo (step (State.reset.withFetchWord 8 1)) (fun t => t.phase == .busy && t.col == 1#16)) = true := by decide

/-! ### Witnesses of hypotheses, one theorem for each statement that has some; a clause each, at its boundary values -/

/-- Mid-row of a wide compressed frame (95_test_vectors.md 2.4): 401 digits '0', then 'F', raise in the last step. -/
def aboutToRaise : State :=
  { busyWith 1608 1 true (sampleAt 1607 0 0 0 0) with
    acc := 0x0E#8, nbits := 7#3, col := 1607#16, run := 400#14, fresh := false, pend := 0x30#8 }

/-- The last pixel of a narrow compressed frame. -/
def lastPixelCompressed : State :=
  { busyWith 16 1 true (sampleAt 15 0 0 0 0) with nbits := 7#3, col := 15#16, run := 2#14, fresh := false, pend := 0x30#8 }

/-- The last pixel of a raw frame of one pixel. -/
def onePixelRaw : State := busyWith 1 1 false (sampleAt 0 0 0 0 0)

theorem inv_onePixelRaw : MachineInv onePixelRaw where
  agenda := fun _ h => absurd h List.not_mem_nil
  grid := by decide
  ranges := ⟨by decide, by decide, by decide, by decide⟩
  errors := ⟨by decide, by decide, by decide, by decide⟩
  scan := fun _ => ⟨by decide, by decide, by decide, by decide, by decide, by decide, by decide, by decide, by decide⟩
  rle := fun _ h => absurd h (by decide)
  raw := fun _ _ => ⟨by decide, by decide⟩

theorem inv_lastPixelCompressed : MachineInv lastPixelCompressed where
  agenda := fun _ h => absurd h List.not_mem_nil
  grid := by decide
  ranges := ⟨by decide, by decide, by decide, by decide⟩
  errors := ⟨by decide, by decide, by decide, by decide⟩
  scan := fun _ => ⟨by decide, by decide, by decide, by decide, by decide, by decide, by decide, by decide, by decide⟩
  rle := fun _ _ => ⟨by decide, by decide, by decide, by decide, by decide, by decide, by decide, by decide⟩
  raw := fun _ h => absurd h (by decide)

theorem inv_aboutToRaise : MachineInv aboutToRaise where
  agenda := fun _ h => absurd h List.not_mem_nil
  grid := by decide
  ranges := ⟨by decide, by decide, by decide, by decide⟩
  errors := ⟨by decide, by decide, by decide, by decide⟩
  scan := fun _ => ⟨by decide, by decide, by decide, by decide, by decide, by decide, by decide, by decide, by decide⟩
  rle := fun _ _ => ⟨by decide, by decide, by decide, by decide, by decide, by decide, by decide, by decide⟩
  raw := fun _ h => absurd h (by decide)

theorem serves_onePixel : servesGrid (sampleAt 0 0 0 0 0) 1 1 checker := by
  intro x y hx hy
  obtain rfl : x = 0 := by omega
  obtain rfl : y = 0 := by omega
  decide

theorem serves_checker : servesGrid checkerGrid 2 2 checker := by
  intro x y hx hy
  have h : ∀ a : Fin 2, ∀ b : Fin 2, pixRead checkerGrid a b = some (checker a b) := by decide
  exact h ⟨x, hx⟩ ⟨y, hy⟩

/-- An access in the agenda is the operation it decodes to. -/
theorem accesses_word (w : Word) (i : Instr) (s : State) (h : s.agenda = [.op .hreg w]) (hd : decodeWord .hreg w = .ok i) :
    (headMove s).accesses i := by
  refine ⟨w, ?_, hd⟩
  simp [headMove, nextMove, h]

theorem witness_StatusIsAssembledOnRead :
    State.reset.phase = .idle ∧ onePixelRaw.phase = .busy ∧ { State.reset with phase := .done }.phase = .done ∧
      { State.reset with phase := .err }.phase = .err ∧ State.reset.errCause = .noError ∧
      { State.reset with errCause := .invalidDimension }.errCause = .invalidDimension ∧
      { State.reset with errCause := .encodingRange }.errCause = .encodingRange ∧ State.reset.hasRle = true ∧
      { State.reset with hasRle := false }.hasRle = false := by decide
theorem witness_WritePctSetsThreshold :
    State.reset.phase ≠ .busy ∧ onePixelRaw.phase = .busy ∧ (∃ t, exec (.wrPct 255#32) State.reset = .next t) :=
  ⟨by decide, by decide, _, rfl⟩
theorem witness_CompEnReadAndWrite :
    (State.reset.phase ≠ .busy ∧ State.reset.hasRle = true) ∧ onePixelRaw.phase = .busy ∧
      { State.reset with hasRle := false }.hasRle = false := by decide
theorem witness_DimensionReadAndWrite : State.reset.phase ≠ .busy ∧ onePixelRaw.phase = .busy := by decide
theorem witness_ClearEndsDoneAndErr :
    { State.reset with phase := .done }.phase = .done ∧ { State.reset with phase := .err }.phase = .err ∧
      State.reset.phase = .idle ∧ onePixelRaw.phase = .busy := by decide
theorem witness_EveryRegisterAccessIsAnswered : spaceOf (.rsvd80 true 0xFC#8 0#32) = .hreg := by decide
theorem witness_AccessesWhileBusyChangeNothing :
    (decodeWord .hreg 0x420#48 = .ok (.wrPct 0#32) ∧ onePixelRaw.phase = .busy ∧ ∃ t, exec (.wrPct 0#32) onePixelRaw = .next t) ∧
      (decodeWord .hreg 0x012#48 = .ok .rdStatus ∧ bitOf (0x012#48).toNat 10 = false ∧ ∃ t, exec .rdStatus State.reset = .next t) :=
  ⟨⟨rfl, by decide, _, rfl⟩, rfl, by decide, _, rfl⟩
theorem witness_StartBeginsAFrame :
    onePixelRaw.phase ≠ .idle ∧
      ((idleWith 0x8000 0 false []).phase = .idle ∧ (idleWith 0x8000 0 false []).width.getLsbD 15 = true) ∧
      ((idleWith 1 0xFFFF false []).phase = .idle ∧ (idleWith 1 0xFFFF false []).height.getLsbD 15 = true) ∧
      ((idleWith 0 32767 false []).phase = .idle ∧ (idleWith 0 32767 false []).width.getLsbD 15 = false ∧
        (idleWith 0 32767 false []).height.getLsbD 15 = false ∧ (idleWith 0 32767 false []).width = 0#16) ∧
      ((idleWith 32767 1 false []).phase = .idle ∧ (idleWith 32767 1 false []).width.getLsbD 15 = false ∧
        (idleWith 32767 1 false []).height.getLsbD 15 = false ∧ (idleWith 32767 1 false []).width ≠ 0#16 ∧
        (idleWith 32767 1 false []).height ≠ 0#16 ∧ (idleWith 32767 1 false []).hasRle = true ∧
        { idleWith 32767 1 false [] with hasRle := false }.hasRle = false) := by decide
theorem witness_StartComputesExactSizes :
    (idleWith 32767 32767 true []).phase = .idle ∧ 0 ≤ (idleWith 32767 32767 true []).width.toInt ∧
      0 ≤ (idleWith 32767 32767 true []).height.toInt ∧ ∃ t, exec (.wrCtrlStart 0#30) (idleWith 32767 32767 true []) = .next t :=
  ⟨by decide, by decide, by decide, _, rfl⟩
theorem witness_OperationsOutsideTheirPhaseDoNothing :
    State.reset.phase ≠ .busy ∧ spaceOf (.frameend true) = .uopR .frameend ∧ compEnabled onePixelRaw = false ∧
      spaceOf .rsame = .uopC := by decide
theorem witness_PixRunsItsMicroOperations :
    onePixelRaw.phase = .busy ∧ onePixelRaw.col.toNat < onePixelRaw.width.toNat ∧
      onePixelRaw.row.toNat < onePixelRaw.height.toNat ∧
      pixRead onePixelRaw.grid onePixelRaw.col.toNat onePixelRaw.row.toNat = some ⟨0#8, 0#8, 0#8⟩ := by decide
/-- Mid-byte, full byte, row end, frame end. -/
theorem witness_PixWithoutCompression :
    ([{ busyWith 9 2 false (sampleAt 0 0 0 0 0) with nbits := 0#3 },
      { busyWith 9 2 false (sampleAt 7 0 0 0 0) with nbits := 7#3, col := 7#16 },
      { busyWith 9 2 false (sampleAt 8 0 0 0 0) with nbits := 0#3, col := 8#16 },
      { busyWith 9 2 false (sampleAt 8 1 0 0 0) with nbits := 0#3, col := 8#16, row := 1#16 }].map fun s =>
      (s.phase == .busy && !compEnabled s && decide (s.col.toNat < s.width.toNat) && decide (s.row.toNat < s.height.toNat) &&
        pixRead s.grid s.col.toNat s.row.toNat == some ⟨0#8, 0#8, 0#8⟩,
        s.nbits == 7#3, s.col == s.width - 1#16, s.row == s.height - 1#16)) =
      [(true, false, false, false), (true, true, false, false), (true, false, true, false), (true, false, true, true)] := by decide
theorem witness_PixRaiseLeavesTheRecord :
    MachineInv aboutToRaise ∧ aboutToRaise.phase = .busy ∧ ∃ t, exec .pix aboutToRaise = .next t ∧ t.phase = .err :=
  ⟨inv_aboutToRaise, by decide, _, rfl, by decide⟩
theorem witness_PixWaitsForThePixelSource :
    (busyWith 1 1 false []).phase = .busy ∧ (busyWith 1 1 false []).col.toNat < (busyWith 1 1 false []).width.toNat ∧
      (busyWith 1 1 false []).row.toNat < (busyWith 1 1 false []).height.toNat ∧ pixRead (busyWith 1 1 false []).grid 0 0 = none := by
  decide
theorem witness_ClassifyComparesTheSum :
    onePixelRaw.phase = .busy ∧ 765 ≤ { onePixelRaw with thresh := 765#11 }.thresh.toNat ∧
      { onePixelRaw with thresh := 0#11 }.thresh = 0#11 := by decide
theorem witness_PackSetsOneBit : onePixelRaw.phase = .busy := by decide
/-- Both digits taken; the first raises; the second raises. -/
theorem witness_EmitByteSendsTwoDigits :
    (onePixelRaw.phase = .busy ∧ ∃ t u, emit (hexDigit (onePixelRaw.acc.extractLsb' 4 4)) onePixelRaw = .cont t ∧
      emit (hexDigit (onePixelRaw.acc.extractLsb' 0 4)) t = .cont u) ∧
    ((rleWith 0x41#8 401 [] [] false).phase = .busy ∧
      ∃ t, emit (hexDigit ((rleWith 0x41#8 401 [] [] false).acc.extractLsb' 4 4)) (rleWith 0x41#8 401 [] [] false) = .stop t) ∧
    (∃ t u, emit (hexDigit ({ aboutToRaise with acc := 0x0F#8 }.acc.extractLsb' 4 4)) { aboutToRaise with acc := 0x0F#8 } = .cont t ∧
      emit (hexDigit ({ aboutToRaise with acc := 0x0F#8 }.acc.extractLsb' 0 4)) t = .stop u) :=
  ⟨⟨by decide, _, _, rfl, rfl⟩, ⟨by decide, _, rfl⟩, _, _, rfl, rfl⟩
theorem witness_EmitByteCompletes :
    (onePixelRaw.phase = .busy ∧ compEnabled onePixelRaw = false) ∧
      (compEnabled (busyWith 1 1 true []) = true ∧ (busyWith 1 1 true []).fresh = true ∧
        (busyWith 1 1 true []).acc.extractLsb' 4 4 = (busyWith 1 1 true []).acc.extractLsb' 0 4) ∧
      { busyWith 1 1 true [] with acc := 0x80#8 }.acc.extractLsb' 4 4 ≠ { busyWith 1 1 true [] with acc := 0x80#8 }.acc.extractLsb' 0 4 := by
  decide
theorem witness_RowEndAndFrameEnd :
    (onePixelRaw.phase = .busy ∧ compEnabled onePixelRaw = false ∧ ∃ t, emit 0x0A#8 onePixelRaw = .cont t) ∧
      ((rleWith 0x41#8 401 [] [] false).phase = .busy ∧ ∃ t, emit 0x0A#8 (rleWith 0x41#8 401 [] [] false) = .stop t) :=
  ⟨⟨by decide, by decide, _, rfl⟩, by decide, _, rfl⟩
theorem witness_EmitRoutesByCompEn : compEnabled onePixelRaw = false ∧ compEnabled lastPixelCompressed = true := by decide
/-- Fresh; row-break; the same digit; another digit. -/
theorem witness_RleStepSelectsOneMicroOperation :
    (lastPixelCompressed.phase = .busy ∧ compEnabled lastPixelCompressed = true) ∧ (busyWith 1 1 true []).fresh = true ∧
      lastPixelCompressed.fresh = false ∧ (0x30#8 : Byte) = lastPixelCompressed.pend ∧ (0x30#8 : Byte) ≠ 0x0A#8 ∧
      hexDigit 15#4 ≠ lastPixelCompressed.pend := by decide
theorem witness_SeedAndSameMoveOnlyTheRun : lastPixelCompressed.phase = .busy ∧ compEnabled lastPixelCompressed = true := by decide
/-- RUN 1, 400, 401 and 0. -/
theorem witness_BoundaryEncodesTheRun :
    ([1, 400, 401, 0].map fun n => ((rleWith 0x41#8 n [] [] false).run.toNat, (rleWith 0x41#8 n [] [] false).phase,
      compEnabled (rleWith 0x41#8 n [] [] false))) = [(1, .busy, true), (400, .busy, true), (401, .busy, true), (0, .busy, true)] := by
  decide
/-- A whole row of '0', of 'F', a run of 400 of another digit, the repeated row, and 401 of another digit. -/
theorem witness_RowBreakClosesAndFlushes :
    (2 * (rleWith 0x30#8 4 [] [] false).bpr.toNat ≤ (rleWith 0x30#8 4 [] [] false).run.toNat ∧
      (rleWith 0x30#8 4 [] [] false).pend = 0x30#8) ∧
    (2 * (rleWith 0x46#8 4 [] [] false).bpr.toNat ≤ (rleWith 0x46#8 4 [] [] false).run.toNat ∧
      (rleWith 0x46#8 4 [] [] false).pend = 0x46#8) ∧
    (encodeRun (rleWith 0x41#8 400 [] [0x7A#8, 0x41#8] true).run.toNat 0x41#8 = some [0x7A#8, 0x41#8] ∧
      (rleWith 0x41#8 400 [] [0x7A#8, 0x41#8] true).prevValid = true ∧
      (rleWith 0x41#8 400 [] [0x7A#8, 0x41#8] true).line ++ [0x7A#8, 0x41#8] = (rleWith 0x41#8 400 [] [0x7A#8, 0x41#8] true).prev) ∧
    (400 < (rleWith 0x41#8 401 [] [] false).run.toNat ∧ (rleWith 0x41#8 401 [] [] false).pend ≠ 0x30#8 ∧
      (rleWith 0x41#8 401 [] [] false).pend ≠ 0x46#8) := by decide
theorem witness_EncIsTheRunAlphabet :
    (400 < 401) ∧ (1 ≤ 19 ∧ 19 ≤ 19) ∧ (20 ≤ 20 ∧ 20 ≤ 400 ∧ 20 % 20 = 0) ∧ (400 ≤ 400 ∧ 400 % 20 = 0) ∧ (399 ≤ 400 ∧ 399 % 20 ≠ 0) := by
  decide
theorem witness_RunAlphabetIsBidirectional : alpha 400 = some 0x7A#8 ∧ letterValue 0x47#8 = some 1 := by decide
theorem witness_SymbolsReachTheSink :
    symbolCode .rb = some 0x0A ∧ onePixelRaw.phase = .busy ∧ inAlphabet (compEnabled onePixelRaw) (BitVec.ofNat 8 0x0A) = true ∧
      inAlphabet (compEnabled lastPixelCompressed) (BitVec.ofNat 8 0x0A) = false ∧ State.reset.phase ≠ .busy := by decide
theorem witness_DecodeInvertsEncode : wellFormed (.rsvd80 true 0xFC#8 0xFFFFFFFF#32) = true := by decide
theorem witness_DecodeGivesWellFormed : decodeWord .uopC 0xF0000#48 = .ok (.rbound 0xF#4) := rfl
theorem witness_EverySelectorHasARow : (0xFC#8 : BitVec 8).toNat % 4 = 0 := by decide
theorem witness_MisalignedAccessIsRefused : fieldOf (0x004#48 : Word).toNat 2 2 ≠ 0 := by decide
theorem witness_StepRunsTheDecodedOperation : decodeWord .hreg 0x401#48 = .ok (.wrCtrlStart 0#30) ∧ State.reset.agenda = [] :=
  ⟨rfl, rfl⟩
theorem witness_PlacedWordRunsNext :
    decodeTableWord 16 0x401 = some (.wrCtrlStart 0#30) ∧ spaceOf (.wrCtrlStart 0#30) = .hreg ∧ decodeTableWord 8 1 = some .pix := by
  decide
theorem witness_SupplyServesTheCells : State.reset.phase ≠ .busy ∧ onePixelRaw.phase = .busy := by decide
/-- Every line of R141, and moves outside it. -/
theorem witness_PhaseTransitionsAreTheTable :
    (∃ t, step { idleWith 0x8000 1 false [] with agenda := [.op .hreg 0x401#48] } = .next t ∧ t.phase = .err) ∧
      (∃ t, step { idleWith 0 1 false [] with agenda := [.op .hreg 0x401#48] } = .next t ∧ t.phase = .done) ∧
      (∃ t, step { idleWith 1 1 false [] with agenda := [.op .hreg 0x401#48] } = .next t ∧ t.phase = .busy) ∧
      (headMove onePixelRaw = .core ∧ ∃ t, step onePixelRaw = .next t ∧ t.phase = .done) ∧
      (headMove aboutToRaise = .core ∧ ∃ t, step aboutToRaise = .next t ∧ t.phase = .err) ∧
      (∃ t, step { State.reset with phase := .done, agenda := [.op .hreg 0x402#48] } = .next t ∧ t.phase = .idle) ∧
      (∃ t, step { onePixelRaw with agenda := [.reset] } = .next t ∧ t.phase = .idle) :=
  ⟨⟨_, rfl, rfl⟩, ⟨_, rfl, rfl⟩, ⟨_, rfl, rfl⟩, ⟨rfl, _, rfl, by decide⟩, ⟨rfl, _, rfl, by decide⟩, ⟨_, rfl, rfl⟩, _, rfl, rfl⟩
theorem witness_PhaseTransitions_accesses :
    (headMove { State.reset with agenda := [.op .hreg 0x401#48] }).accesses (.wrCtrlStart 0#30) ∧
      (headMove { State.reset with phase := .done, agenda := [.op .hreg 0x402#48] }).accesses (.wrCtrlClear 0#30) ∧
      pixelServed onePixelRaw ∧ onePixelRaw.col.toNat + 1 = onePixelRaw.width.toNat ∧
      onePixelRaw.row.toNat + 1 = onePixelRaw.height.toNat :=
  ⟨accesses_word _ _ _ rfl rfl, accesses_word _ _ _ rfl rfl, ⟨⟨0#8, 0#8, 0#8⟩, by decide⟩, by decide, by decide⟩
/-- Each register does change by a move the statement names. -/
theorem witness_RegistersChangeOnlyThroughTheirWriters :
    (goesTo (step { State.reset with agenda := [.op .hreg 0x420#48] }) (fun t => t.thresh != 380#11) &&
      goesTo (step { State.reset with agenda := [.op .hreg 0x441#48] }) (fun t => t.compEn) &&
      goesTo (step { State.reset with agenda := [.op .hreg 0x451#48] }) (fun t => t.width != 0#16) &&
      goesTo (step { State.reset with agenda := [.op .hreg 0x461#48] }) (fun t => t.height != 0#16) &&
      goesTo (step { idleWith 1 1 false [] with agenda := [.op .hreg 0x401#48] }) (fun t => t.bpr != 0#13 && t.total != 0#32) &&
      goesTo (step { State.reset with phase := .err, errCause := .encodingRange, agenda := [.op .hreg 0x402#48] })
        (fun t => t.errCause == .noError) &&
      goesTo (step { State.reset with agenda := [.supply [(0, 1#8)]] }) (fun t => t.grid != []) &&
      goesTo (step onePixelRaw) (fun t => t.out != [])) = true := by decide
theorem witness_OutOnlyGrowsDuringAFrame :
    ((headMove onePixelRaw).isHardware = true ∧ onePixelRaw.phase = .busy ∧ headMove onePixelRaw ≠ .reset ∧
      ∃ t, step onePixelRaw = .next t) ∧ ∃ t, step aboutToRaise = .next t ∧ t.phase = .err :=
  ⟨⟨by decide, by decide, by decide, _, rfl⟩, _, rfl, by decide⟩
theorem witness_InvariantHoldsAtReset :
    Memory.wf checkerGrid = true ∧ ∀ e ∈ [Event.op .hreg 0x401#48, .core], e.isHardware = true := by decide
theorem witness_EveryStepKeepsTheInvariant :
    (MachineInv onePixelRaw ∧ ∃ t, step onePixelRaw = .next t) ∧ (MachineInv lastPixelCompressed ∧
      ∃ t, step lastPixelCompressed = .next t) ∧ MachineInv aboutToRaise ∧ ∃ t, step aboutToRaise = .next t :=
  ⟨⟨inv_onePixelRaw, _, rfl⟩, ⟨inv_lastPixelCompressed, _, rfl⟩, inv_aboutToRaise, _, rfl⟩
theorem witness_BusyFactsOfEveryBoundary :
    (MachineInv onePixelRaw ∧ onePixelRaw.phase = .busy ∧ compEnabled onePixelRaw = false) ∧
      (MachineInv aboutToRaise ∧ aboutToRaise.phase = .busy ∧ compEnabled aboutToRaise = true) :=
  ⟨⟨inv_onePixelRaw, by decide, by decide⟩, inv_aboutToRaise, by decide, by decide⟩
theorem witness_LineAndPrevStayWithinCapacity :
    MachineInv aboutToRaise ∧ aboutToRaise.phase = .busy ∧ compEnabled aboutToRaise = true :=
  ⟨inv_aboutToRaise, by decide, by decide⟩
theorem witness_NarrowFramesNeverRaise :
    MachineInv lastPixelCompressed ∧ lastPixelCompressed.phase = .busy ∧ lastPixelCompressed.width.toNat ≤ 1600 ∧
      ∃ t, step lastPixelCompressed = .next t :=
  ⟨inv_lastPixelCompressed, by decide, by decide, _, rfl⟩
theorem witness_SolidGridsGiveSolidDigits :
    (∀ x y, x < 9 → y < 1 → (380#11).toNat < channelSum ((fun _ _ => ⟨255#8, 255#8, 255#8⟩ : Nat → Nat → Pixel) x y)) ∧
      (∀ x y, x < 9 → y < 1 → channelSum ((fun _ _ => ⟨0#8, 0#8, 0#8⟩ : Nat → Nat → Pixel) x y) ≤ (0#11).toNat) :=
  ⟨fun _ _ _ _ => (by decide : 380 < 765), fun _ _ _ _ => (by decide : 0 ≤ 0)⟩
theorem witness_RawFrameDeliversHexBody :
    (idleWith 1 1 false (sampleAt 0 0 0 0 0)).phase = .idle ∧ compEnabled (idleWith 1 1 false (sampleAt 0 0 0 0 0)) = false ∧
      0 < (idleWith 1 1 false (sampleAt 0 0 0 0 0)).width.toInt ∧ 0 < (idleWith 1 1 false (sampleAt 0 0 0 0 0)).height.toInt ∧
      servesGrid (idleWith 1 1 false (sampleAt 0 0 0 0 0)).grid 1 1 checker :=
  ⟨by decide, by decide, by decide, by decide, serves_onePixel⟩
theorem witness_CompressedFrameDeliversCompressedBody :
    (idleWith 2 2 true checkerGrid).phase = .idle ∧ compEnabled (idleWith 2 2 true checkerGrid) = true ∧
      0 < (idleWith 2 2 true checkerGrid).width.toInt ∧ 0 < (idleWith 2 2 true checkerGrid).height.toInt ∧
      servesGrid (idleWith 2 2 true checkerGrid).grid 2 2 checker :=
  ⟨by decide, by decide, by decide, by decide, serves_checker⟩
theorem witness_DecoderInvertsCompressor :
    (∀ r ∈ [[0x46#8, 0x30#8], [0x46#8, 0x30#8], [0x30#8, 0x30#8]], r.length = 2 * 1 ∧ ∀ c ∈ r, isHexDigit c = true) ∧
      compressRows none [[0x46#8, 0x30#8], [0x46#8, 0x30#8], [0x30#8, 0x30#8]] =
        (ascii ['G', 'F', 'G', '0', ':', ','], none) := by decide
theorem witness_SolidAndRepeatedRowsCompress :
    rowText [0x46#8, 0x30#8] = .ok (ascii ['G', 'F', 'G', '0']) ∧
      compressRows none ([[0x30#8, 0x30#8], [0x46#8, 0x30#8]] ++ [[0x30#8, 0x30#8]]) =
        (ascii [',', 'G', 'F', 'G', '0', ','], none) ∧
      compressRows none ([] ++ [[0x46#8, 0x46#8]]) = (ascii ['!'], none) := by decide
theorem witness_HexBodyHasItsLength :
    (1 ≤ 1) ∧ hexBody (frameRows checker 380#11 1 1) = ascii ['8', '0'] ++ [0x0A#8] := by decide
theorem witness_ScanIsInRasterOrder :
    (idleWith 2 2 true checkerGrid).phase = .idle ∧ 0 < (idleWith 2 2 true checkerGrid).width.toInt ∧
      0 < (idleWith 2 2 true checkerGrid).height.toInt ∧ servesGrid (idleWith 2 2 true checkerGrid).grid 2 2 checker ∧
      goesTo (runSteps 4 { idleWith 2 2 true checkerGrid with agenda := [startEvent 0#30] })
        (fun t => t.phase == .busy && t.col == 1#16 && t.row == 1#16) = true :=
  ⟨by decide, by decide, by decide, serves_checker, by decide⟩
theorem witness_FramesTerminate :
    MachineInv onePixelRaw ∧ onePixelRaw.phase = .busy ∧ onePixelRaw.agenda = [] ∧ servesGrid onePixelRaw.grid 1 1 checker :=
  ⟨inv_onePixelRaw, by decide, by decide, serves_onePixel⟩
/-- RD STATUS, then the second of four core steps. -/
theorem witness_HostAccessesDoNotDisturbAFrame :
    (∀ e ∈ [Event.op .hreg 0x010#48, .core], e.isAccessOrCore) ∧ (busyWith 2 2 false checkerGrid).phase = .busy ∧
      (∃ u, runSteps (coreCount [Event.op .hreg 0x010#48, .core]) { busyWith 2 2 false checkerGrid with
          agenda := List.replicate (coreCount [Event.op .hreg 0x010#48, .core]) .core ++ [.core] } = .next u ∧
        u.phase = .busy ∧ ∃ v, step u = .next v) :=
  ⟨by
    intro e he
    simp only [List.mem_cons, List.not_mem_nil, or_false] at he
    rcases he with rfl | rfl
    · exact .inr ⟨.rdStatus, 0x010#48, rfl, rfl⟩
    · exact .inl rfl, by decide, _, rfl, by decide, _, rfl⟩
theorem witness_ResultDependsOnlyOnConfigurationAndGrid :
    (idleWith 2 2 true checkerGrid).phase = .idle ∧
      { idleWith 2 2 true checkerGrid with acc := 5#8, run := 9#14, prevValid := true, out := [0x30#8] }.phase = .idle ∧
      compEnabled (idleWith 2 2 true checkerGrid) =
        compEnabled { idleWith 2 2 true checkerGrid with acc := 5#8, run := 9#14, prevValid := true, out := [0x30#8] } ∧
      0 ≤ (idleWith 2 2 true checkerGrid).width.toInt ∧ 0 ≤ (idleWith 2 2 true checkerGrid).height.toInt := by decide

end Sys2Proof.Tests
end

namespace Sys2Proof.Machine

/-! ## The state and its invariant (10_state.md): proofs -/

/-! ### The invariant outside a frame, and under changes it does not see -/

/-- Outside BUSY the invariant is what it says of the agenda, the grid, the ranges and the error record. -/
theorem machineInv_of_not_busy {s : State} (hp : s.phase ≠ .busy) (ha : hardwareAgenda s) (hg : Memory.wf s.grid = true)
    (hr : RangeInv s) (he : ErrorInv s) : MachineInv s :=
  ⟨ha, hg, hr, he, fun h => absurd h hp, fun h => absurd h hp, fun h => absurd h hp⟩

/-- An empty error record is consistent with every phase but ERR. -/
theorem errorInv_of_noError {s : State} (hp : s.phase ≠ .err) (hc : s.errCause = .noError) (hi : s.errInfo = 0#14) :
    ErrorInv s where
  none_unless_err _ := ⟨hc, hi⟩
  some_in_err h := absurd h hp
  dimension_info h := by simp [hc] at h
  range_info h := by simp [hc] at h

/-- RDATA and the counter of free values are in no clause of the invariant, and the agenda is in its own only. -/
theorem MachineInv.of_unread {s : State} (h : MachineInv s) (r : Data) (n : Nat) {moves : List Event}
    (hm : ∀ e ∈ moves, e.isHardware = true) : MachineInv { s with rdata := r, freeCtr := n, agenda := moves } where
  agenda := hm
  grid := h.grid
  ranges := { h.ranges with }
  errors := { h.errors with }
  scan hb := { h.scan hb with }
  rle hb hc := { h.rle hb hc with }
  raw hb hc := { h.raw hb hc with }

/-- Outside BUSY the configuration and the grid may be written, within their ranges (10_state.md R22, R25 to R29). -/
theorem MachineInv.of_config {s : State} (h : MachineInv s) (hp : s.phase ≠ .busy) {th : BitVec 11} {c : Bool} {g : Memory}
    (w ht : BitVec 16) (hth : th.toNat ≤ 1958) (hc : s.hasRle = false → c = false) (hg : Memory.wf g = true) :
    MachineInv { s with thresh := th, compEn := c, width := w, height := ht, grid := g } :=
  machineInv_of_not_busy hp h.agenda hg { h.ranges with threshRange := hth, compHardwired := hc } { h.errors with }

/-! ### Reset and CLEAR -/

/-- The reset values meet the invariant, with or without RLE and with any grid, moves and counter (10_state.md R48). -/
theorem machineInv_reset (b : Bool) {g : Memory} {moves : List Event} (n : Nat) (hg : Memory.wf g = true)
    (hm : ∀ e ∈ moves, e.isHardware = true) :
    MachineInv { State.reset with hasRle := b, grid := g, agenda := moves, freeCtr := n } := by
  have hranges : RangeInv State.reset := ⟨by decide, by decide, by decide, fun _ => rfl⟩
  have hidle : State.reset.phase = .idle := rfl
  exact machineInv_of_not_busy (by simp [hidle]) hm hg { hranges with compHardwired := fun _ => rfl }
    (errorInv_of_noError (by simp [hidle]) rfl rfl)

theorem machineInv_resetEvent {s : State} (h : MachineInv s) : MachineInv (resetEvent s) :=
  machineInv_reset s.hasRle s.freeCtr h.grid h.agenda

theorem machineInv_clearFrame {s : State} (h : MachineInv s) : MachineInv (clearFrame s) :=
  machineInv_of_not_busy (by simp) h.agenda h.grid { h.ranges with } (errorInv_of_noError (by simp) rfl rfl)

/-! ### START (40_rasterizer.md R132) -/

/-- The sizes START computes are within their ranges (10_state.md R30, R31). -/
theorem rangeInv_startSized {s : State} (h : RangeInv s) (hw : negativeDim s.width = false)
    (hh : negativeDim s.height = false) : RangeInv (startSized s) := by
  rw [negativeDim_false_iff] at hw hh
  have hbpr : (bytesPerRow s.width).toNat ≤ 4096 := by rw [bytesPerRow_toNat _ hw]; omega
  have htotal : (totalBytes (bytesPerRow s.width) s.height).toNat ≤ 4096 * 32767 := by
    rw [totalBytes_toNat]
    exact Nat.mul_le_mul hbpr (by omega)
  exact { h with bprRange := hbpr, totalRange := htotal }

/-- `beginScan` as one update: the compressor's registers are written where RLE is built. -/
theorem beginScan_eq (s : State) :
    beginScan s = { s with
      acc := 0#8, nbits := 0#3, col := 0#16, row := 0#16, phase := .busy
      run := if s.hasRle then 1#14 else s.run
      fresh := s.hasRle || s.fresh
      line := if s.hasRle then [] else s.line
      prevValid := !s.hasRle && s.prevValid } := by
  cases h : s.hasRle <;> simp [beginScan, h]

/-- The scan's invariant at its first pixel. -/
theorem scanInv_beginScan {s : State} (hw : negativeDim s.width = false) (hh : negativeDim s.height = false)
    (hw0 : s.width ≠ 0#16) (hh0 : s.height ≠ 0#16) : ScanInv (beginScan (startSized s)) := by
  rw [beginScan_eq]
  rw [negativeDim_false_iff] at hw hh
  rw [ne_zero_iff_toNat] at hw0 hh0
  exact {
    widthPositive := (toInt_pos_iff _).mpr ⟨hw0, hw⟩
    heightPositive := (toInt_pos_iff _).mpr ⟨hh0, hh⟩
    colInRow := hw0
    rowInGrid := hh0
    nbitsOfCol := rfl
    accUnfilledZero := rfl
    bprOfWidth := bytesPerRow_toNat _ hw
    totalOfSizes := totalBytes_toNat _ _
    noError := ⟨rfl, rfl⟩ }

/-- The compressor's invariant at the first pixel: a fresh row, nothing sent (41_rle_compressor.md R161). -/
theorem rleInv_beginScan {s : State} (hr : s.hasRle = true) : RleInv (beginScan (startSized s)) := by
  have hr' : (startSized s).hasRle = true := hr
  have hout : (startSized s).out = [] := rfl
  rw [beginScan_eq]
  constructor <;> simp [hr', hout]

/-- The raw stream's invariant at the first pixel: nothing sent. -/
theorem rawInv_beginScan (s : State) : RawInv (beginScan (startSized s)) := by
  have hout : (startSized s).out = [] := rfl
  rw [beginScan_eq]
  constructor <;> simp [hout]

/-- START keeps the invariant on each of its three ways: the error, the empty frame, the scan. -/
theorem machineInv_startFrame {s : State} (h : MachineInv s) : MachineInv (startFrame s).state := by
  rcases startFrame_cases s with ⟨-, hst⟩ | ⟨hw, hh, -, hst⟩ | ⟨hw, hh, hw0, hh0, hst⟩ <;> rw [hst]
  · refine machineInv_of_not_busy (by simp) h.agenda h.grid { h.ranges with } ?_
    constructor <;> simp [startCleared]
  · exact machineInv_of_not_busy (by simp) h.agenda h.grid { rangeInv_startSized h.ranges hw hh with }
      (errorInv_of_noError (by simp) rfl rfl)
  · have hscan := scanInv_beginScan hw hh hw0 hh0
    have hranges : RangeInv (beginScan (startSized s)) := by
      rw [beginScan_eq]; exact { rangeInv_startSized h.ranges hw hh with }
    have hphase : (beginScan (startSized s)).phase = .busy := by rw [beginScan_eq]
    exact {
      agenda := by rw [Flow.state_cont, beginScan_eq]; exact h.agenda
      grid := by rw [Flow.state_cont, beginScan_eq]; exact h.grid
      ranges := hranges
      errors := errorInv_of_noError (by simp [hphase]) hscan.noError.1 hscan.noError.2
      scan := fun _ => hscan
      rle := fun _ hc => rleInv_beginScan (by
        rw [Flow.state_cont, beginScan_eq] at hc
        exact (Bool.and_eq_true_iff.mp hc).1)
      raw := fun _ _ => rawInv_beginScan s }

/-! ### Register accesses (42_host_register_ops.md) -/

/-- Every register access keeps the invariant. -/
theorem machineInv_exec_hreg {i : Instr} {s t : State} (h : MachineInv s) (hs : spaceOf i = .hreg)
    (he : exec i s = .next t) : MachineInv t := by
  have hcfg := h.ranges.compHardwired
  have hth := h.ranges.threshRange
  rcases execHreg_cases i s hs with ⟨r, hx⟩ | ⟨v, -, hp, hx⟩ | ⟨v, -, hp, hr, hx⟩ | ⟨v, -, hp, hx⟩ | ⟨v, -, hp, hx⟩ |
    ⟨_, -, -, hx⟩ | ⟨_, -, -, hx⟩ <;> obtain rfl := Host.Outcome.next.inj (hx.symm.trans he)
  · exact h.of_unread r s.freeCtr h.agenda
  · exact h.of_config hp s.width s.height (thresholdOfPercent_le _ (Nat.mod_lt _ (by decide))) hcfg h.grid
  · exact h.of_config hp s.width s.height hth (fun hf => by simp [hr] at hf) h.grid
  · exact h.of_config hp _ s.height hth hcfg h.grid
  · exact h.of_config hp s.width _ hth hcfg h.grid
  · exact machineInv_clearFrame h
  · exact machineInv_startFrame h

/-! ### A PIX step (40_rasterizer.md R133) -/

theorem hexPair_inAlphabet (n : Nat) (b : Bool) : ∀ c ∈ hexPair n, inAlphabet b c = true := by
  simp only [hexPair, List.mem_cons, List.not_mem_nil, or_false, forall_eq_or_imp, forall_eq]
  exact ⟨inAlphabet_of_digit b _ (hexDigit_isHexDigit _), inAlphabet_of_digit b _ (hexDigit_isHexDigit _)⟩

theorem rawText_inAlphabet (px : Pixel) (s : State) : ∀ c ∈ rawText px s, inAlphabet false c = true := by
  intro c hc
  rcases List.mem_append.mp hc with hc | hc
  · split at hc
    · exact hexPair_inAlphabet _ _ c hc
    · simp at hc
  · split at hc
    · obtain rfl := List.mem_singleton.mp hc; decide
    · simp at hc

theorem rawText_length (px : Pixel) (s : State) :
    (rawText px s).length = (if fullCond s || lastcolCond s then 2 else 0) + (if lastcolCond s then 1 else 0) := by
  rw [rawText, List.length_append]
  congr 1 <;> split <;> rfl

@[simp] theorem advanced_out (s t : State) : (advanced s t).out = t.out := by
  unfold advanced; split_ifs <;> rfl

@[simp] theorem advanced_bpr (s t : State) : (advanced s t).bpr = t.bpr := by
  unfold advanced; split_ifs <;> rfl

theorem col_succ_lt {s : State} (h : s.col.toNat < s.width.toNat) (hl : lastcolCond s ≠ true) :
    s.col.toNat + 1 < s.width.toNat := by
  have := mt (lastcol_iff h).mpr hl
  omega

theorem row_succ_lt {s : State} (h : s.row.toNat < s.height.toNat) (hl : lastrowCond s ≠ true) :
    s.row.toNat + 1 < s.height.toNat := by
  have := mt (lastrow_iff h).mpr hl
  omega

/-- The raw stream after a PIX step that does not end the frame has the length of the rows and bytes sent. -/
theorem rawInv_pixStep {s : State} (px : Pixel) (h : RawInv s) (hs : ScanInv s) (hc : compEnabled s = false)
    (hb : (pixStep px s).state.phase = .busy) : RawInv (pixStep px s).state := by
  have hlen := h.outLength
  have hcol := hs.colInRow
  have hnb := hs.nbitsOfCol
  have hbpr := hs.bprOfWidth
  have hbp : (packed px s).bpr = s.bpr := rfl
  have hrw : (packed px s).row = s.row := rfl
  rw [pixStep_raw px s hc, Flow.state_cont] at hb ⊢
  refine ⟨?_, fun c hm => ?_⟩
  · rw [advanced_out, advanced_bpr, List.length_append, rawText_length, hlen, hbp]
    by_cases hl : lastcolCond s = true
    · have hlc := (lastcol_iff hcol).mp hl
      have hlr : lastrowCond s ≠ true := fun hlr => by simp [advanced, hl, hlr] at hb
      have hrow := row_succ_lt hs.rowInGrid hlr
      simp only [advanced, hl, hlr, Bool.or_true, Bool.false_eq_true, if_true, if_false, succ_toNat hrow, Nat.add_mul,
        BitVec.toNat_ofNat]
      omega
    · have hc1 := col_succ_lt hcol hl
      by_cases hfl : fullCond s = true
      · have h7 := (fullCond_iff s).mp hfl
        simp only [advanced, hl, hfl, Bool.or_false, Bool.false_eq_true, if_true, if_false, hrw, succ_toNat hc1]
        omega
      · have h7 := mt (fullCond_iff s).mpr hfl
        simp only [advanced, hl, hfl, Bool.or_false, Bool.false_eq_true, if_false, hrw, succ_toNat hc1]
        omega
  · rw [advanced_out] at hm
    exact (List.mem_append.mp hm).elim (h.outAlphabet c) (rawText_inAlphabet px s c)

/-- A PIX step that neither ends the frame nor raises keeps the invariant of the scan. -/
theorem scanInv_pixStep {s : State} (px : Pixel) (h : ScanInv s) (hp : s.phase = .busy)
    (hb : (pixStep px s).state.phase = .busy) : ScanInv (pixStep px s).state := by
  rcases pixStep_cases px s with ⟨t, hf, -, hst⟩ | ⟨-, ⟨u, hst, -⟩ | ⟨u, hst, -⟩⟩
  · replace hst : pixStep px s = .cont (advanced s t) := hst
    rw [hst] at hb ⊢
    exact h.advanced hf (hb.trans hp.symm) hp
  · simp [hst] at hb
  · simp [hst] at hb

/-- A compressed PIX step that does not raise keeps the compressor's invariant. -/
theorem rleInv_pixStep {s : State} (px : Pixel) (h : RleInv s) (hs : ScanInv s) (hc : compEnabled s = true)
    (hb : (pixStep px s).state.phase = .busy) : RleInv (pixStep px s).state := by
  rcases pixStep_compressed px s hc hs h with ⟨t, -, hst, hr⟩ | ⟨t, hst, -⟩
  · rw [hst]; exact hr
  · simp [hst] at hb

/-- A PIX step that raises records a count from 401 to 8192 (41_rle_compressor.md R171). -/
theorem errorInv_of_raise {s : State} (px : Pixel) (hr : RleInv s) (hs : ScanInv s) (hc : compEnabled s = true)
    (hp : s.phase = .busy) (he : (pixStep px s).state.phase = .err) : ErrorInv (pixStep px s).state := by
  have hbpr : s.bpr.toNat ≤ 4096 := by
    have := ((toInt_pos_iff _).mp hs.widthPositive).2
    have := hs.bprOfWidth
    omega
  rcases pixStep_compressed px s hc hs hr with ⟨t, hf, hst, -⟩ | ⟨t, hst, h401, hle⟩
  · have hph : t.phase = .busy := (rleFrame_phase hf : t.phase = (packed px s).phase).trans hp
    simp only [hst, Flow.state_cont, advanced] at he
    split_ifs at he <;> simp [hph] at he
  · rw [hst]
    exact {
      none_unless_err := fun h => absurd rfl h
      some_in_err := fun _ => by simp
      dimension_info := fun h => by simp at h
      range_info := fun _ => ⟨h401, by simp; omega⟩ }

/-- A PIX step keeps the invariant: the frame goes on, or ends in DONE, or raises. -/
theorem machineInv_pixStep {s : State} (px : Pixel) (h : MachineInv s) (hp : s.phase = .busy) :
    MachineInv (pixStep px s).state := by
  have hs := h.scan hp
  obtain ⟨hcause, hinfo⟩ := hs.noError
  obtain ⟨hframe, hend⟩ := pixStep_ends px s
  have hce := compEnabled_of_pixFrame hframe
  obtain ⟨hth, hcomp, -, -, hbpr, htotal, hrle, hgrid, -, hag⟩ := hframe
  have hagenda : hardwareAgenda (pixStep px s).state := by unfold hardwareAgenda; rw [hag]; exact h.agenda
  have hwf : Memory.wf (pixStep px s).state.grid = true := hgrid ▸ h.grid
  have hranges : RangeInv (pixStep px s).state :=
    ⟨hth ▸ h.ranges.threshRange, hbpr ▸ h.ranges.bprRange, htotal ▸ h.ranges.totalRange,
      by rw [hrle, hcomp]; exact h.ranges.compHardwired⟩
  rcases hend with ⟨hph, hc, hi, -⟩ | ⟨hph, hc, hi, -⟩ | ⟨hph, -, hc, -⟩
  · have hb := hph.trans hp
    exact {
      agenda := hagenda
      grid := hwf
      ranges := hranges
      errors := errorInv_of_noError (by simp [hb]) (hc.trans hcause) (hi.trans hinfo)
      scan := fun _ => scanInv_pixStep px hs hp hb
      rle := fun _ hc => rleInv_pixStep px (h.rle hp (hce ▸ hc)) hs (hce ▸ hc) hb
      raw := fun _ hc => rawInv_pixStep px (h.raw hp (hce ▸ hc)) hs (hce ▸ hc) hb }
  · exact machineInv_of_not_busy (by simp [hph]) hagenda hwf hranges
      (errorInv_of_noError (by simp [hph]) (hc.trans hcause) (hi.trans hinfo))
  · exact machineInv_of_not_busy (by simp [hph]) hagenda hwf hranges
      (errorInv_of_raise px (h.rle hp hc) hs hc hp hph)

/-- The core's move keeps the invariant. -/
theorem machineInv_performCore {s t : State} (h : MachineInv s) (hp : perform .core s = .next t) : MachineInv t := by
  rcases performCore_cases hp with ⟨-, rfl⟩ | ⟨-, -, rfl⟩ | ⟨hb, px, n, rfl, -⟩
  · exact h
  · exact h
  · exact machineInv_pixStep px (h.of_unread s.rdata n h.agenda) hb

/-! ### Every step -/

theorem MachineInv.headMove_isHardware {s : State} (h : MachineInv s) : (headMove s).isHardware = true := by
  have ha := h.agenda
  unfold hardwareAgenda at ha
  unfold headMove nextMove
  split
  · rfl
  · rename_i e rest heq
    exact ha e (by simp [heq])

/-- Taking a move off the agenda keeps the invariant. -/
theorem machineInv_nextMove {s : State} (h : MachineInv s) : MachineInv (nextMove s).2 := by
  rw [nextMove_state, nextMove_agenda]
  exact h.of_unread s.rdata s.freeCtr fun e he => h.agenda e (List.mem_of_mem_tail he)

/-- Settles O47: each of the moves of the hardware keeps the invariant. -/
theorem everyStepKeepsTheInvariant : Obligations.EveryStepKeepsTheInvariant := by
  intro s t h hstep
  have hu := machineInv_nextMove h
  rcases step_hardware_cases h.headMove_isHardware hstep with ⟨i, hs, -, hx⟩ | ⟨-, hx⟩ | ⟨-, rfl⟩ | ⟨cells, -, hb, rfl⟩
  · exact machineInv_exec_hreg hu hs hx
  · exact machineInv_performCore hu hx
  · exact machineInv_resetEvent hu
  · have hb' : (nextMove s).2.phase ≠ .busy := by rw [nextMove_state]; exact hb
    exact hu.of_config hb' _ _ hu.ranges.threshRange hu.ranges.compHardwired (gridOfCells_wf cells)

/-! ### The facts of R49 while BUSY -/

/-- Settles O48: the facts are those of the invariant; the bounds on RUN and LINE follow from its bound on the row so far. -/
theorem busyFactsOfEveryBoundary : Obligations.BusyFactsOfEveryBoundary := by
  intro s h hb
  have hs := h.scan hb
  have hcol := hs.colInRow
  have hbpr := hs.bprOfWidth
  have hacc : s.acc.extractLsb' 0 (8 - s.nbits.toNat) = 0#(8 - s.nbits.toNat) := by
    apply BitVec.eq_of_toNat_eq
    rw [BitVec.extractLsb'_toNat, Nat.shiftRight_zero, hs.accUnfilledZero]
    simp
  refine ⟨hs.widthPositive, hs.heightPositive, hcol, hs.rowInGrid, hs.nbitsOfCol, hacc, hbpr, hs.totalOfSizes, hs.noError.1,
    fun hc => ?_, fun hc => (h.raw hb hc).outLength⟩
  have hr := h.rle hb hc
  cases hf : s.fresh with
  | true =>
    obtain ⟨hrun, hline⟩ := hr.freshEmpty hf
    exact ⟨hr.runPositive, by rw [hrun]; simp; omega, by simp [hline], hf ▸ hr.freshOfCol⟩
  | false =>
    have hbound := hr.lineBound hf
    exact ⟨hr.runPositive, by omega, by omega, hf ▸ hr.freshOfCol⟩

/-! ### Reset -/

/-- Settles O1: `State.reset` writes the values of R48 out. -/
theorem resetLeavesTheStatedValues : Obligations.ResetLeavesTheStatedValues :=
  ⟨rfl, rfl, rfl, rfl, rfl, rfl, rfl, rfl, rfl, rfl⟩

/-- Settles O46: the reset state is in IDLE, so only the agenda, the grid, the ranges and the error record count. -/
theorem invariantHoldsAtReset : Obligations.InvariantHoldsAtReset :=
  fun b _ _ hg hm => machineInv_reset b 0 hg hm

/-! ### The first move of the agenda -/

theorem runWord_ok {sp : Space} {w : Word} {i : Instr} (s : State) (h : decodeWord sp w = .ok i) : runWord sp w s = exec i s := by
  simp only [runWord, h]

/-- Settles O40: the first move is taken off the agenda and performed; an empty agenda stands for the core's move. -/
theorem stepRunsTheDecodedOperation : Obligations.StepRunsTheDecodedOperation := by
  refine ⟨fun s sp w i rest hd => ?_, fun s hs => ?_⟩
  · rw [step_cons]
    exact runWord_ok _ hd
  · rw [step_nil s hs, step_cons, ← hs]

/-! ### Another grid (20_memory.md R79) -/

theorem gridOfCells_snoc (cells : List Host.Cell) (c : Host.Cell) :
    gridOfCells (cells ++ [c]) = Memory.write (gridOfCells cells) c.1 c.2 := by
  simp [gridOfCells]

/-- A served grid reads as the last cell given for the address. -/
theorem read_gridOfCells (cells : List Host.Cell) (a : Nat) :
    Memory.read (gridOfCells cells) a = (cells.reverse.find? fun c => c.1 == a).map Prod.snd := by
  induction cells using List.reverseRecOn with
  | nil => rfl
  | append_singleton cells c ih =>
    rw [gridOfCells_snoc, List.reverse_append, List.reverse_singleton, List.singleton_append]
    by_cases h : c.1 = a
    · subst h
      simp [Memory.read_write_same]
    · rw [Memory.read_write_other _ _ _ _ (Ne.symm h), ih, List.find?_cons_of_neg (by simpa using h)]

theorem supplyGrid_idle (cells : List Host.Cell) {s : State} (h : s.phase ≠ .busy) :
    supplyGrid cells s = .next { s with grid := gridOfCells cells } := if_neg h

theorem supplyGrid_busy (cells : List Host.Cell) {s : State} (h : s.phase = .busy) :
    supplyGrid cells s = .refused .gridFixedDuringFrame := if_pos h

/-- Settles O42: outside BUSY the new grid reads as the cells given; in BUSY the move is refused. -/
theorem supplyServesTheCells : Obligations.SupplyServesTheCells := by
  intro s cells rest
  refine ⟨fun h => ⟨gridOfCells cells, ?_, gridOfCells_wf cells, read_gridOfCells cells⟩, fun h => ⟨.gridFixedDuringFrame, ?_⟩⟩
  · rw [step_cons]; exact supplyGrid_idle cells h
  · rw [step_cons]; exact supplyGrid_busy cells h

/-! ### The writers of the registers -/

/-- START keeps the configuration, HAS_RLE and the grid, and writes the sizes only when its check passes. -/
theorem startFrame_frame (s : State) :
    (startFrame s).state.thresh = s.thresh ∧ (startFrame s).state.compEn = s.compEn ∧ (startFrame s).state.width = s.width ∧
      (startFrame s).state.height = s.height ∧ (startFrame s).state.hasRle = s.hasRle ∧ (startFrame s).state.grid = s.grid ∧
      ((startFrame s).state.bpr ≠ s.bpr ∨ (startFrame s).state.total ≠ s.total →
        0 ≤ s.width.toInt ∧ 0 ≤ s.height.toInt) := by
  rcases startFrame_cases s with ⟨-, h⟩ | ⟨hw, hh, -, h⟩ | ⟨hw, hh, -, -, h⟩ <;> rw [h]
  · exact ⟨rfl, rfl, rfl, rfl, rfl, rfl, by simp [startCleared]⟩
  · rw [negativeDim_false_iff_toInt] at hw hh
    exact ⟨rfl, rfl, rfl, rfl, rfl, rfl, fun _ => ⟨hw, hh⟩⟩
  · rw [negativeDim_false_iff_toInt] at hw hh
    rw [Flow.state_cont, beginScan_eq]
    exact ⟨rfl, rfl, rfl, rfl, rfl, rfl, fun _ => ⟨hw, hh⟩⟩

/-- Settles O44: by the kind of the move, what it writes. -/
theorem registersChangeOnlyThroughTheirWriters : Obligations.RegistersChangeOnlyThroughTheirWriters := by
  intro s t hw hstep hreset
  have hu := nextMove_state s
  generalize (nextMove s).2.agenda = rest at hu
  rcases step_hardware_cases hw hstep with ⟨i, hs, hacc, hx⟩ | ⟨hcore, hx⟩ | ⟨hr, -⟩ | ⟨cells, hsup, hb, rfl⟩
  · -- a register access writes one register of the configuration, or is CLEAR or START
    rw [hu] at hx
    rcases execHreg_cases i _ hs with ⟨r, he⟩ | ⟨v, rfl, hp, he⟩ | ⟨v, rfl, hp, hrle, he⟩ | ⟨v, rfl, hp, he⟩ | ⟨v, rfl, hp, he⟩ |
      ⟨hi, rfl, hp, he⟩ | ⟨hi, rfl, hp, he⟩ <;> obtain rfl := Host.Outcome.next.inj (he.symm.trans hx)
    · simp
    · simpa using fun _ => ⟨hp, v, hacc⟩
    · simpa using fun _ => ⟨hp, hrle, v, hacc⟩
    · simpa using fun _ => ⟨hp, v, hacc⟩
    · simpa using fun _ => ⟨hp, v, hacc⟩
    · exact ⟨by simp, by simp, by simp, by simp, by simp, fun _ => .inr (.inl ⟨hp, hi, hacc⟩), by simp, rfl, by simp⟩
    · obtain ⟨hth, hce, hwd, hht, hrle, hgrid, hsizes⟩ := startFrame_frame { s with agenda := rest }
      exact ⟨absurd hth, absurd hce, absurd hwd, absurd hht, fun h => ⟨hp, (hsizes h).1, (hsizes h).2, hi, hacc⟩,
        fun _ => .inl ⟨hp, hi, hacc⟩, fun _ => .inl ⟨hp, hi, hacc⟩, hrle, absurd hgrid⟩
  · -- the core's move writes in BUSY only, and the error record only when it raises
    rw [hu] at hx
    rcases performCore_cases hx with ⟨-, rfl⟩ | ⟨-, -, rfl⟩ | ⟨hb, px, n, rfl, -⟩
    · simp
    · simp
    · obtain ⟨⟨hth, hce, hwd, hht, hbpr, htot, hrle, hgrid, -⟩, hend⟩ := pixStep_ends px { s with agenda := rest, freeCtr := n }
      refine ⟨absurd hth, absurd hce, absurd hwd, absurd hht, fun h => h.elim (absurd hbpr) (absurd htot), fun h => ?_,
        fun _ => .inr ⟨hb, hcore⟩, hrle, absurd hgrid⟩
      rcases hend with ⟨-, hc, hi, -⟩ | ⟨-, hc, hi, -⟩ | ⟨hph, -⟩
      · exact h.elim (absurd hc) (absurd hi)
      · exact h.elim (absurd hc) (absurd hi)
      · exact .inr (.inr ⟨hb, hcore, hph⟩)
  · exact absurd hr hreset
  · rw [hu]
    simpa using fun _ => ⟨hb, cells, hsup⟩

end Sys2Proof.Machine

namespace Sys2Proof.Machine

/-! ## The pixel space, the raster order and the character sink (20_memory.md): proofs -/

/-! ### OUT during a frame (20_memory.md R74) -/

/-- The core's move only appends to OUT, and appends nothing when it ends in an error. -/
theorem performCore_out {s t : State} (hb : s.phase = .busy) (h : perform .core s = .next t) :
    (∃ more, t.out = s.out ++ more) ∧ (t.phase = .err → t.out = s.out) := by
  rcases performCore_cases h with ⟨-, rfl⟩ | ⟨-, -, rfl⟩ | ⟨-, px, n, rfl, -⟩
  · exact ⟨⟨[], by simp⟩, fun _ => rfl⟩
  · exact ⟨⟨[], by simp⟩, fun _ => rfl⟩
  · obtain ⟨-, ⟨hp, -, -, hout, -⟩ | ⟨hp, -, -, hout, -⟩ | ⟨-, -, -, hout⟩⟩ := pixStep_ends px { s with freeCtr := n }
    · exact ⟨hout, fun he => absurd ((hp.trans hb).symm.trans he) (by decide)⟩
    · exact ⟨hout, fun he => absurd (hp.symm.trans he) (by decide)⟩
    · exact ⟨⟨[], by simpa using hout⟩, fun _ => hout⟩

/-- Settles O45: in BUSY a register access leaves OUT alone, the core's move appends, and no other grid is served. -/
theorem outOnlyGrowsDuringAFrame : Obligations.OutOnlyGrowsDuringAFrame := by
  intro s t hw hb hreset hstep
  have hu := nextMove_state s
  generalize (nextMove s).2.agenda = rest at hu
  rcases step_hardware_cases hw hstep with ⟨i, hs, -, hx⟩ | ⟨-, hx⟩ | ⟨hr, -⟩ | ⟨-, -, hp, -⟩
  · rw [hu] at hx
    obtain ⟨r, he⟩ := exec_hreg_busy i { s with agenda := rest } hs hb
    obtain rfl := Host.Outcome.next.inj (he.symm.trans hx)
    exact ⟨⟨[], by simp⟩, fun _ => rfl⟩
  · rw [hu] at hx
    exact performCore_out (s := { s with agenda := rest }) hb hx
  · exact absurd hr hreset
  · exact absurd hb hp

/-! ### The raster order (20_memory.md R63) -/

@[simp] theorem beginScan_startSized_width (s : State) : (beginScan (startSized s)).width = s.width := by
  rw [beginScan_eq]; rfl

@[simp] theorem beginScan_startSized_height (s : State) : (beginScan (startSized s)).height = s.height := by
  rw [beginScan_eq]; rfl

@[simp] theorem beginScan_startSized_grid (s : State) : (beginScan (startSized s)).grid = s.grid := by
  rw [beginScan_eq]; rfl

@[simp] theorem beginScan_startSized_bpr (s : State) : (beginScan (startSized s)).bpr = bytesPerRow s.width := by
  rw [beginScan_eq]; rfl

@[simp] theorem beginScan_startSized_agenda (s : State) : (beginScan (startSized s)).agenda = s.agenda := by
  rw [beginScan_eq]; rfl

theorem runSteps_succ {s t : State} (n : Nat) (h : step s = .next t) : runSteps (n + 1) s = runSteps n t := by
  simp only [runSteps, h]

/-- After START of a frame with pixels and with no other move to come, `k` more steps are `k` core moves from the scan's start. -/
theorem runSteps_start (s : State) (hi : BitVec 30) (k : Nat) (hp : s.phase = .idle) (hw : 0 < s.width.toInt)
    (hh : 0 < s.height.toInt) :
    runSteps (1 + k) { s with agenda := [startEvent hi] } =
      .next (coreSteps k (beginScan (startSized { s with agenda := [] }))) := by
  rw [Nat.add_comm, runSteps_succ k (step_start_scan s hi [] hp hw hh)]
  exact runSteps_alone k _ (by simp)

/-- After any number of core moves of a served frame: the scan has read that many pixels, or the frame has ended, in DONE not before
its last pixel. -/
theorem coreSteps_frame {px : Nat → Nat → Pixel} {u : State} (h0 : FrameAt px u 0 u) (hw : 0 < u.width.toNat)
    (hw2 : u.width.toNat < 32768) (hh : 0 < u.height.toNat) (hbpr : u.bpr.toNat = (u.width.toNat + 7) / 8)
    (hs : servesGrid u.grid u.width.toNat u.height.toNat px) (k : Nat) :
    (k < u.width.toNat * u.height.toNat ∧ FrameAt px u k (coreSteps k u)) ∨
    (u.width.toNat * u.height.toNat ≤ k ∧ FrameDone px u (coreSteps k u)) ∨ FrameRaised px u (coreSteps k u) := by
  rcases Nat.le_total k (u.width.toNat * u.height.toNat) with hk | hk
  · rcases coreSteps_at h0 hw hw2 hh hbpr hs k hk with h | ⟨rfl, h⟩ | h
    · exact .inl h
    · exact .inr (.inl ⟨le_rfl, h⟩)
    · exact .inr (.inr h)
  · obtain ⟨d, rfl⟩ := Nat.exists_eq_add_of_le hk
    rw [coreSteps_add]
    rcases coreSteps_at h0 hw hw2 hh hbpr hs _ le_rfl with ⟨hlt, -⟩ | ⟨-, h⟩ | h
    · exact absurd hlt (lt_irrefl _)
    · rw [coreSteps_held d _ (by simp [h.done])]
      exact .inr (.inl ⟨hk, h⟩)
    · rw [coreSteps_held d _ (by simp [h.err])]
      exact .inr (.inr h)

/-- START of a served frame and `k` core moves: where the frame stands, in the terms of the scan that START began. -/
theorem coreSteps_started {px : Nat → Nat → Pixel} {s : State} (hw : 0 < s.width.toInt) (hh : 0 < s.height.toInt)
    (hs : servesGrid s.grid s.width.toNat s.height.toNat px) (k : Nat) :
    (k < s.width.toNat * s.height.toNat ∧ FrameAt px (beginScan (startSized s)) k (coreSteps k (beginScan (startSized s)))) ∨
    (s.width.toNat * s.height.toNat ≤ k ∧ FrameDone px (beginScan (startSized s)) (coreSteps k (beginScan (startSized s)))) ∨
    FrameRaised px (beginScan (startSized s)) (coreSteps k (beginScan (startSized s))) := by
  obtain ⟨hw0, hw2⟩ := (toInt_pos_iff _).mp hw
  obtain ⟨hh0, -⟩ := (toInt_pos_iff _).mp hh
  simpa using coreSteps_frame (frameAt_start px s) (by simpa using hw0) (by simpa using hw2) (by simpa using hh0)
    (by simp [bytesPerRow_toNat _ hw2]) (by simpa using hs) k

/-- Settles O57: the scan's position is that of FrameAt; a frame that has ended is in DONE or ERR. -/
theorem scanIsInRasterOrder : Obligations.ScanIsInRasterOrder := by
  intro s hi px hp hw hh hs k
  refine ⟨_, runSteps_start s hi k hp hw hh, ?_⟩
  rcases coreSteps_started (s := { s with agenda := [] }) hw hh hs k with ⟨hk, h⟩ | ⟨hk, h⟩ | h
  · exact ⟨fun _ => ⟨hk, by simpa using h.col, by simpa using h.row⟩, by simp [h.busy], by simp [h.busy]⟩
  · exact ⟨by simp [h.done], fun _ => hk, by simp [h.done]⟩
  · exact ⟨by simp [h.err], by simp [h.err], by simp [h.err]⟩

/-! ### PixRead (20_memory.md R62) -/

/-- PIX does what the core's move does: PIX in BUSY, nothing in the other phases (log 21). -/
theorem exec_pix_eq_performCore (s : State) : exec .pix s = perform .core s := (performCore_eq s).symm

theorem performCore_grid {s t : State} (h : perform .core s = .next t) : t.grid = s.grid := by
  rcases performCore_cases h with ⟨-, rfl⟩ | ⟨-, -, rfl⟩ | ⟨-, px, n, rfl, -⟩
  · rfl
  · rfl
  · obtain ⟨-, -, -, -, -, -, -, hgrid, -⟩ := (pixStep_ends px { s with freeCtr := n }).1
    exact hgrid

/-- At an address of the frame that the pixel source does not answer the core's move changes nothing. -/
theorem performCore_unserved {s : State} (hv : pixelAddressValid s = true)
    (hp : pixRead s.grid s.col.toNat s.row.toNat = none) : perform .core s = .next s := by
  obtain ⟨t, h⟩ := performCore_next s
  rcases performCore_cases h with ⟨-, rfl⟩ | ⟨-, -, rfl⟩ | ⟨-, px, n, -, hread⟩
  · exact h
  · exact h
  · obtain ⟨-, hsome⟩ := hread hv
    simp [hp] at hsome

/-- Settles O20: PIX is the core's move, which is always answered. -/
theorem pixWaitsForThePixelSource : Obligations.PixWaitsForThePixelSource := by
  intro s
  rw [exec_pix_eq_performCore]
  refine ⟨fun _ hc hr hp => performCore_unserved (by simp [pixelAddressValid, hc, hr]) hp, ?_⟩
  obtain ⟨t, h⟩ := performCore_next s
  exact ⟨t, h, (performCore_ownFields h).1, performCore_grid h⟩

/-! ### The symbols and their alphabets (20_memory.md R65, R66) -/

/-- The operation of a symbol is the append of its code (log 15): one row of the table after the other. -/
theorem exec_symbol {i : Instr} {code : Nat} (s : State) (h : symbolCode i = some code) :
    exec i s = appendSymbol (BitVec.ofNat 8 code) s := by
  cases i <;> cases h <;> rfl

/-- Settles O33: a symbol is appended in BUSY and in its stream, and otherwise ignored. -/
theorem symbolsReachTheSink : Obligations.SymbolsReachTheSink := by
  intro i code s h
  rw [exec_symbol s h]
  exact ⟨appendSymbol_on, appendSymbol_off⟩

theorem isHexDigit_iff (c : Byte) :
    isHexDigit c = true ↔ (0x30 ≤ c.toNat ∧ c.toNat ≤ 0x39) ∨ (0x41 ≤ c.toNat ∧ c.toNat ≤ 0x46) := by
  simp [isHexDigit]

theorem isCountLetter_iff (c : Byte) :
    isCountLetter c = true ↔ (0x47 ≤ c.toNat ∧ c.toNat ≤ 0x59) ∨ (0x67 ≤ c.toNat ∧ c.toNat ≤ 0x7A) := by
  simp [isCountLetter]

/-- Settles O34: the ranges of the digits and the count letters, and the codes of the single characters. -/
theorem streamAlphabets : Obligations.StreamAlphabets := by
  intro c
  constructor
  · simp [inAlphabet, isHexDigit_iff, Config.rbCode, BitVec.toNat_eq, or_assoc]
  · simp [inAlphabet, isHexDigit_iff, isCountLetter_iff, chrFill0, chrFill1, chrRepeat, BitVec.toNat_eq, or_assoc]

end Sys2Proof.Machine

namespace Sys2Proof.Machine

/-! ## The encodings (30_encoding.md): proofs -/

/-! ### Decoding inverts encoding, row by row (30_encoding.md R116) -/

open Laws.RoundTrip in
theorem decode_encode : ∀ i : Instr, Laws.RoundTrip.Statement i
  -- HREG
  | .wrCtrlNop hi => wrCtrlNop hi | .wrCtrlStart hi => wrCtrlStart hi | .wrCtrlClear hi => wrCtrlClear hi
  | .wrCtrlRsvd hi => wrCtrlRsvd hi | .rdCtrl => rdCtrl | .rdStatus => rdStatus | .wrStatus v => wrStatus v
  | .wrPct v => wrPct v | .rdPct => rdPct | .rdThresh => rdThresh | .wrThresh v => wrThresh v | .wrCompEn v => wrCompEn v
  | .rdCompEn => rdCompEn | .wrWidth v => wrWidth v | .rdWidth => rdWidth | .wrHeight v => wrHeight v | .rdHeight => rdHeight
  | .rdBpr => rdBpr | .wrBpr v => wrBpr v | .rdTotal => rdTotal | .wrTotal v => wrTotal v | .rdErrInfo => rdErrInfo
  | .wrErrInfo v => wrErrInfo v | .rsvd28 wr off v => rsvd28 wr off v | .rsvd30 wr off v => rsvd30 wr off v
  | .rsvd40 wr off v => rsvd40 wr off v | .rsvd80 wr off v => rsvd80 wr off v
  -- SEQ
  | .holdIdle => holdIdle | .pix => pix | .holdDone => holdDone | .holdErr => holdErr
  -- UOP_R
  | .classify k px => classify k px | .pack k bit => pack k bit | .emitbyteFull b c => emitbyteFull b c
  | .emitbyteLastcol a c => emitbyteLastcol a c | .rowend a c => rowend a c | .frameend a => frameend a
  -- UOP_C
  | .rseed same c => rseed same c | .rrowbrk same => rrowbrk same | .rsame => rsame | .rbound d => rbound d
  -- SYM8
  | .hex0 => hex0 | .hex1 => hex1 | .hex2 => hex2 | .hex3 => hex3 | .hex4 => hex4 | .hex5 => hex5 | .hex6 => hex6
  | .hex7 => hex7 | .hex8 => hex8 | .hex9 => hex9 | .hexA => hexA | .hexB => hexB | .hexC => hexC | .hexD => hexD
  | .hexE => hexE | .hexF => hexF
  | .cntG => cntG | .cntH => cntH | .cntI => cntI | .cntJ => cntJ | .cntK => cntK | .cntL => cntL | .cntM => cntM
  | .cntN => cntN | .cntO => cntO | .cntP => cntP | .cntQ => cntQ | .cntR => cntR | .cntS => cntS | .cntT => cntT
  | .cntU => cntU | .cntV => cntV | .cntW => cntW | .cntX => cntX | .cntY => cntY
  | .cnt20g => cnt20g | .cnt20h => cnt20h | .cnt20i => cnt20i | .cnt20j => cnt20j | .cnt20k => cnt20k | .cnt20l => cnt20l
  | .cnt20m => cnt20m | .cnt20n => cnt20n | .cnt20o => cnt20o | .cnt20p => cnt20p | .cnt20q => cnt20q | .cnt20r => cnt20r
  | .cnt20s => cnt20s | .cnt20t => cnt20t | .cnt20u => cnt20u | .cnt20v => cnt20v | .cnt20w => cnt20w | .cnt20x => cnt20x
  | .cnt20y => cnt20y | .cnt20z => cnt20z
  | .fill0 => fill0 | .fill1 => fill1 | .rowRepeat => rowRepeat | .rb => rb

/-- Settles O36: by the family RoundTrip, one lemma for each row of the table. -/
theorem decodeInvertsEncode : Obligations.DecodeInvertsEncode := decode_encode

/-! ### What the decoder accepts -/

theorem wellFormed_namedWrite (off : Nat) (v : Data) : wellFormed (decodeNamedWrite off v) = true := by
  unfold decodeNamedWrite
  split_ifs <;> rfl

theorem wellFormed_namedRead (off : Nat) : wellFormed (decodeNamedRead off) = true := by
  unfold decodeNamedRead
  split_ifs <;> rfl

/-- A reserved access at a word offset is that of the row whose range the offset lies in. -/
theorem wellFormed_reserved {wr : Bool} {off : Nat} {v : Data} (hlo : 0x28 ≤ off) (hhi : off < 256) (ha : off % 4 = 0)
    (hv : readHasNoData wr v = true) : wellFormed (decodeReserved wr off v) = true := by
  have hoff : off % 256 = off := Nat.mod_eq_of_lt hhi
  unfold decodeReserved
  split_ifs <;> simp [wellFormed, inRsvd28, inRsvd30, inRsvd40, inRsvd80, alignedOff, hv, hoff, ha] <;> omega

theorem wellFormed_hreg {w : Word} {i : Instr} (h : decodeWord .hreg w = .ok i) : wellFormed i = true := by
  have hhi : fieldOf w.toNat 2 8 < 256 := Nat.mod_lt _ (by decide)
  simp only [decodeWord, decodeHreg] at h
  split_ifs at h <;> obtain rfl := Except.ok.inj h
  · exact wellFormed_namedWrite _ _
  · exact wellFormed_reserved (by omega) hhi (by omega) rfl
  · exact wellFormed_namedRead _
  · exact wellFormed_reserved (by omega) hhi (by omega) rfl

theorem accepted_seq {w : Word} {i : Instr} (h : decodeWord .seq w = .ok i) : wellFormed i = true ∧ spaceOf i = .seq := by
  simp only [decodeWord, decodeSeq] at h
  split_ifs at h <;> cases h <;> exact ⟨rfl, rfl⟩

theorem accepted_uopR {row : RastRow} {w : Word} {i : Instr} (h : decodeWord (.uopR row) w = .ok i) :
    wellFormed i = true ∧ spaceOf i = .uopR row := by
  simp only [decodeWord, decodeUopR] at h
  cases row
  all_goals
    dsimp only at h
    split_ifs at h
    cases h
    exact ⟨rfl, rfl⟩

theorem accepted_uopC {w : Word} {i : Instr} (h : decodeWord .uopC w = .ok i) : wellFormed i = true ∧ spaceOf i = .uopC := by
  simp only [decodeWord, decodeUopC] at h
  split_ifs at h <;> cases h <;> exact ⟨rfl, rfl⟩

/-- Every code the table of symbols lists is that of the symbol it gives (30_encoding.md R95). -/
theorem symbolCode_of_symbolOf {code : Nat} {i : Instr} (h : symbolOf code = some i) : symbolCode i = some code := by
  unfold symbolOf at h
  repeat (obtain ⟨rfl, h⟩ | ⟨-, h⟩ := ite_eq_iff.mp h; · cases h; rfl)
  cases h

/-- What has a code is a symbol, and a symbol has no operand to check. -/
theorem accepted_symbol {code : Nat} {i : Instr} (h : symbolCode i = some code) : wellFormed i = true ∧ spaceOf i = .sym8 := by
  cases i <;> cases h <;> exact ⟨rfl, rfl⟩

theorem accepted_sym8 {w : Word} {i : Instr} (h : decodeWord .sym8 w = .ok i) : wellFormed i = true ∧ spaceOf i = .sym8 := by
  simp only [decodeWord, decodeSym8] at h
  split_ifs at h
  split at h
  · next hj =>
    cases h
    exact accepted_symbol (symbolCode_of_symbolOf hj)
  · cases h

/-- Settles O37: format by format. -/
theorem decodeGivesWellFormed : Obligations.DecodeGivesWellFormed := by
  intro sp w i h
  cases sp with
  | hreg => exact ⟨wellFormed_hreg h, spaceOf_hreg h⟩
  | seq => exact accepted_seq h
  | uopR row => exact accepted_uopR h
  | uopC => exact accepted_uopC h
  | sym8 => exact accepted_sym8 h

/-! ### Every selector value has its row (30_encoding.md R116) -/

/-- A register access at a word offset decodes; a read carries no data. -/
theorem decodeHreg_aligned {wr : Bool} {off : Nat} {v : Data} (ho : off < 256) (ha : off % 4 = 0) (hv : wr = false → v = 0#32) :
    ∃ i, decodeHreg (hregBits wr off v.toNat) = .ok i := by
  cases wr with
  | true => exact ⟨_, decodeHreg_write off v.toNat ho ha v.isLt⟩
  | false => obtain rfl := hv rfl; exact ⟨_, decodeHreg_read off ho ha⟩

/-- The SEQ row that PHASE selects (30_encoding.md R107). -/
def seqRow : Phase → Instr
  | .idle => .holdIdle
  | .busy => .pix
  | .done => .holdDone
  | .err => .holdErr

theorem decodeWord_phaseWord (p : Phase) : decodeWord .seq (phaseWord p) = .ok (seqRow p) := by
  cases p <;> decide

/-- The UOP_C row that FRESH, isrb and same select (30_encoding.md R109), on the character '0' where isrb is 0. -/
def uopCRow : Bool → Bool → Bool → Instr
  | true, true, same => .rseed same .rowBreak
  | true, false, same => .rseed same (.digit 0#4)
  | false, true, same => .rrowbrk same
  | false, false, true => .rsame
  | false, false, false => .rbound 0#4

theorem decodeWord_condBits (fresh isrb same : Bool) :
    decodeWord .uopC (BitVec.ofNat 48 (condBits fresh isrb same)) = .ok (uopCRow fresh isrb same) := by
  cases fresh <;> cases isrb <;> cases same <;> decide

/-- Settles O38: the register access by its direction, PHASE and the vector by their values. -/
theorem everySelectorHasARow : Obligations.EverySelectorHasARow := by
  refine ⟨fun wr off v ha hv => ?_, fun p => ⟨_, decodeWord_phaseWord p⟩, fun a b c => ⟨_, decodeWord_condBits a b c⟩⟩
  rw [decodeWord, BitVec.toNat_ofNat, Nat.mod_eq_of_lt (hregBits_lt wr _ _ off.isLt v.isLt)]
  exact decodeHreg_aligned off.isLt ha hv

/-- Settles O15: the core's move is the SEQ word that PHASE is; the holds answer the state they are given. -/
theorem phaseSelectsTheCoreMove : Obligations.PhaseSelectsTheCoreMove := by
  intro s rest
  refine ⟨?_, rfl, rfl, rfl⟩
  rw [step_cons]
  refine (runWord_ok _ (decodeWord_phaseWord s.phase)).trans ?_
  cases s.phase <;> rfl

/-- Settles O35: each word by evaluation of its format's decoder. -/
theorem writtenOutWordsDecode : Obligations.WrittenOutWordsDecode :=
  ⟨rfl, rfl, rfl, rfl, rfl, rfl, rfl, rfl, rfl, rfl⟩

/-! ### Table words placed to run next (log 3, log 4) -/

theorem bytesOfNat_length (n w : Nat) : (bytesOfNat n w).length = n := by
  induction n generalizing w with
  | zero => rfl
  | succ n ih => rw [bytesOfNat, List.length_cons, ih]

theorem natOfBytes_bytesOfNat (n w : Nat) : natOfBytes (bytesOfNat n w) = w % 256 ^ n := by
  induction n generalizing w with
  | zero => rw [bytesOfNat, natOfBytes, Nat.pow_zero, Nat.mod_one]
  | succ n ih =>
    rw [bytesOfNat, natOfBytes, ih, BitVec.toNat_ofNat, Nat.pow_succ' (m := 256), Nat.mod_mul]

/-- The six bytes of a word decode as the word does. -/
theorem decode_bytesOfNat (sp : Space) (w : Nat) : decode sp (bytesOfNat 6 w) = decodeWord sp (BitVec.ofNat 48 w) := by
  have hw : BitVec.ofNat 48 (natOfBytes (bytesOfNat 6 w)) = BitVec.ofNat 48 w := by
    apply BitVec.eq_of_toNat_eq
    rw [natOfBytes_bytesOfNat, BitVec.toNat_ofNat, BitVec.toNat_ofNat, show 256 ^ 6 = 2 ^ 48 by decide, Nat.mod_mod]
  rw [decode, if_pos (bytesOfNat_length 6 w), hw]

theorem decodeWord_of_tableWord {nbits w : Nat} {i : Instr} (h : decodeTableWord nbits w = some i) :
    decodeWord (tableSpace nbits (w % 2 ^ nbits)) (BitVec.ofNat 48 (w % 2 ^ nbits)) = .ok i := by
  rw [decodeTableWord, decode_bytesOfNat] at h
  split at h
  · next j hj => rw [hj, Option.some.inj h]
  · cases h

/-- A SEQ word is the PHASE it puts the core in (30_encoding.md R107). -/
theorem seqRow_phaseOfCode {w : Nat} {i : Instr} (h : decodeWord .seq (BitVec.ofNat 48 w) = .ok i) :
    i = seqRow (phaseOfCode w) := by
  rw [decodeWord, BitVec.toNat_ofNat] at h
  have hw : w % 4 = w % 2 ^ 48 % 4 := by omega
  unfold decodeSeq at h
  unfold phaseOfCode
  split_ifs at h with hc hc hc hc <;> obtain rfl := Except.ok.inj h <;> simp [hw, hc, seqRow]

/-- The state in which the step runs a placed word: only PHASE and COMP_EN are set for it. -/
def placedIn (sp : Space) (w : Nat) (s : State) : State := { placeWord sp w s with agenda := s.agenda }

theorem placedIn_eq (sp : Space) (w : Nat) (s : State) :
    placedIn sp w s = { s with phase := (placedIn sp w s).phase, compEn := (placedIn sp w s).compEn } := by
  cases sp <;> rfl

theorem step_placeWord {sp : Space} {w : Nat} {i : Instr} (s : State) (h : decodeWord sp (BitVec.ofNat 48 w) = .ok i) :
    step (placeWord sp w s) = exec i (placedIn sp w s) := by
  cases sp with
  | seq =>
    obtain rfl := seqRow_phaseOfCode h
    exact runWord_ok (placedIn .seq w s) (decodeWord_phaseWord _)
  | hreg | uopR | uopC | sym8 => exact runWord_ok (placedIn _ w s) h

theorem placedIn_hreg (w : Nat) (s : State) : placedIn .hreg w s = s := rfl

/-- PIX runs in BUSY, the phase that its own word is. -/
theorem placedIn_pix {w : Nat} (s : State) (h : decodeWord .seq (BitVec.ofNat 48 w) = .ok .pix) :
    (placedIn .seq w s).phase = .busy := by
  have hp : Instr.pix = seqRow (phaseOfCode w) := seqRow_phaseOfCode h
  change phaseOfCode w = .busy
  cases hc : phaseOfCode w with
  | busy => rfl
  | idle | done | err => rw [hc] at hp; cases hp

/-- Settles O41: the word decodes in the format it is placed in, which is that of its operation. -/
theorem placedWordRunsNext : Obligations.PlacedWordRunsNext := by
  intro s nbits w i h
  have hd := decodeWord_of_tableWord h
  have hs := (decodeGivesWellFormed _ _ _ hd).2
  unfold State.withFetchWord
  generalize tableSpace nbits (w % 2 ^ nbits) = sp at hd hs
  generalize w % 2 ^ nbits = m at hd
  refine ⟨placedIn sp m s, step_placeWord s hd, placedIn_eq sp m s, fun hi => ?_, fun hi => ?_⟩
  · obtain rfl := hi.symm.trans hs
    exact placedIn_hreg m s
  · subst hi hs
    exact placedIn_pix s hd

/-! ### The sizes after START (30_encoding.md R98) -/

/-- An accepted START with non-negative dimensions has the sizes, whether or not there is anything to scan. -/
theorem startFrame_sizes {s : State} (hw : negativeDim s.width = false) (hh : negativeDim s.height = false) :
    (startFrame s).state.bpr = bytesPerRow s.width ∧
      (startFrame s).state.total = totalBytes (bytesPerRow s.width) s.height := by
  rcases startFrame_cases s with ⟨hneg, -⟩ | ⟨-, -, -, h⟩ | ⟨-, -, -, -, h⟩
  · simp [hw, hh] at hneg
  · rw [h]; exact ⟨rfl, rfl⟩
  · rw [h, Flow.state_cont, beginScan_eq]; exact ⟨rfl, rfl⟩

/-- Settles O14: the sizes are below 2^13 and 2^32, so neither wraps around. -/
theorem startComputesExactSizes : Obligations.StartComputesExactSizes := by
  intro hi s t hp hw hh hx
  rw [← negativeDim_false_iff_toInt] at hw hh
  have hstart : exec (.wrCtrlStart hi) s = .next (startFrame s).state := if_pos hp
  obtain rfl := Host.Outcome.next.inj (hstart.symm.trans hx)
  obtain ⟨hbpr, htotal⟩ := startFrame_sizes hw hh
  rw [negativeDim_false_iff] at hw hh
  have hb : (s.width.toNat + 7) / 8 ≤ 4096 := by omega
  rw [hbpr, htotal, totalBytes_toNat, bytesPerRow_toNat _ hw]
  exact ⟨rfl, hb, rfl, Nat.mul_le_mul hb (show s.height.toNat ≤ 32767 by omega)⟩

/-! ### The body of a frame (30_encoding.md R94) -/

theorem hexBody_cons (r : List Byte) (rows : List (List Byte)) : hexBody (r :: rows) = r ++ Config.rbCode :: hexBody rows := by
  simp [hexBody]

/-- Rows of `n` characters: each gives those and its RB. -/
theorem hexBody_length {n : Nat} {rows : List (List Byte)} (h : ∀ r ∈ rows, r.length = n) :
    (hexBody rows).length = rows.length * (n + 1) := by
  induction rows with
  | nil => simp [hexBody]
  | cons r rows ih =>
    rw [List.forall_mem_cons] at h
    rw [hexBody_cons, List.length_append, List.length_cons, ih h.2, h.1, List.length_cons, Nat.succ_mul]
    omega

/-- Without its row-breaks a body of digits is its rows. -/
theorem hexBody_filter {rows : List (List Byte)} (h : ∀ r ∈ rows, ∀ c ∈ r, isHexDigit c = true) :
    ((hexBody rows).filter fun c => c != 0x0A#8) = rows.flatten := by
  induction rows with
  | nil => rfl
  | cons r rows ih =>
    rw [List.forall_mem_cons] at h
    have hr : (r.filter fun c => c != 0x0A#8) = r :=
      List.filter_eq_self.mpr fun c hc => congrArg not (isHexDigit_ne_rb c (h.1 c hc))
    rw [hexBody_cons, List.filter_append, hr, List.filter_cons_of_neg (by decide), ih h.2, List.flatten_cons]

theorem frameRows_length (px : Nat → Nat → Pixel) (thresh : BitVec 11) (w h : Nat) : (frameRows px thresh w h).length = h := by
  simp [frameRows]

/-- Every row is the two digits of each of its bytes. -/
theorem frameRows_digits (px : Nat → Nat → Pixel) (thresh : BitVec 11) (w h : Nat) :
    ∀ r ∈ frameRows px thresh w h, r.length = 2 * ((w + 7) / 8) ∧ ∀ c ∈ r, isHexDigit c = true := by
  intro r hr
  obtain ⟨y, -, rfl⟩ := List.mem_map.mp hr
  rw [rowDigits_eq]
  exact ⟨digitsSoFar_length px thresh w y _, digitsSoFar_isHexDigit px thresh w y _⟩

/-- Settles O51: from the form of the rows. -/
theorem hexBodyHasItsLength : Obligations.HexBodyHasItsLength := by
  intro px thresh w h _
  have hrows := frameRows_digits px thresh w h
  have hlen : ∀ r ∈ frameRows px thresh w h, r.length = 2 * ((w + 7) / 8) := fun r hr => (hrows r hr).1
  refine ⟨?_, ?_, hrows⟩
  · rw [hexBody_length hlen, frameRows_length]
  · rw [hexBody_filter fun r hr => (hrows r hr).2, List.length_flatten, List.map_congr_left hlen, List.map_const',
      List.sum_replicate, frameRows_length, smul_eq_mul, Nat.mul_comm]

/-! ### The run alphabet (30_encoding.md R100, R101) -/

/-- `c` is the count letter of `n`: the units from 'G', the twenties from 'g'. -/
def isLetterOf (c : Byte) (n : Nat) : Prop :=
  (1 ≤ n ∧ n ≤ 19 ∧ c.toNat = 0x46 + n) ∨ (20 ≤ n ∧ n ≤ 400 ∧ n % 20 = 0 ∧ c.toNat = 0x67 + n / 20 - 1)

theorem alpha_multiple {n : Nat} (h1 : 20 ≤ n) (h2 : n ≤ 400) (h3 : n % 20 = 0) :
    alpha n = some (BitVec.ofNat 8 (0x67 + n / 20 - 1)) := by
  rw [alpha, if_neg (by omega), if_pos ⟨h1, h2, h3⟩]

theorem alpha_none {n : Nat} (h1 : ¬(1 ≤ n ∧ n ≤ 19)) (h2 : ¬(20 ≤ n ∧ n ≤ 400 ∧ n % 20 = 0)) : alpha n = none := by
  rw [alpha, if_neg h1, if_neg h2]

theorem alpha_eq_some_iff (n : Nat) (c : Byte) : alpha n = some c ↔ isLetterOf c n := by
  have hofNat (m : Nat) (hm : m < 256) : some (BitVec.ofNat 8 m) = some c ↔ c.toNat = m := by
    rw [Option.some.injEq, BitVec.toNat_eq, BitVec.toNat_ofNat, Nat.mod_eq_of_lt hm, eq_comm]
  unfold isLetterOf
  by_cases h1 : 1 ≤ n ∧ n ≤ 19
  · rw [alpha_unit n h1.1 h1.2, hofNat _ (by omega)]; omega
  · by_cases h2 : 20 ≤ n ∧ n ≤ 400 ∧ n % 20 = 0
    · rw [alpha_multiple h2.1 h2.2.1 h2.2.2, hofNat _ (by omega)]; omega
    · rw [alpha_none h1 h2]; simp; omega

theorem letterValue_eq_some_iff (c : Byte) (n : Nat) : letterValue c = some n ↔ isLetterOf c n := by
  simp only [letterValue, isLetterOf, Config.runBase]
  split_ifs <;> simp <;> omega

theorem alpha_isSome_iff (n : Nat) : (alpha n).isSome = true ↔ (1 ≤ n ∧ n ≤ 19) ∨ (20 ≤ n ∧ n ≤ 400 ∧ n % 20 = 0) := by
  by_cases h1 : 1 ≤ n ∧ n ≤ 19
  · simp [alpha_unit n h1.1 h1.2, h1]
  · by_cases h2 : 20 ≤ n ∧ n ≤ 400 ∧ n % 20 = 0
    · simp [alpha_multiple h2.1 h2.2.1 h2.2.2, h2]
    · simp [alpha_none h1 h2, h1, h2]

/-- Settles O32: ALPHA and VALUE both say that the letter is that of the count, so each inverts the other, and a letter has
one count. -/
theorem runAlphabetIsBidirectional : Obligations.RunAlphabetIsBidirectional := by
  have hinv (n : Nat) (c : Byte) : alpha n = some c ↔ letterValue c = some n :=
    (alpha_eq_some_iff n c).trans (letterValue_eq_some_iff c n).symm
  refine ⟨alpha_unit, fun _ => alpha_multiple, alpha_isSome_iff, fun c h1 h2 => ?_, fun c h1 h2 => ?_,
    fun n c => (hinv n c).mp, fun c n => (hinv n c).mpr, fun m n c hm hn => ?_⟩
  · exact if_pos ⟨h1, h2⟩
  · rw [letterValue, if_neg (by omega), if_pos ⟨h1, h2⟩]
  · exact Option.some.inj (((hinv m c).mp hm).symm.trans ((hinv n c).mp hn))

end Sys2Proof.Machine

namespace Sys2Proof.Machine

/-! ## The rasterizer (40_rasterizer.md): proofs -/

/-! ### The operations performed in BUSY only (log 14, log 21) -/

/-- A micro-operation of RAST is performed in BUSY only. -/
theorem exec_uopR {i : Instr} {row : RastRow} (s : State) (h : spaceOf i = .uopR row) : ∃ f, exec i s = whileBusy s f := by
  cases i <;> cases h <;> exact ⟨_, rfl⟩

/-- A micro-operation of RLE is performed in BUSY with compression only. -/
theorem exec_uopC {i : Instr} (s : State) (h : spaceOf i = .uopC) : ∃ f, exec i s = whileCompressing s f := by
  cases i <;> cases h <;> exact ⟨_, rfl⟩

/-- Settles O16: each of the operations is guarded by its phase. -/
theorem operationsOutsideTheirPhaseDoNothing : Obligations.OperationsOutsideTheirPhaseDoNothing := by
  intro i s
  refine ⟨fun hb hi => ?_, fun hb hi => ?_⟩
  · rcases hi with rfl | ⟨row, hi⟩
    · exact if_neg hb
    · obtain ⟨f, hf⟩ := exec_uopR s hi
      rw [hf, whileBusy_off hb]
  · obtain ⟨f, hf⟩ := exec_uopC s hi
    rw [hf, whileCompressing_off hb]

/-! ### START (40_rasterizer.md R132) -/

theorem exec_start_idle {s : State} (hi : BitVec 30) (h : s.phase = .idle) :
    exec (.wrCtrlStart hi) s = .next (startFrame s).state := if_pos h

theorem exec_start_ignored {s : State} (hi : BitVec 30) (h : s.phase ≠ .idle) : exec (.wrCtrlStart hi) s = .next s := if_neg h

/-- Error entry enters the error (60_exceptions.md R256). -/
theorem errorEntered_errorEntry (x : ErrCause) (n : BitVec 14) (s : State) : errorEntered x n.toNat s (errorEntry x n s) :=
  ⟨rfl, rfl, rfl, rfl, rfl, rfl, rfl, rfl, rfl, rfl, rfl, rfl, rfl, rfl, rfl⟩

/-- TOTAL as the product of the row's bytes and the height (30_encoding.md R98). -/
theorem totalBytes_bytesPerRow {w : BitVec 16} (h : BitVec 16) (hw : negativeDim w = false) :
    totalBytes (bytesPerRow w) h = BitVec.ofNat 32 ((w.toNat + 7) / 8 * h.toNat) := by
  rw [totalBytes, bytesPerRow_toNat _ ((negativeDim_false_iff w).mp hw)]

/-- Settles O13: the three outcomes of START's pseudocode. -/
theorem startBeginsAFrame : Obligations.StartBeginsAFrame := by
  intro hi s
  simp only [← negativeDim_eq_bit]
  refine ⟨exec_start_ignored hi, fun hp hneg => ?_, fun hp hw hh h0 => ?_, fun hp hw hh hw0 hh0 => ?_⟩
  · rw [exec_start_idle hi hp, startFrame_negative s hneg]
    exact ⟨_, rfl, { errorEntered_errorEntry .invalidDimension 0#14 (startCleared s) with }⟩
  · rw [exec_start_idle hi hp, startFrame_empty s hw hh h0, ← totalBytes_bytesPerRow _ hw]
    rfl
  · rw [exec_start_idle hi hp, startFrame_scan s hw hh hw0 hh0, ← totalBytes_bytesPerRow _ hw, Flow.state_cont, beginScan_eq]
    have hrle : (startSized s).hasRle = s.hasRle := rfl
    constructor <;> (intro hr; rw [hrle, hr]; rfl)

/-! ### PIX as its micro-operations (40_rasterizer.md R133) -/

theorem fullCond_eq_true (s : State) : fullCond s = true ↔ s.nbits.toNat + 1 = 8 := beq_iff_eq
theorem lastcolCond_eq_true (s : State) : lastcolCond s = true ↔ s.col = s.width - 1#16 := beq_iff_eq
theorem lastrowCond_eq_true (s : State) : lastrowCond s = true ↔ s.row = s.height - 1#16 := beq_iff_eq

/-- EMITBYTE leaves COL alone unless it raises. -/
theorem emitByte_col {s t : State} (h : emitByte s = .cont t) : t.col = s.col := by
  rcases emitByte_cases s with ⟨u, hu, hf, -⟩ | ⟨-, u, hu, -⟩ <;> rw [hu] at h <;> cases h
  exact (rleFrame_col hf :)

/-- What follows an operation depends only on the states it goes on in. -/
theorem Flow.andThen_congr {f : Flow} {k l : State → Flow} (h : ∀ t, f = .cont t → k t = l t) :
    f.andThen k = f.andThen l := by
  cases f with
  | cont t => exact h t rfl
  | stop t => rfl

/-- Settles O17: the pseudocode of PIX, whose operations up to the scan's advance leave COL as it was. -/
theorem pixRunsItsMicroOperations : Obligations.PixRunsItsMicroOperations := by
  intro s px hb hc hr hp
  rw [execPix_served hb hc hr hp, pixStep_eq]
  simp only [Bool.or_eq_true, fullCond_eq_true, lastcolCond_eq_true]
  refine congrArg (fun f : Flow => Host.Outcome.next f.state) (Flow.andThen_congr fun u hu => ?_)
  have hcol : u.col = s.col := by
    split at hu
    · exact (emitByte_col hu).trans rfl
    · cases hu; rfl
  rw [hcol]
  rfl

/-! ### CLASSIFY and PACK (40_rasterizer.md R134, R135) -/

theorem channelSum_le (px : Pixel) : channelSum px ≤ 765 := by
  have hr := px.r.isLt
  have hg := px.g.isLt
  have hb := px.b.isLt
  unfold channelSum
  omega

theorem channelSum_eq_zero (px : Pixel) : channelSum px = 0 ↔ px = ⟨0#8, 0#8, 0#8⟩ := by
  obtain ⟨r, g, b⟩ := px
  simp [channelSum, BitVec.toNat_eq, and_assoc]

theorem exec_classify (k : RastCond) (px : Pixel) {s : State} (hb : s.phase = .busy) :
    exec (.classify k px) s = .next { s with bit := isBlack px s.thresh } := whileBusy_on hb _

/-- Settles O21: the sum is at most 765, and 0 for three zero channels only. -/
theorem classifyComparesTheSum : Obligations.ClassifyComparesTheSum := by
  intro k px s hb
  rw [exec_classify k px hb]
  refine ⟨rfl, fun ht => ?_, fun ht => ?_⟩
  · have hblack : isBlack px s.thresh = true := decide_eq_true (le_trans (channelSum_le px) ht)
    rw [hblack]
  · have hblack : isBlack px s.thresh = decide (px = ⟨0#8, 0#8, 0#8⟩) := by
      rw [isBlack, ht]
      exact decide_eq_decide.mpr (Nat.le_zero.trans (channelSum_eq_zero px))
    rw [hblack]

theorem exec_pack (k : RastCond) (b : Bool) {s : State} (hb : s.phase = .busy) :
    exec (.pack k b) s = .next { s with acc := packBit s.acc s.nbits b } := whileBusy_on hb _

/-- The packed byte, position by position. -/
theorem packBit_getLsbD (acc : BitVec 8) (nbits : BitVec 3) (b : Bool) {j : Nat} (hj : j < 8) :
    (packBit acc nbits b).getLsbD j = (acc.getLsbD j || (b && decide (j = 7 - nbits.toNat))) := by
  rw [packBit, BitVec.getLsbD_or]
  cases b with
  | false => simp [natOfBool]
  | true =>
    have h1 : BitVec.ofNat 8 (natOfBool true) <<< (7 - nbits.toNat) = BitVec.twoPow 8 (7 - nbits.toNat) := rfl
    rw [h1, BitVec.getLsbD_twoPow, Bool.true_and]
    congr 1
    simp [eq_comm]
    omega

/-- Settles O22: the byte that PACK forms, position by position. -/
theorem packSetsOneBit : Obligations.PackSetsOneBit :=
  fun k b _ hb => ⟨_, exec_pack k b hb, fun _ hj => packBit_getLsbD _ _ b hj⟩

/-! ### Emit and EMITBYTE (40_rasterizer.md R139, R136) -/

/-- Settles O26: COMP_EN selects. -/
theorem emitRoutesByCompEn : Obligations.EmitRoutesByCompEn := fun c s => ⟨emit_raw c s, emit_compressed c s⟩

theorem highNibble_eq_extract (b : Byte) : highNibble b = b.extractLsb' 4 4 := by
  apply BitVec.eq_of_toNat_eq
  simp [highNibble, Nat.shiftRight_eq_div_pow]

theorem lowNibble_eq_extract (b : Byte) : lowNibble b = b.extractLsb' 0 4 := by
  apply BitVec.eq_of_toNat_eq
  simp [lowNibble]

theorem hexPair_eq_extract (b : Byte) : hexPair b.toNat = [hexDigit (b.extractLsb' 4 4), hexDigit (b.extractLsb' 0 4)] := by
  rw [← highNibble_eq_extract, ← lowNibble_eq_extract]
  rfl

theorem exec_emitbyteFull (a b : Bool) {s : State} (hb : s.phase = .busy) :
    exec (.emitbyteFull a b) s = .next (emitByte s).state := whileBusy_on hb _

theorem exec_emitbyteLastcol (a b : Bool) {s : State} (hb : s.phase = .busy) :
    exec (.emitbyteLastcol a b) s = .next (emitByte s).state := whileBusy_on hb _

/-- EMITBYTE in terms of the bits of ACC. -/
theorem emitByte_eq (s : State) :
    emitByte s = (emit (hexDigit (s.acc.extractLsb' 4 4)) s).andThen fun t =>
      (emit (hexDigit (s.acc.extractLsb' 0 4)) t).andThen fun u => .cont { u with acc := 0#8, nbits := 0#3 } := by
  rw [← highNibble_eq_extract, ← lowNibble_eq_extract]
  rfl

/-- Settles O23: the two Emits in their order, by how each of them ends. -/
theorem emitByteSendsTwoDigits : Obligations.EmitByteSendsTwoDigits := by
  intro a b s hb
  rw [exec_emitbyteFull a b hb, exec_emitbyteLastcol a b hb, emitByte_eq]
  refine ⟨rfl, fun t u h1 h2 => ?_, fun t h1 => ?_, fun t u h1 h2 => ?_⟩
  · rw [h1, Flow.andThen_cont, h2]; rfl
  · rw [h1]; rfl
  · rw [h1, Flow.andThen_cont, h2]; rfl

theorem hexDigit_injective {m n : BitVec 4} (h : hexDigit m = hexDigit n) : m = n := by
  revert m n; decide

/-- On a fresh row the first character seeds a run (41_rle_compressor.md R163). -/
theorem rleStep_seed (c : Byte) {s : State} (hf : s.fresh = true) : rleStep c s = .cont (seedRun c s) := if_pos hf

/-- A digit equal to the pending one extends the run (41_rle_compressor.md R164). -/
theorem rleStep_same {d : BitVec 4} {s : State} (hf : s.fresh = false) (hs : hexDigit d = s.pend) :
    rleStep (hexDigit d) s = .cont (extendRun s) := by
  have hrb := hexDigit_ne_rb d
  rw [hs] at hrb ⊢
  simp [rleStep, hf, hrb, sameCond]

/-- A digit other than the pending one bounds the run (41_rle_compressor.md R165). -/
theorem rleStep_other {d : BitVec 4} {s : State} (hf : s.fresh = false) (hs : hexDigit d ≠ s.pend) :
    rleStep (hexDigit d) s = boundRun (hexDigit d) s := by
  simp [rleStep, hf, hexDigit_ne_rb, sameCond, hs]

/-- RBOUND on a run of one: the letter 'G' and the digit. -/
theorem boundRun_one (c : Byte) {s : State} (hr : s.run = 1#14) :
    boundRun c s = .cont { s with line := s.line ++ [0x47#8, s.pend], run := 1#14, pend := c } := by
  have he : encodeRun s.run.toNat s.pend = some [0x47#8, s.pend] := by rw [hr]; rfl
  simp [boundRun, appendRun, he]

/-- EMITBYTE on a fresh row hands the second digit to a run of the first. -/
theorem emitByte_fresh {s : State} (hc : compEnabled s = true) (hf : s.fresh = true) :
    emitByte s = (rleStep (hexDigit (s.acc.extractLsb' 0 4)) (seedRun (hexDigit (s.acc.extractLsb' 4 4)) s)).andThen
      fun u => .cont { u with acc := 0#8, nbits := 0#3 } := by
  have hc' : ∀ c, compEnabled (seedRun c s) = true := fun _ => hc
  rw [emitByte_eq, emit_compressed _ _ hc, rleStep_seed _ hf, Flow.andThen_cont, emit_compressed _ _ (hc' _)]

/-- Settles O24: without compression two appends; on a fresh row a seed, then an extension or a boundary of a run of one. -/
theorem emitByteCompletes : Obligations.EmitByteCompletes := by
  intro a b s hb
  rw [exec_emitbyteFull a b hb, exec_emitbyteLastcol a b hb]
  refine ⟨fun hc => ?_, fun hc hf => ⟨fun heq => ?_, fun hne => ?_⟩⟩
  · rw [emitByte_raw s hc, hexPair_eq_extract]
    exact ⟨rfl, rfl⟩
  · rw [emitByte_fresh hc hf, heq, rleStep_same rfl rfl]
    rfl
  · rw [emitByte_fresh hc hf, rleStep_other rfl fun h => hne (hexDigit_injective h).symm, boundRun_one _ rfl]
    rfl

/-! ### ROWEND and FRAMEEND (40_rasterizer.md R138) -/

theorem exec_rowend (a l : Bool) {s : State} (hb : s.phase = .busy) : exec (.rowend a l) s = .next (rowEnd l s).state :=
  whileBusy_on hb _

theorem rowEnd_cont (l : Bool) {s t : State} (h : emit Config.rbCode s = .cont t) :
    rowEnd l s = .cont (if l then { t with col := 0#16, phase := .done } else { t with col := 0#16, row := t.row + 1#16 }) := by
  rw [rowEnd, h]
  cases l <;> rfl

theorem rowEnd_stop (l : Bool) {s t : State} (h : emit Config.rbCode s = .stop t) : rowEnd l s = .stop t := by
  rw [rowEnd, h]
  rfl

/-- Settles O25: by how Emit(RB) ends. -/
theorem rowEndAndFrameEnd : Obligations.RowEndAndFrameEnd := by
  intro a s hb
  have hcont : ∀ t, emit Config.rbCode s = .cont t →
      exec (.rowend a true) s = .next { t with col := 0#16, phase := .done } ∧
      exec (.rowend a false) s = .next { t with col := 0#16, row := t.row + 1#16 } := by
    intro t ht
    rw [exec_rowend a true hb, exec_rowend a false hb, rowEnd_cont true ht, rowEnd_cont false ht]
    exact ⟨rfl, rfl⟩
  refine ⟨hcont, fun l t ht => ?_, fun hc => hcont _ (emit_raw _ _ hc), whileBusy_on hb _⟩
  rw [exec_rowend a l hb, rowEnd_stop l ht, emit_stop ht]
  exact ⟨rfl, rfl, rfl⟩

/-! ### PIX without compression (40_rasterizer.md R133 to R138) -/

/-- PACK as an OR of the pixel's place or of nothing. -/
theorem packBit_eq (acc : BitVec 8) (nbits : BitVec 3) (b : Bool) :
    packBit acc nbits b = acc ||| (if b then 1#8 <<< (7 - nbits.toNat) else 0#8) := by
  cases b with
  | true => rfl
  | false => simp [packBit, natOfBool]

theorem hexPair_eq_mod (n : Nat) : hexPair n = [hexDigit (BitVec.ofNat 4 (n / 16)), hexDigit (BitVec.ofNat 4 (n % 16))] := by
  have h : BitVec.ofNat 4 (n % 16) = BitVec.ofNat 4 n := by
    apply BitVec.eq_of_toNat_eq
    simp
  rw [h, hexPair]

theorem fullCond_eq_decide (s : State) : fullCond s = decide (s.nbits = 7#3) := by
  rw [Bool.eq_iff_iff, fullCond_iff, decide_eq_true_eq, BitVec.toNat_eq]
  rfl

@[simp] theorem packed_out (px : Pixel) (s : State) : (packed px s).out = s.out := rfl

section
variable {px : Pixel} {s : State} (hc : compEnabled s = false)
include hc

/-- Inside a byte and a row: one bit is packed. -/
theorem pixStep_raw_inByte (hf : fullCond s = false) (hl : lastcolCond s = false) :
    pixStep px s = .cont { packed px s with nbits := s.nbits + 1#3, col := s.col + 1#16 } := by
  simp [pixStep_raw px s hc, advanced, rawText, hf, hl]

/-- At the end of a byte inside a row: its digits are sent. -/
theorem pixStep_raw_byteEnd (hf : fullCond s = true) (hl : lastcolCond s = false) :
    pixStep px s = .cont { packed px s with
      acc := 0#8, nbits := 0#3, col := s.col + 1#16, out := s.out ++ hexPair (packed px s).acc.toNat } := by
  simp [pixStep_raw px s hc, advanced, rawText, hf, hl]

/-- At the end of a row that is not the last: the digits of its last byte and RB are sent. -/
theorem pixStep_raw_rowEnd (hl : lastcolCond s = true) (hr : lastrowCond s = false) :
    pixStep px s = .cont { packed px s with
      acc := 0#8, nbits := 0#3, col := 0#16, row := s.row + 1#16,
      out := s.out ++ hexPair (packed px s).acc.toNat ++ [Config.rbCode] } := by
  simp [pixStep_raw px s hc, advanced, rawText, hl, hr]

/-- At the last pixel: the same, and the frame is done. -/
theorem pixStep_raw_frameEnd (hl : lastcolCond s = true) (hr : lastrowCond s = true) :
    pixStep px s = .cont { packed px s with
      acc := 0#8, nbits := 0#3, col := 0#16, phase := .done,
      out := s.out ++ hexPair (packed px s).acc.toNat ++ [Config.rbCode] } := by
  simp [pixStep_raw px s hc, advanced, rawText, hl, hr]

end

/-- Settles O18: by the conditions of the step. -/
theorem pixWithoutCompression : Obligations.PixWithoutCompression := by
  intro s px hb hc hcol hrow hp
  rw [execPix_served hb hcol hrow hp]
  dsimp only
  rw [← packBit_eq, ← hexPair_eq_mod]
  refine ⟨fun hn hl => ?_, fun hn hl => ?_, fun hl hr => ?_, fun hl hr => ?_⟩
  · rw [pixStep_raw_inByte hc (by simp [fullCond_eq_decide, hn]) (by simp [lastcolCond, hl])]; rfl
  · rw [pixStep_raw_byteEnd hc (by simp [fullCond_eq_decide, hn]) (by simp [lastcolCond, hl])]; rfl
  · rw [pixStep_raw_rowEnd hc (by simp [lastcolCond, hl]) (by simp [lastrowCond, hr])]; rfl
  · rw [pixStep_raw_frameEnd hc (by simp [lastcolCond, hl]) (by simp [lastrowCond, hr])]; rfl

/-! ### The transitions of PHASE (40_rasterizer.md R141) -/

/-- A step whose move is a register access performs it. -/
theorem step_of_accesses {s : State} {i : Instr} (h : (headMove s).accesses i) : step s = exec i (nextMove s).2 := by
  obtain ⟨w, hw, hd⟩ := h
  change perform (headMove s) _ = _
  rw [hw]
  exact runWord_ok _ hd

theorem step_of_move {s : State} {e : Event} (h : headMove s = e) : step s = perform e (nextMove s).2 := by
  rw [← h]
  rfl

/-- PHASE after START, by the test it meets (R132). -/
theorem startFrame_phase (s : State) :
    ((s.width.toInt < 0 ∨ s.height.toInt < 0) ∧ (startFrame s).state.phase = .err ∧
      (startFrame s).state.errCause = .invalidDimension) ∨
    (0 ≤ s.width.toInt ∧ 0 ≤ s.height.toInt ∧ (s.width = 0#16 ∨ s.height = 0#16) ∧ (startFrame s).state.phase = .done) ∨
    (1 ≤ s.width.toInt ∧ 1 ≤ s.height.toInt ∧ (startFrame s).state.phase = .busy) := by
  rcases startFrame_cases s with ⟨hneg, h⟩ | ⟨hw, hh, h0, h⟩ | ⟨hw, hh, hw0, hh0, h⟩ <;> rw [h]
  · rw [negativeDim_iff_toInt, negativeDim_iff_toInt] at hneg
    exact .inl ⟨hneg, rfl, rfl⟩
  · rw [negativeDim_false_iff_toInt] at hw hh
    exact .inr (.inl ⟨hw, hh, h0, rfl⟩)
  · rw [negativeDim_false_iff] at hw hh
    rw [ne_zero_iff_toNat] at hw0 hh0
    rw [Flow.state_cont, beginScan_eq]
    exact .inr (.inr ⟨(toInt_pos_iff _).mpr ⟨hw0, hw⟩, (toInt_pos_iff _).mpr ⟨hh0, hh⟩, rfl⟩)

theorem startFrame_not_idle (s : State) : (startFrame s).state.phase ≠ .idle := by
  rcases startFrame_phase s with ⟨-, h, -⟩ | ⟨-, -, -, h⟩ | ⟨-, -, h⟩ <;> simp [h]

theorem exec_clear {s : State} (hi : BitVec 30) (h : s.phase = .done ∨ s.phase = .err) :
    exec (.wrCtrlClear hi) s = .next (clearFrame s) := if_pos h

/-- PHASE after a register access. -/
theorem exec_hreg_phase {i : Instr} {s t : State} (hs : spaceOf i = .hreg) (h : exec i s = .next t) :
    t.phase = s.phase ∨ (∃ hi, i = .wrCtrlStart hi ∧ s.phase = .idle ∧ t = (startFrame s).state) ∨
    (∃ hi, i = .wrCtrlClear hi ∧ (s.phase = .done ∨ s.phase = .err) ∧ t.phase = .idle) := by
  rcases execHreg_cases i s hs with ⟨r, he⟩ | ⟨v, -, -, he⟩ | ⟨v, -, -, -, he⟩ | ⟨v, -, -, he⟩ | ⟨v, -, -, he⟩ |
    ⟨hi, hx, hp, he⟩ | ⟨hi, hx, hp, he⟩ <;> obtain rfl := Host.Outcome.next.inj (he.symm.trans h)
  · exact .inl rfl
  · exact .inl rfl
  · exact .inl rfl
  · exact .inl rfl
  · exact .inl rfl
  · exact .inr (.inr ⟨hi, hx, hp, rfl⟩)
  · exact .inr (.inl ⟨hi, hx, hp, rfl⟩)

/-- PHASE after the core's move: kept, unless it was the frame's last pixel or a run raised. -/
theorem performCore_phase {s t : State} (h : perform .core s = .next t) :
    t.phase = s.phase ∨
    (s.phase = .busy ∧ s.col = s.width - 1#16 ∧ s.row = s.height - 1#16 ∧ t.phase = .done) ∨
    (s.phase = .busy ∧ t.phase = .err ∧ t.errCause = .encodingRange) := by
  rcases performCore_cases h with ⟨-, rfl⟩ | ⟨-, -, rfl⟩ | ⟨hb, px, n, rfl, -⟩
  · exact .inl rfl
  · exact .inl rfl
  · obtain ⟨-, ⟨hp, -⟩ | ⟨hp, -, -, -, hlast⟩ | ⟨hp, hc, -⟩⟩ := pixStep_ends px { s with freeCtr := n }
    · exact .inl hp
    · rw [Bool.and_eq_true, lastcolCond_eq_true, lastrowCond_eq_true] at hlast
      exact .inr (.inl ⟨hb, hlast.1, hlast.2, hp⟩)
    · exact .inr (.inr ⟨hb, hp, hc⟩)

/-- The last pixel, once served, ends the frame. -/
theorem performCore_lastPixel {s t : State} (h : perform .core s = .next t) (hb : s.phase = .busy)
    (hc : s.col.toNat + 1 = s.width.toNat) (hr : s.row.toNat + 1 = s.height.toNat) (hp : pixelServed s) :
    t.phase = .done ∨ t.phase = .err := by
  obtain ⟨px, hp⟩ := hp
  rcases performCore_cases h with ⟨hnb, -⟩ | ⟨-, hnone, -⟩ | ⟨-, px, n, rfl, -⟩
  · exact absurd hb hnb
  · simp [hp] at hnone
  · have hlast : (lastcolCond { s with freeCtr := n } && lastrowCond { s with freeCtr := n }) = true :=
      Bool.and_eq_true_iff.mpr ⟨(lastcol_iff (show s.col.toNat < s.width.toNat by omega)).mpr hc,
        (lastrow_iff (show s.row.toNat < s.height.toNat by omega)).mpr hr⟩
    obtain ⟨-, ⟨-, -, -, -, hnot⟩ | ⟨hd, -⟩ | ⟨he, -⟩⟩ := pixStep_ends px { s with freeCtr := n }
    · rw [hlast] at hnot; cases hnot
    · exact .inl hd
    · exact .inr he

/-- Settles O43: what each move of the hardware does to PHASE, then the events that must change it. -/
theorem phaseTransitionsAreTheTable : Obligations.PhaseTransitionsAreTheTable := by
  intro s t hw hstep
  have hu := nextMove_state s
  generalize (nextMove s).2.agenda = rest at hu
  refine ⟨?_, fun hi hacc hp => ?_, fun hi hacc hp => ?_, fun hr => ?_, fun hcore hb hc hr hpx => ?_⟩
  · rcases step_hardware_cases hw hstep with ⟨i, hs, hacc, hx⟩ | ⟨hcore, hx⟩ | ⟨hr, rfl⟩ | ⟨-, -, -, rfl⟩
    · rw [hu] at hx
      rcases exec_hreg_phase hs hx with h | ⟨hi, rfl, hp, rfl⟩ | ⟨hi, rfl, hp, h⟩
      · exact .inl h
      · exact .inr (.inl ⟨hi, hacc, hp, startFrame_phase { s with agenda := rest }⟩)
      · exact .inr (.inr (.inr (.inr (.inl ⟨hi, hacc, hp, h⟩))))
    · rw [hu] at hx
      rcases performCore_phase hx with h | h | h
      · exact .inl h
      · exact .inr (.inr (.inl ⟨hcore, h⟩))
      · exact .inr (.inr (.inr (.inl ⟨hcore, h⟩)))
    · exact .inr (.inr (.inr (.inr (.inr ⟨hr, rfl⟩))))
    · rw [hu]; exact .inl rfl
  · rw [step_of_accesses hacc, hu, exec_start_idle hi (s := { s with agenda := rest }) hp] at hstep
    obtain rfl := Host.Outcome.next.inj hstep
    exact startFrame_not_idle _
  · rw [step_of_accesses hacc, hu, exec_clear hi (s := { s with agenda := rest }) hp] at hstep
    obtain rfl := Host.Outcome.next.inj hstep
    rfl
  · rw [step_of_move hr] at hstep
    obtain rfl := Host.Outcome.next.inj hstep
    rfl
  · rw [step_of_move hcore, hu] at hstep
    exact performCore_lastPixel hstep hb hc hr hpx

/-! ### Solid grids (40_rasterizer.md R144) -/

section
variable {px : Nat → Nat → Pixel} {thresh : BitVec 11} {w : Nat}

/-- Bytes that each give the digit `d` twice give `d` throughout. -/
theorem digitsSoFar_const {y n b : Nat} {d : Byte} (hd : hexPair b = [d, d]) (h : ∀ k < n, rowByte px thresh w k y = b) :
    digitsSoFar px thresh w y n = List.replicate (2 * n) d := by
  induction n with
  | zero => rfl
  | succ n ih =>
    rw [digitsSoFar_succ, ih fun k hk => h k (by omega), h n (by omega), hd, Nat.mul_succ, List.replicate_add]
    rfl

/-- Rows that are all alike. -/
theorem frameRows_const {h : Nat} {r : List Byte} (hr : ∀ y < h, rowDigits px thresh w y = r) :
    frameRows px thresh w h = List.replicate h r := by
  induction h with
  | zero => rfl
  | succ h ih => rw [frameRows_succ, ih fun y hy => hr y (by omega), hr h (by omega), List.replicate_succ']

/-- A byte without a black bit. -/
theorem rowByte_white {k y : Nat} (h : ∀ x, bitAt px thresh w x y = false) : rowByte px thresh w k y = 0 := by
  simp [rowByte, h, natOfBool]

/-- A byte whose first `j` bits are black and whose others are not yet there. -/
theorem partialByte_black {k y : Nat} : ∀ j, j ≤ 8 → (∀ i < j, bitAt px thresh w (8 * k + i) y = true) →
    partialByte px thresh w k y j = 256 - 2 ^ (8 - j) := by
  intro j
  induction j with
  | zero => intro _ _; rfl
  | succ j ih =>
    intro hj h
    rw [partialByte_succ, ih (by omega) fun i hi => h i (by omega), h j (by omega)]
    have hpow : 2 ^ (8 - j) = 2 * 2 ^ (7 - j) := by rw [show 8 - j = (7 - j) + 1 by omega, Nat.pow_succ']
    have hle : 2 ^ (8 - j) ≤ 2 ^ 8 := Nat.pow_le_pow_right (by decide) (by omega)
    rw [show 8 - (j + 1) = 7 - j by omega]
    simp only [natOfBool, if_true]
    omega

/-- The digits of a row that is black throughout. -/
theorem rowDigits_black {y : Nat} (h : ∀ x < w, bitAt px thresh w x y = true) :
    rowDigits px thresh w y = List.replicate (2 * (w / 8)) chrF ++
      (if w % 8 = 0 then [] else hexPair (256 - 2 ^ (8 - w % 8))) := by
  have hfull : digitsSoFar px thresh w y (w / 8) = List.replicate (2 * (w / 8)) chrF :=
    digitsSoFar_const (b := 255) rfl fun k hk => partialByte_black 8 le_rfl fun i hi => h _ (by omega)
  rw [rowDigits_eq, ← hfull]
  split
  · rw [show (w + 7) / 8 = w / 8 by omega, List.append_nil]
  · have hlast : rowByte px thresh w (w / 8) y = 256 - 2 ^ (8 - w % 8) := by
      rw [← partialByte_padded px thresh w (w / 8) y (w % 8) (by omega) fun i _ _ => by omega]
      exact partialByte_black _ (by omega) fun i hi => h _ (by omega)
    rw [show (w + 7) / 8 = w / 8 + 1 by omega, digitsSoFar_succ, hlast]

end

/-- Settles O52: every bit of a row is 0, or every bit up to the padding is 1. -/
theorem solidGridsGiveSolidDigits : Obligations.SolidGridsGiveSolidDigits := by
  intro px thresh w h
  refine ⟨fun hwhite => frameRows_const fun y hy => ?_, fun hblack => frameRows_const fun y hy => ?_⟩
  · have hbit : ∀ x, bitAt px thresh w x y = false := by
      intro x
      by_cases hx : x < w
      · have hxy := hwhite x y hx hy
        simp [bitAt, isBlack, hxy]
      · simp [bitAt, hx]
    exact digitsSoFar_const rfl fun k _ => rowByte_white hbit
  · exact rowDigits_black fun x hx => by simp [bitAt, isBlack, hx, hblack x y hx hy]

/-! ### A whole frame without compression (40_rasterizer.md R143) -/

@[simp] theorem beginScan_startSized_thresh (s : State) : (beginScan (startSized s)).thresh = s.thresh := by
  rw [beginScan_eq]; rfl

@[simp] theorem beginScan_startSized_total (s : State) :
    (beginScan (startSized s)).total = totalBytes (bytesPerRow s.width) s.height := by
  rw [beginScan_eq]; rfl

@[simp] theorem compEnabled_beginScan_startSized (s : State) : compEnabled (beginScan (startSized s)) = compEnabled s := by
  rw [beginScan_eq]; rfl

/-- Without compression EmitAt says what OUT is. -/
theorem EmitAt.out_raw {rows : List (List Byte)} {ds : List Byte} {s : State} (h : EmitAt rows ds s)
    (hc : compEnabled s = false) : s.out = hexBody rows ++ ds := by
  simpa [EmitAt, hc] using h

/-- A served frame without compression: BUSY before its last pixel, DONE from then on. No run raises. -/
theorem coreSteps_started_raw {px : Nat → Nat → Pixel} {s : State} (hc : compEnabled s = false) (hw : 0 < s.width.toInt)
    (hh : 0 < s.height.toInt) (hs : servesGrid s.grid s.width.toNat s.height.toNat px) (k : Nat) :
    (k < s.width.toNat * s.height.toNat ∧ (coreSteps k (beginScan (startSized s))).phase = .busy) ∨
    (s.width.toNat * s.height.toNat ≤ k ∧ FrameDone px (beginScan (startSized s)) (coreSteps k (beginScan (startSized s)))) := by
  rcases coreSteps_started hw hh hs k with ⟨hk, h⟩ | h | h
  · exact .inl ⟨hk, h.busy⟩
  · exact .inr h
  · have := h.compressed
    simp [hc] at this

/-- The results of a frame that ended in DONE without compression. -/
theorem FrameDone.result_raw {px : Nat → Nat → Pixel} {s t : State} (hc : compEnabled s = false)
    (h : FrameDone px (beginScan (startSized s)) t) :
    t.out = hexBody (frameRows px s.thresh s.width.toNat s.height.toNat) ∧ t.bpr = bytesPerRow s.width ∧
      t.total = totalBytes (bytesPerRow s.width) s.height := by
  have hct : compEnabled t = false := by rw [compEnabled_of_pixFrame h.frame, compEnabled_beginScan_startSized, hc]
  obtain ⟨-, -, -, -, hbpr, htotal, -⟩ := h.frame
  exact ⟨by simpa using h.emitted.out_raw hct, by simpa using hbpr, by simpa using htotal⟩

/-- Settles O53: the core steps of the frame are followed pixel by pixel (`coreSteps_at`); without compression none of them
raises. -/
theorem rawFrameDeliversHexBody : Obligations.RawFrameDeliversHexBody := by
  intro s hi px hp hc hw hh hs
  have hframe := coreSteps_started_raw (s := { s with agenda := [] }) hc hw hh hs
  refine ⟨fun k hk => ⟨_, runSteps_start s hi k hp hw hh, ?_⟩, _, runSteps_start s hi _ hp hw hh, ?_⟩
  · rcases hframe k with ⟨-, hb⟩ | ⟨hle, -⟩
    · exact hb
    · exact absurd hk (Nat.not_lt.mpr hle)
  · rcases hframe (s.width.toNat * s.height.toNat) with ⟨hlt, -⟩ | ⟨-, hd⟩
    · exact absurd hlt (Nat.lt_irrefl _)
    · obtain ⟨hout, hbpr, htotal⟩ := hd.result_raw (s := { s with agenda := [] }) hc
      have hb := bytesPerRow_toNat s.width ((toInt_pos_iff _).mp hw).2
      refine ⟨hd.done, hout, ?_, ?_, hd.noError⟩
      · rw [hbpr]; exact hb
      · rw [htotal, totalBytes_toNat]; exact congrArg (· * s.height.toNat) hb

end Sys2Proof.Machine

namespace Sys2Proof.Machine

/-! ## The run-length compressor (41_rle_compressor.md): proofs -/

/-! ### The micro-operations (41_rle_compressor.md R162 to R168) -/

section
variable {s : State} (hb : s.phase = .busy) (hc : compEnabled s = true)
include hb hc

theorem exec_rseed (same : Bool) (c : RasterChar) : exec (.rseed same c) s = .next (seedRun (rasterCode c) s) :=
  whileCompressing_on hb hc _

theorem exec_rrowbrk (same : Bool) : exec (.rrowbrk same) s = .next (breakRow s).state :=
  whileCompressing_on hb hc _

theorem exec_rsame : exec .rsame s = .next (extendRun s) :=
  whileCompressing_on hb hc _

theorem exec_rbound (d : BitVec 4) : exec (.rbound d) s = .next (boundRun (hexDigit d) s).state :=
  whileCompressing_on hb hc _

end

/-- A row-break that is not the first character of a row closes the row. -/
theorem rleStep_rowBreak_eq {s : State} (hf : s.fresh = false) : rleStep Config.rbCode s = breakRow s := by
  simp [rleStep, hf, isrb_rb]

/-- A character equal to the pending one, and no row-break, extends the run. -/
theorem rleStep_pend {c : Byte} {s : State} (hf : s.fresh = false) (hrb : c ≠ Config.rbCode) (hs : c = s.pend) :
    rleStep c s = .cont (extendRun s) := by
  subst hs
  simp [rleStep, hf, isrbCond, hrb, sameCond]

/-- Settles O27: one micro-operation in each case of {FRESH, isrb, same}. -/
theorem rleStepSelectsOneMicroOperation : Obligations.RleStepSelectsOneMicroOperation := by
  intro c s hb hc
  refine ⟨rleStep_seed c, fun hf hrb => ?_, fun hf hrb hs => ?_, fun d hd hf hs => ?_⟩
  · subst hrb
    rw [show (0x0A#8 : Byte) = Config.rbCode from rfl, rleStep_rowBreak_eq hf, exec_rrowbrk hb hc]
    rfl
  · rw [rleStep_pend hf hrb hs, exec_rsame hb hc]
    rfl
  · subst hd
    rw [rleStep_other hf hs, exec_rbound hb hc]
    rfl

/-- Settles O28: `seedRun` and `extendRun` as the rows perform them. -/
theorem seedAndSameMoveOnlyTheRun : Obligations.SeedAndSameMoveOnlyTheRun :=
  fun b d _ hb hc => ⟨exec_rseed hb hc b (.digit d), exec_rseed hb hc b .rowBreak, exec_rsame hb hc⟩

theorem appendRun_some {s : State} {text : List Byte} (h : encodeRun s.run.toNat s.pend = some text) :
    appendRun s = .cont { s with line := s.line ++ text } := by
  simp [appendRun, h]

theorem appendRun_none {s : State} (h : encodeRun s.run.toNat s.pend = none) :
    appendRun s = .stop (errorEntry .encodingRange s.run s) := by
  simp [appendRun, h, raiseError]

/-- Settles O29: by whether RUN has an encoding. -/
theorem boundaryEncodesTheRun : Obligations.BoundaryEncodesTheRun := by
  intro d s hb hc
  rw [exec_rbound hb hc, boundRun]
  refine ⟨fun h1 h400 => ?_, fun hrun => ?_⟩
  · have hsome : encodeRun s.run.toNat s.pend ≠ none := fun hn => by
      have := (encodeRun_none_iff _ _).mp hn
      omega
    obtain ⟨text, ht⟩ := Option.ne_none_iff_exists'.mp hsome
    exact ⟨text, ht, by rw [appendRun_some ht]; rfl⟩
  · rw [appendRun_none ((encodeRun_none_iff _ _).mpr hrun)]
    exact ⟨_, rfl, errorEntered_errorEntry _ _ _⟩

/-- The last run of a row is a fill: it covers the row and is of '0' or 'F' (R167). -/
def isFill (s : State) : Prop := 2 * s.bpr.toNat ≤ s.run.toNat ∧ (s.pend = 0x30#8 ∨ s.pend = 0x46#8)

theorem closeRun_fill0 {s : State} (hn : 2 * s.bpr.toNat ≤ s.run.toNat) (hp : s.pend = 0x30#8) :
    closeRun s = .cont { s with line := s.line ++ [0x2C#8] } :=
  if_pos ⟨hn, hp⟩

theorem closeRun_fill1 {s : State} (hn : 2 * s.bpr.toNat ≤ s.run.toNat) (hp : s.pend = 0x46#8) :
    closeRun s = .cont { s with line := s.line ++ [0x21#8] } := by
  have hne : s.pend ≠ chrZero := by rw [hp]; decide
  rw [closeRun, if_neg fun h => hne h.2]
  exact if_pos ⟨hn, hp⟩

theorem closeRun_normal {s : State} (h : ¬isFill s) : closeRun s = appendRun s := by
  rw [closeRun, if_neg fun hf => h ⟨hf.1, .inl hf.2⟩, if_neg fun hf => h ⟨hf.1, .inr hf.2⟩]

/-- RROWBRK when the last run is closed by `text` (R166, R168). -/
theorem breakRow_closed {s : State} {text : List Byte} (h : closeRun s = .cont { s with line := s.line ++ text }) :
    breakRow s = .cont { s with
      out := s.out ++ (if s.prevValid = true ∧ s.line ++ text = s.prev then [chrRepeat] else s.line ++ text)
      prev := s.line ++ text, prevValid := true, line := [], run := 1#14, fresh := true } := by
  rw [breakRow, h, Flow.andThen_cont, flushLine_eq]

/-- Settles O30: by the form of the last run, then by whether the row repeats the one before. -/
theorem rowBreakClosesAndFlushes : Obligations.RowBreakClosesAndFlushes := by
  intro b s hb hc
  rw [exec_rrowbrk hb hc]
  refine ⟨fun text htext => ?_, fun hrun hfill => ?_⟩
  · have hclose : closeRun s = .cont { s with line := s.line ++ text } := by
      rcases htext with ⟨hn, hp, rfl⟩ | ⟨hn, hp, rfl⟩ | ⟨hfill, ht⟩
      · exact closeRun_fill0 hn hp
      · exact closeRun_fill1 hn hp
      · rw [closeRun_normal hfill, appendRun_some ht]
    rw [breakRow_closed hclose]
    refine ⟨fun hsame => ?_, fun hother => ?_⟩
    · rw [if_pos hsame]; rfl
    · rw [if_neg hother]; rfl
  · rw [breakRow, closeRun_normal hfill, appendRun_none ((encodeRun_none_iff _ _).mpr hrun)]
    exact ⟨_, rfl, errorEntered_errorEntry _ _ _⟩

/-! ### The text of a run (41_rle_compressor.md R169) -/

/-- Settles O31: up to 20 by ALPHA of the count, above by ALPHA of the multiple and, unless it is 0, of the unit. -/
theorem encIsTheRunAlphabet : Obligations.EncIsTheRunAlphabet := by
  intro n c
  have hdiv (h : n % 20 = 0) : n / 20 * 20 = n := Nat.div_mul_cancel (Nat.dvd_of_mod_eq_zero h)
  refine ⟨(encodeRun_none_iff n c).mpr, fun h1 h19 => ?_, fun h20 h400 hm => ?_, fun h20 h400 hm => ?_⟩
  · simp [encodeRun, Config.runMax, Config.runBase, alpha_unit n h1 h19, show n ≠ 0 ∧ ¬400 < n ∧ n ≤ 20 by omega]
  · simp [encodeRun, Config.runMax, Config.runBase, hdiv hm, alpha_multiple h20 h400 hm, hm, show n ≠ 0 ∧ ¬400 < n by omega]
  · have hbase := alpha_multiple (n := n / 20 * 20) (by omega) (by omega) (by omega)
    rw [Nat.mul_div_cancel _ (by decide)] at hbase
    have hunit := alpha_unit (n % 20) (by omega) (by omega)
    simp [encodeRun, Config.runMax, Config.runBase, hbase, hunit, hm, show n ≠ 0 ∧ ¬400 < n ∧ ¬n ≤ 20 by omega]

/-! ### Bounds of a frame (41_rle_compressor.md R171, R174) -/

/-- Settles O49: the bounds of the invariant, with BPR at most 4096. -/
theorem lineAndPrevStayWithinCapacity : Obligations.LineAndPrevStayWithinCapacity := by
  intro s h hb hc
  have hcap := h.ranges.bprRange
  obtain ⟨-, -, -, -, -, -, -, -, -, hrle, -⟩ := busyFactsOfEveryBoundary s h hb
  obtain ⟨-, -, hline, -⟩ := hrle hc
  refine ⟨hline, by omega, fun hv => ?_⟩
  have hprev := (h.rle hb hc).prevBound hv
  exact ⟨hprev, by omega⟩

/-- A PIX step that raises is one of a row of more than 400 digits. -/
theorem rowDigits_of_raise {s : State} (px : Pixel) (h : MachineInv s) (hb : s.phase = .busy)
    (he : (pixStep px s).state.phase = .err) : 400 < 2 * s.bpr.toNat := by
  have hs := h.scan hb
  rcases pixStep_ends px s with ⟨-, ⟨hp, -⟩ | ⟨hp, -⟩ | ⟨-, -, hc, -⟩⟩
  · rw [hp, hb] at he; cases he
  · rw [hp] at he; cases he
  · rcases pixStep_compressed px s hc hs (h.rle hb hc) with ⟨t, hf, hst, -⟩ | ⟨t, -, h401, hle⟩
    · have hph : t.phase = .busy := (rleFrame_phase hf : t.phase = (packed px s).phase).trans hb
      rw [hst, Flow.state_cont, advanced] at he
      split_ifs at he <;> simp [hph] at he
    · omega

/-- Settles O50: of the moves in BUSY only a PIX step can raise, and the row is too short for it. -/
theorem narrowFramesNeverRaise : Obligations.NarrowFramesNeverRaise := by
  intro s t h hb hw hstep
  have hu := machineInv_nextMove h
  have hub : (nextMove s).2.phase = .busy := by rw [nextMove_state]; exact hb
  rcases step_hardware_cases h.headMove_isHardware hstep with ⟨i, hs, -, hx⟩ | ⟨-, hx⟩ | ⟨-, rfl⟩ | ⟨cells, -, hnb, -⟩
  · obtain ⟨r, hr⟩ := exec_hreg_busy i _ hs hub
    obtain rfl := Host.Outcome.next.inj (hr.symm.trans hx)
    simp [hub]
  · rcases performCore_cases hx with ⟨-, rfl⟩ | ⟨-, -, rfl⟩ | ⟨-, px, n, rfl, -⟩
    · simp [hub]
    · simp [hub]
    · intro he
      have hrow : 400 < 2 * (nextMove s).2.bpr.toNat :=
        rowDigits_of_raise (s := { (nextMove s).2 with freeCtr := n }) px (hu.of_unread _ n hu.agenda) hub he
      have hkeep : (nextMove s).2.bpr = s.bpr := by rw [nextMove_state]
      rw [hkeep, (h.scan hb).bprOfWidth] at hrow
      omega
  · simp [State.reset]
  · exact absurd hb hnb

/-! ### A whole frame with compression (41_rle_compressor.md R175) -/

/-- With compression EmitAt says that OUT is the text of the whole rows. -/
theorem EmitAt.compressed {rows : List (List Byte)} {ds : List Byte} {s : State} (h : EmitAt rows ds s)
    (hc : compEnabled s = true) : compressRows none rows = (s.out, none) := by
  rw [EmitAt, if_pos hc] at h
  exact h.2.1

/-- BPR and TOTAL are fixed by START for the frame (40_rasterizer.md R132). -/
theorem sizes_of_pixFrame_start {s t : State} (hw : 0 < s.width.toInt) (h : pixFrame (beginScan (startSized s)) t) :
    t.bpr.toNat = (s.width.toNat + 7) / 8 ∧ t.total.toNat = (s.width.toNat + 7) / 8 * s.height.toNat := by
  obtain ⟨-, -, -, -, hbpr, htotal, -⟩ := h
  have hb := bytesPerRow_toNat s.width ((toInt_pos_iff _).mp hw).2
  rw [hbpr, htotal, beginScan_startSized_bpr, beginScan_startSized_total, totalBytes_toNat, hb]
  exact ⟨rfl, rfl⟩

/-- Settles O54: after the last core step every row is delivered, or a run has raised; both say what OUT is in terms of the rows'
text. -/
theorem compressedFrameDeliversCompressedBody : Obligations.CompressedFrameDeliversCompressedBody := by
  intro s hi px hp hc hw hh hs
  refine ⟨_, runSteps_start s hi _ hp hw hh, ?_⟩
  rcases coreSteps_started (s := { s with agenda := [] }) hw hh hs (s.width.toNat * s.height.toNat) with
    ⟨hlt, -⟩ | ⟨-, hd⟩ | hr
  · exact absurd hlt (Nat.lt_irrefl _)
  · obtain ⟨hb, ht⟩ := sizes_of_pixFrame_start (s := { s with agenda := [] }) hw hd.frame
    have hct := (compEnabled_of_pixFrame hd.frame).trans ((compEnabled_beginScan_startSized _).trans hc)
    have htext := hd.emitted.compressed hct
    simp only [beginScan_startSized_thresh, beginScan_startSized_width, beginScan_startSized_height] at htext
    rw [htext]
    exact ⟨hb, ht, rfl, hd.done, hd.noError⟩
  · obtain ⟨hb, ht⟩ := sizes_of_pixFrame_start (s := { s with agenda := [] }) hw hr.frame
    have htext := hr.text
    simp only [beginScan_startSized_thresh, beginScan_startSized_width, beginScan_startSized_height] at htext
    rw [htext]
    exact ⟨hb, ht, rfl, hr.err, hr.cause, rfl, hr.above⟩

/-! ### The decoder inverts the compressor (41_rle_compressor.md R176, R177 a) -/

/-- One character of the reference decoder: taken, and the row moved when it is full (R176). -/
def decoderStep (m : Nat) (st : DecoderState) (ch : Byte) : DecoderState := decoderShift m (decoderTake m st ch)

/-- The reference decoder over the characters of a text. -/
def decoderRun (m : Nat) (st : DecoderState) (text : List Byte) : DecoderState := text.foldl (decoderStep m) st

theorem decodeBody_eq (b : Nat) (body : List Byte) : decodeBody b body = hexBody (decoderRun (2 * b) ⟨[], [], 0⟩ body).rows := rfl

@[simp] theorem decoderRun_nil (m : Nat) (st : DecoderState) : decoderRun m st [] = st := rfl

@[simp] theorem decoderRun_cons (m : Nat) (st : DecoderState) (c : Byte) (cs : List Byte) :
    decoderRun m st (c :: cs) = decoderRun m (decoderStep m st c) cs := rfl

theorem decoderRun_append (m : Nat) (st : DecoderState) (a b : List Byte) :
    decoderRun m st (a ++ b) = decoderRun m (decoderRun m st a) b := List.foldl_append

theorem decoderShift_full {m : Nat} {rows : List (List Byte)} {cur : List Byte} (h : cur.length = m) :
    decoderShift m ⟨rows, cur, 0⟩ = ⟨rows ++ [cur], [], 0⟩ := if_pos ⟨h, rfl⟩

theorem decoderShift_short {m n : Nat} {rows : List (List Byte)} {cur : List Byte} (h : cur.length ≠ m) :
    decoderShift m ⟨rows, cur, n⟩ = ⟨rows, cur, n⟩ := if_neg fun hf => h hf.1

/-- A count letter is none of the three characters that speak of a whole row. -/
theorem letter_ne_rowCharacters {c : Byte} {v : Nat} (h : letterValue c = some v) :
    c ≠ chrFill0 ∧ c ≠ chrFill1 ∧ c ≠ chrRepeat ∧ v ≠ 0 := by
  have hl := (letterValue_eq_some_iff c v).mp h
  unfold isLetterOf at hl
  refine ⟨?_, ?_, ?_, by omega⟩ <;> (rintro rfl; cases h)

/-- A digit is no count letter and none of the three characters that speak of a whole row. -/
theorem digit_ne_rowCharacters {c : Byte} (h : isHexDigit c = true) :
    c ≠ chrFill0 ∧ c ≠ chrFill1 ∧ c ≠ chrRepeat ∧ letterValue c = none := by
  have hd := (isHexDigit_iff c).mp h
  have hv : letterValue c = none := by rw [letterValue, if_neg (by omega), if_neg (by omega)]
  refine ⟨?_, ?_, ?_, hv⟩ <;> (rintro rfl; exact absurd h (by decide))

/-- A count letter adds its value to the pending count, and the row waits. -/
theorem decoderStep_letter {m v : Nat} {c : Byte} (st : DecoderState) (h : letterValue c = some v) :
    decoderStep m st c = { st with cnt := st.cnt + v } := by
  obtain ⟨h0, h1, h2, hv⟩ := letter_ne_rowCharacters h
  simp [decoderStep, decoderTake, decoderShift, h0, h1, h2, h, hv]

/-- A digit is put down as many times as the pending count says. -/
theorem decoderStep_digit {m : Nat} {c : Byte} (st : DecoderState) (h : isHexDigit c = true) :
    decoderStep m st c = decoderShift m ⟨st.rows, st.cur ++ List.replicate st.cnt c, 0⟩ := by
  obtain ⟨h0, h1, h2, hv⟩ := digit_ne_rowCharacters h
  simp [decoderStep, decoderTake, h0, h1, h2, hv]

theorem decoderStep_fill0 (m : Nat) (rows : List (List Byte)) :
    decoderStep m ⟨rows, [], 0⟩ chrFill0 = ⟨rows ++ [List.replicate m chrZero], [], 0⟩ := by
  simp [decoderStep, decoderTake, decoderShift]

theorem decoderStep_fill1 (m : Nat) (rows : List (List Byte)) :
    decoderStep m ⟨rows, [], 0⟩ chrFill1 = ⟨rows ++ [List.replicate m chrF], [], 0⟩ := by
  have hne : chrFill1 ≠ chrFill0 := by decide
  simp [decoderStep, decoderTake, decoderShift, hne]

/-- The repeat marker gives the row before once more. -/
theorem decoderStep_repeat {m : Nat} {rows : List (List Byte)} {r : List Byte} (h : rows.getLast? = some r) (hr : r.length = m) :
    decoderStep m ⟨rows, [], 0⟩ chrRepeat = ⟨rows ++ [r], [], 0⟩ := by
  have h0 : chrRepeat ≠ chrFill0 := by decide
  have h1 : chrRepeat ≠ chrFill1 := by decide
  simp [decoderStep, decoderTake, decoderShift, h0, h1, h, hr]

/-- ENC is count letters whose values add up to the count, and the character (R169). -/
theorem encodeRun_letters {n : Nat} {c : Byte} {t : List Byte} (h : encodeRun n c = some t) :
    (∃ a, letterValue a = some n ∧ t = [a, c]) ∨
    (∃ a u i j, letterValue a = some i ∧ letterValue u = some j ∧ i + j = n ∧ t = [a, u, c]) := by
  have hvalue {k : Nat} {a : Byte} (ha : alpha k = some a) : letterValue a = some k :=
    (letterValue_eq_some_iff a k).mpr ((alpha_eq_some_iff k a).mp ha)
  simp only [encodeRun] at h
  split_ifs at h with h0 h20 hrem
  · obtain ⟨a, ha, rfl⟩ := Option.map_eq_some_iff.mp h
    exact .inl ⟨a, hvalue ha, rfl⟩
  · obtain ⟨a, ha, h⟩ := Option.bind_eq_some_iff.mp h
    obtain rfl := Option.some.inj h
    rw [Nat.div_mul_cancel (Nat.dvd_of_mod_eq_zero hrem)] at ha
    exact .inl ⟨a, hvalue ha, rfl⟩
  · obtain ⟨a, ha, h⟩ := Option.bind_eq_some_iff.mp h
    obtain ⟨u, hu, rfl⟩ := Option.map_eq_some_iff.mp h
    exact .inr ⟨a, u, _, _, hvalue ha, hvalue hu, Nat.div_add_mod' n _, rfl⟩

/-- The text of a run puts the run down. -/
theorem decoderRun_encodeRun {m n : Nat} {c : Byte} {t : List Byte} (rows : List (List Byte)) (cur : List Byte)
    (h : encodeRun n c = some t) (hc : isHexDigit c = true) :
    decoderRun m ⟨rows, cur, 0⟩ t = decoderShift m ⟨rows, cur ++ List.replicate n c, 0⟩ := by
  rcases encodeRun_letters h with ⟨a, ha, rfl⟩ | ⟨a, u, i, j, ha, hu, rfl, rfl⟩
  · simp [decoderStep_letter _ ha, decoderStep_digit _ hc]
  · simp [decoderStep_letter _ ha, decoderStep_letter _ hu, decoderStep_digit _ hc]

/-- The digits that runs stand for. -/
def digitsOfRuns (rs : List (Nat × Byte)) : List Byte := rs.flatMap fun r => List.replicate r.1 r.2

theorem digitsOfRuns_cons (n : Nat) (d : Byte) (rs : List (Nat × Byte)) :
    digitsOfRuns ((n, d) :: rs) = List.replicate n d ++ digitsOfRuns rs := rfl

theorem digitsOfRuns_pushFront (d : Byte) (rs : List (Nat × Byte)) : digitsOfRuns (pushFront d rs) = d :: digitsOfRuns rs := by
  match rs with
  | [] => rfl
  | (n, e) :: rs =>
    by_cases h : d = e
    · simp [pushFront, h, digitsOfRuns_cons, List.replicate_succ]
    · simp [pushFront, h, digitsOfRuns_cons]

/-- The runs of a row stand for the row. -/
theorem digitsOfRuns_runsOf (ds : List Byte) : digitsOfRuns (runsOf ds) = ds := by
  induction ds with
  | nil => rfl
  | cons d ds ih => rw [runsOf_cons, digitsOfRuns_pushFront, ih]

theorem encodeRuns_cons_ok {n : Nat} {d : Byte} {rs : List (Nat × Byte)} {t : List Byte}
    (h : encodeRuns ((n, d) :: rs) = .ok t) : ∃ a b, encodeRun n d = some a ∧ encodeRuns rs = .ok b ∧ t = a ++ b := by
  simp only [encodeRuns] at h
  split at h
  · cases h
  · rename_i a ha
    split at h
    · rename_i b hb
      exact ⟨a, b, ha, hb, (Except.ok.inj h).symm⟩
    · cases h

/-- Runs that are encoded and stand for nothing are none. -/
theorem runs_eq_nil_of_digits_nil {rs : List (Nat × Byte)} {t : List Byte} (h : encodeRuns rs = .ok t)
    (hd : digitsOfRuns rs = []) : rs = [] := by
  match rs with
  | [] => rfl
  | (n, d) :: rs =>
    obtain ⟨a, b, ha, -⟩ := encodeRuns_cons_ok h
    have hn : n = 0 ∧ digitsOfRuns rs = [] := by simpa [digitsOfRuns_cons] using hd
    rw [(encodeRun_none_iff n d).mpr (.inl hn.1)] at ha
    cases ha

/-- The texts of runs that fit in the row put the runs down, and a row that is then full is moved. -/
theorem decoderRun_encodeRuns {m : Nat} (rows : List (List Byte)) {rs : List (Nat × Byte)} {t : List Byte} {cur : List Byte}
    (h : encodeRuns rs = .ok t) (hd : ∀ c ∈ digitsOfRuns rs, isHexDigit c = true) (hlt : cur.length < m)
    (hle : cur.length + (digitsOfRuns rs).length ≤ m) :
    decoderRun m ⟨rows, cur, 0⟩ t = decoderShift m ⟨rows, cur ++ digitsOfRuns rs, 0⟩ := by
  induction rs generalizing cur t with
  | nil =>
    obtain rfl := Except.ok.inj h
    rw [digitsOfRuns, List.flatMap_nil, List.append_nil, decoderShift_short (by omega), decoderRun_nil]
  | cons r rs ih =>
    obtain ⟨n, d⟩ := r
    obtain ⟨a, b, ha, hb, rfl⟩ := encodeRuns_cons_ok h
    rw [digitsOfRuns_cons] at hd hle ⊢
    have hn : n ≠ 0 := fun h0 => by simp [(encodeRun_none_iff n d).mpr (.inl h0)] at ha
    have hdigit : isHexDigit d = true := hd d (by simp [hn])
    rw [decoderRun_append, decoderRun_encodeRun rows cur ha hdigit]
    simp only [List.length_append, List.length_replicate] at hle
    by_cases hfull : cur.length + n = m
    · have hrest : rs = [] := runs_eq_nil_of_digits_nil hb (List.length_eq_zero_iff.mp (by omega))
      subst hrest
      obtain rfl := Except.ok.inj hb
      simp [digitsOfRuns]
    · rw [decoderShift_short (by simpa using hfull), ih hb (fun c hc => hd c (by simp [hc])) (by simp; omega) (by simp; omega),
        List.append_assoc]

/-- A row of one run is written as ',' or '!', any other by its runs (R167, R175). -/
theorem rowText_ok {r t : List Byte} (h : rowText r = .ok t) :
    (t = [chrFill0] ∧ ∃ n, r = List.replicate n chrZero) ∨ (t = [chrFill1] ∧ ∃ n, r = List.replicate n chrF) ∨
      encodeRuns (runsOf r) = .ok t := by
  unfold rowText at h
  split at h
  · rename_i n d hruns
    have hr : r = List.replicate n d := by
      rw [← digitsOfRuns_runsOf r, hruns]; simp [digitsOfRuns]
    split_ifs at h with h0 hF
    · exact .inl ⟨(Except.ok.inj h).symm, n, h0 ▸ hr⟩
    · exact .inr (.inl ⟨(Except.ok.inj h).symm, n, hF ▸ hr⟩)
    · exact .inr (.inr (hruns ▸ h))
  · exact .inr (.inr h)

/-- The text of a row decodes to the row. -/
theorem decoderRun_rowText {m : Nat} (rows : List (List Byte)) {r t : List Byte} (hm : 0 < m) (hlen : r.length = m)
    (hd : ∀ c ∈ r, isHexDigit c = true) (h : rowText r = .ok t) : decoderRun m ⟨rows, [], 0⟩ t = ⟨rows ++ [r], [], 0⟩ := by
  rcases rowText_ok h with ⟨rfl, n, rfl⟩ | ⟨rfl, n, rfl⟩ | h
  · rw [List.length_replicate] at hlen
    rw [decoderRun_cons, decoderStep_fill0, decoderRun_nil, hlen]
  · rw [List.length_replicate] at hlen
    rw [decoderRun_cons, decoderStep_fill1, decoderRun_nil, hlen]
  · have hr := digitsOfRuns_runsOf r
    rw [decoderRun_encodeRuns rows h (by rwa [hr]) (by simpa using hm) (by simp [hr, hlen]), hr, List.nil_append,
      decoderShift_full hlen]

/-- Rows of one length with the same text are the same row: the decoder tells them apart. -/
theorem rowText_injective {m : Nat} {q r t : List Byte} (hm : 0 < m) (hq : q.length = m ∧ ∀ c ∈ q, isHexDigit c = true)
    (hr : r.length = m ∧ ∀ c ∈ r, isHexDigit c = true) (h1 : rowText q = .ok t) (h2 : rowText r = .ok t) : q = r := by
  have h := (decoderRun_rowText [] hm hq.1 hq.2 h1).symm.trans (decoderRun_rowText [] hm hr.1 hr.2 h2)
  simpa using h

/-- `prev` is the text of the last of the finished rows, which the repeat marker stands for. -/
def PrevOf (m : Nat) (prev : Option (List Byte)) (rows : List (List Byte)) : Prop :=
  ∀ t, prev = some t → ∃ r, rows.getLast? = some r ∧ (r.length = m ∧ ∀ c ∈ r, isHexDigit c = true) ∧ rowText r = .ok t

theorem compressRows_cons_none {prev : Option (List Byte)} {r body : List Byte} {rs : List (List Byte)}
    (h : compressRows prev (r :: rs) = (body, none)) :
    ∃ t rest, rowText r = .ok t ∧ compressRows (some t) rs = (rest, none) ∧
      body = (if prev = some t then [chrRepeat] else t) ++ rest := by
  simp only [compressRows] at h
  split at h
  · simp at h
  · rename_i t ht
    obtain ⟨hbody, hnone⟩ := Prod.mk.inj h
    exact ⟨t, _, ht, Prod.ext rfl hnone, hbody.symm⟩

/-- The compressed rows decode to the rows, whatever rows stand before them. -/
theorem decoderRun_compressRows {m : Nat} (hm : 0 < m) {prev : Option (List Byte)} {rows done : List (List Byte)} {body : List Byte}
    (hrows : ∀ r ∈ rows, r.length = m ∧ ∀ c ∈ r, isHexDigit c = true) (hprev : PrevOf m prev done)
    (h : compressRows prev rows = (body, none)) : decoderRun m ⟨done, [], 0⟩ body = ⟨done ++ rows, [], 0⟩ := by
  induction rows generalizing prev done body with
  | nil =>
    obtain rfl := (Prod.mk.inj h).1
    simp
  | cons r rs ih =>
    obtain ⟨t, rest, ht, hrest, rfl⟩ := compressRows_cons_none h
    have hr := hrows r (by simp)
    have hfirst : decoderRun m ⟨done, [], 0⟩ (if prev = some t then [chrRepeat] else t) = ⟨done ++ [r], [], 0⟩ := by
      split_ifs with hsame
      · obtain ⟨q, hq, hq', hqt⟩ := hprev t hsame
        obtain rfl := rowText_injective hm hq' hr hqt ht
        rw [decoderRun_cons, decoderStep_repeat hq hr.1, decoderRun_nil]
      · exact decoderRun_rowText done hm hr.1 hr.2 ht
    have hlast : PrevOf m (some t) (done ++ [r]) := by
      rintro _ ⟨⟩
      exact ⟨r, by simp, hr, ht⟩
    rw [decoderRun_append, hfirst, ih (fun q hq => hrows q (by simp [hq])) hlast hrest, List.append_assoc, List.singleton_append]

/-- Settles O55: each row's text decodes to the row, and the repeat marker to the row before, which is the same row because it has
the same text. -/
theorem decoderInvertsCompressor : Obligations.DecoderInvertsCompressor := by
  intro b rows body hb hrows h
  have hnone : PrevOf (2 * b) none [] := fun t ht => by cases ht
  rw [decodeBody_eq, decoderRun_compressRows (by omega) hrows hnone h, List.nil_append]

/-! ### Solid and repeated rows (41_rle_compressor.md R177 b, c, d) -/

theorem runsOf_replicate (m : Nat) (d : Byte) : runsOf (List.replicate (m + 1) d) = [(m + 1, d)] := by
  induction m with
  | zero => rfl
  | succ m ih => rw [List.replicate_succ, runsOf_cons, ih]; simp [pushFront]

theorem rowText_replicate_zero (m : Nat) : rowText (List.replicate (m + 1) 0x30#8) = .ok [0x2C#8] := by
  rw [rowText, runsOf_replicate]; rfl

theorem rowText_replicate_f (m : Nat) : rowText (List.replicate (m + 1) 0x46#8) = .ok [0x21#8] := by
  rw [rowText, runsOf_replicate]; rfl

/-- Rows equal to the row before are repeat markers. -/
theorem compressRows_replicate {r text : List Byte} (h : rowText r = .ok text) (n : Nat) :
    compressRows (some text) (List.replicate n r) = (List.replicate n chrRepeat, none) := by
  induction n with
  | zero => rfl
  | succ n ih => simp [List.replicate_succ, compressRows, h, ih]

/-- Equal rows are the row's text and then repeat markers. -/
theorem compressRows_equal {r text : List Byte} (h : rowText r = .ok text) (n : Nat) :
    compressRows none (List.replicate (n + 1) r) = (text ++ List.replicate n chrRepeat, none) := by
  simp [List.replicate_succ, compressRows, h, compressRows_replicate h]

/-- Rows that compress without a raise each have a text. -/
theorem rowText_of_compressRows {prev : Option (List Byte)} {rows : List (List Byte)} {body : List Byte}
    (h : compressRows prev rows = (body, none)) : ∀ r ∈ rows, ∃ text, rowText r = .ok text := by
  induction rows generalizing prev body with
  | nil => simp
  | cons r rs ih =>
    obtain ⟨text, rest, ht, hrest, -⟩ := compressRows_cons_none h
    exact List.forall_mem_cons.mpr ⟨⟨text, ht⟩, ih hrest⟩

/-- Settles O56: a solid row is one run, a fill; a row equal to the one before has its text. -/
theorem solidAndRepeatedRowsCompress : Obligations.SolidAndRepeatedRowsCompress := by
  refine ⟨fun m h hm => ?_, fun m h hm => ?_, fun r text ht => compressRows_equal ht 1, fun rows r body hbody => ?_⟩
  · obtain ⟨m, rfl⟩ := Nat.exists_eq_add_of_le' hm
    exact compressRows_equal (rowText_replicate_zero m) h
  · obtain ⟨m, rfl⟩ := Nat.exists_eq_add_of_le' hm
    exact compressRows_equal (rowText_replicate_f m) h
  · obtain ⟨text, ht⟩ := rowText_of_compressRows hbody r (by simp)
    have hlast : lastText none (rows ++ [r]) = some text := by simp [lastText, ht, Except.toOption]
    rw [show rows ++ [r, r] = (rows ++ [r]) ++ [r] by simp, compressRows_snoc_ok none _ r body text hbody ht, if_pos hlast]
    rfl

end Sys2Proof.Machine

namespace Sys2Proof.Machine

/-! ## The host's register accesses (42_host_register_ops.md): proofs -/

/-! ### Every access is answered, and does nothing while BUSY (R200, R218) -/

/-- START, however it ends, keeps the moves to come. -/
theorem startFrame_agenda (s : State) : (startFrame s).state.agenda = s.agenda := by
  rcases startFrame_cases s with ⟨-, h⟩ | ⟨-, -, -, h⟩ | ⟨-, -, -, -, h⟩ <;> rw [h]
  · rfl
  · rfl
  · exact beginScan_startSized_agenda s

/-- Settles O11: a register access writes one register, or is CLEAR or START; each answers a next state. -/
theorem everyRegisterAccessIsAnswered : Obligations.EveryRegisterAccessIsAnswered := by
  intro i s hs
  rcases execHreg_cases i s hs with ⟨r, h⟩ | ⟨v, -, -, h⟩ | ⟨v, -, -, -, h⟩ | ⟨v, -, -, h⟩ | ⟨v, -, -, h⟩ | ⟨hi, -, -, h⟩ |
    ⟨hi, -, -, h⟩
  · exact ⟨_, h, rfl⟩
  · exact ⟨_, h, rfl⟩
  · exact ⟨_, h, rfl⟩
  · exact ⟨_, h, rfl⟩
  · exact ⟨_, h, rfl⟩
  · exact ⟨_, h, clearFrame_agenda s⟩
  · exact ⟨_, h, startFrame_agenda s⟩

/-- Settles O12: while BUSY, or for a read, the next state is the state with some answer. -/
theorem accessesWhileBusyChangeNothing : Obligations.AccessesWhileBusyChangeNothing := by
  intro s w i t hd hquiet hx
  have hanswer : ∃ r, exec i s = .next { s with rdata := r } :=
    hquiet.elim (exec_hreg_busy i s (spaceOf_hreg hd)) (exec_read w i s hd)
  obtain ⟨r, he⟩ := hanswer
  obtain rfl := Host.Outcome.next.inj (he.symm.trans hx)
  rfl

/-! ### CTRL (R202, R203) -/

/-- Settles O3: no arm of CTRL uses its operand, and NOP and the reserved command are ignored. -/
theorem ctrlNopAndReservedDoNothing : Obligations.CtrlNopAndReservedDoNothing :=
  fun _ _ _ => ⟨rfl, rfl, rfl, rfl⟩

theorem exec_clear_ignored {s : State} (hi : BitVec 30) (h : ¬(s.phase = .done ∨ s.phase = .err)) :
    exec (.wrCtrlClear hi) s = .next s := if_neg h

/-- Settles O10: by whether CLEAR is accepted. -/
theorem clearEndsDoneAndErr : Obligations.ClearEndsDoneAndErr :=
  fun hi _ => ⟨exec_clear hi, fun h => exec_clear_ignored hi (by rcases h with h | h <;> simp [h])⟩

/-! ### STATUS (R205, R206) -/

theorem Phase.code_lt (p : Phase) : p.code < 4 := by cases p <;> decide

theorem ErrCause.code_lt (c : ErrCause) : c.code < 3 := by cases c <;> decide

theorem natOfBool_lt (b : Bool) : natOfBool b < 2 := by cases b <;> decide

/-- The fields of STATUS do not overlap, and fit in 32 bits. -/
theorem statusWord_toNat (p : Phase) (c : ErrCause) (b : Bool) :
    (statusWord p c b).toNat = p.code + c.code * 16 + natOfBool b * 256 := by
  have hp := p.code_lt
  have hc := c.code_lt
  have hb := natOfBool_lt b
  rw [statusWord, BitVec.toNat_ofNat]
  omega

/-- The bit ranges of STATUS: [1:0], [3:2], [5:4], [7:6] and [31:8] (10_state.md R24). -/
theorem statusWord_fields (p : Phase) (c : ErrCause) (b : Bool) :
    (statusWord p c b).toNat % 4 = p.code ∧ (statusWord p c b).toNat / 4 % 4 = 0 ∧
      (statusWord p c b).toNat / 16 % 4 = c.code ∧ (statusWord p c b).toNat / 64 % 4 = 0 ∧
      (statusWord p c b).toNat / 256 = natOfBool b := by
  have hp := p.code_lt
  have hc := c.code_lt
  rw [statusWord_toNat]
  omega

/-- Settles O4: each bit range of the word holds the code of its register. -/
theorem statusIsAssembledOnRead : Obligations.StatusIsAssembledOnRead := by
  intro s v
  obtain ⟨hphase, hzero, hcause, hzero', hrle⟩ := statusWord_fields s.phase s.errCause s.hasRle
  have phase {p : Phase} (h : s.phase = p) := hphase.trans (congrArg Phase.code h)
  have cause {c : ErrCause} (h : s.errCause = c) := hcause.trans (congrArg ErrCause.code h)
  have rle {b : Bool} (h : s.hasRle = b) := hrle.trans (congrArg natOfBool h)
  exact ⟨rfl, _, rfl, phase, phase, phase, phase, hzero, cause, cause, cause, hzero', rle, rle⟩

/-! ### Configuration writes (R207 to R212, R218) -/

theorem configWritable_of_not_busy {s : State} (h : s.phase ≠ .busy) : configWritable s = true := bne_iff_ne.mpr h

theorem not_configWritable_of_busy {s : State} (h : s.phase = .busy) : ¬configWritable s = true := by
  simp [configWritable, h]

/-- A read of a register narrower than the port is zero-extended. -/
theorem answerRead_setWidth {n : Nat} (x : BitVec n) (s : State) :
    answerRead (x.setWidth 32) s = .next { s with rdata := BitVec.ofNat 32 x.toNat } := by
  rw [BitVec.ofNat_toNat]
  rfl

/-- THRESH is wide enough for every percentage of 8 bits. -/
theorem thresholdOfPercent_toNat {p : Nat} (h : p < 256) : (thresholdOfPercent p).toNat = p * 768 / 100 := by
  rw [thresholdOfPercent, BitVec.toNat_ofNat, Config.thresholdScale, Config.percentDivisor]
  omega

theorem exec_wrPct {s : State} (v : Data) (h : s.phase ≠ .busy) :
    exec (.wrPct v) s = .next { s with thresh := thresholdOfPercent (percentOf v) } :=
  if_pos (configWritable_of_not_busy h)

/-- Settles O5: by whether the configuration is writable; 255 * 768 / 100 is below 2^11. -/
theorem writePctSetsThreshold : Obligations.WritePctSetsThreshold := by
  intro v s
  refine ⟨rfl, answerRead_setWidth s.thresh s, exec_wrPct v, fun h => if_neg (not_configWritable_of_busy h), fun t hx h => ?_⟩
  obtain rfl := Host.Outcome.next.inj ((exec_wrPct v h).symm.trans hx)
  exact thresholdOfPercent_toNat (Nat.mod_lt _ (by decide))

theorem enableOf_eq_getLsbD (v : Data) : enableOf v = v.getLsbD 0 := by
  rw [BitVec.getLsbD, Nat.testBit_zero]
  rfl

/-- COMP_EN is written outside BUSY when RLE is built. -/
theorem exec_wrCompEn {s : State} (v : Data) (h : s.phase ≠ .busy) (hr : s.hasRle = true) :
    exec (.wrCompEn v) s = .next { s with compEn := v.getLsbD 0 } := by
  rw [← enableOf_eq_getLsbD]
  exact if_pos (Bool.and_eq_true_iff.mpr ⟨configWritable_of_not_busy h, hr⟩)

theorem exec_wrCompEn_ignored {s : State} (v : Data) (h : s.phase = .busy ∨ s.hasRle = false) :
    exec (.wrCompEn v) s = .next s := by
  refine if_neg fun hw => ?_
  obtain ⟨hc, hr⟩ := Bool.and_eq_true_iff.mp hw
  exact h.elim (fun hb => not_configWritable_of_busy hb hc) (fun hf => Bool.false_ne_true (hf.symm.trans hr))

theorem exec_rdCompEn (s : State) : exec .rdCompEn s = .next { s with rdata := if compEnabled s then 1#32 else 0#32 } := by
  change answerRead (BitVec.ofNat 32 (natOfBool (compEnabled s))) s = _
  cases compEnabled s <;> rfl

/-- Settles O6: the write by its guard, the read by COMP_EN as it reads with and without RLE. -/
theorem compEnReadAndWrite : Obligations.CompEnReadAndWrite := by
  intro v s
  refine ⟨exec_wrCompEn v, exec_wrCompEn_ignored v, fun h => ?_, fun h => ?_⟩
  · rw [exec_rdCompEn, compEnabled, h, Bool.true_and]
  · rw [exec_rdCompEn, compEnabled, h, Bool.false_and]
    rfl

/-- Settles O7: by whether the configuration is writable; the stored word is the low half, whatever its sign. -/
theorem dimensionReadAndWrite : Obligations.DimensionReadAndWrite :=
  fun _ s => ⟨fun h => if_pos (configWritable_of_not_busy h), fun h => if_neg (not_configWritable_of_busy h),
    fun h => if_pos (configWritable_of_not_busy h), fun h => if_neg (not_configWritable_of_busy h),
    answerRead_setWidth s.width s, answerRead_setWidth s.height s⟩

/-! ### Registers that are read only, ports and reserved offsets (R204, R208, R213 to R217) -/

/-- Settles O8: the writes are ignored and the reads zero-extend. -/
theorem resultRegistersReadOnly : Obligations.ResultRegistersReadOnly :=
  fun _ s => ⟨rfl, rfl, rfl, answerRead_setWidth s.bpr s, rfl, answerRead_setWidth s.errInfo s⟩

theorem reservedAccess_write (s : State) : reservedAccess true s = .next s := rfl

theorem reservedAccess_read (s : State) : reservedAccess false s = .next { s with rdata := 0#32 } := rfl

/-- Settles O9: each of the four rows is a reserved access, whatever its offset and data. -/
theorem reservedOffsetsAndPortsReadZero : Obligations.ReservedOffsetsAndPortsReadZero := by
  intro off v s
  have hrsvd := And.intro (reservedAccess_write s) (reservedAccess_read s)
  exact ⟨⟨rfl, rfl⟩, hrsvd, hrsvd, hrsvd, hrsvd⟩

theorem runWord_error {sp : Space} {w : Word} {e : DecodeError} (s : State) (h : decodeWord sp w = .error e) :
    runWord sp w s = .refused (.undecodable e) := by
  simp only [runWord, h]

/-- The low two bits of the offset field are bits 3:2 of the word (30_encoding.md R104). -/
theorem fieldOf_offset_low (w : Nat) : fieldOf w 2 8 % 4 = fieldOf w 2 2 :=
  Nat.mod_mod_of_dvd _ (by decide)

/-- A word whose offset is not a multiple of 4 is rejected, as misaligned unless it has stray bits too. -/
theorem decodeHreg_misaligned {w : Nat} (h : fieldOf w 2 2 ≠ 0) : ∃ e, decodeHreg w = .error e := by
  rw [← fieldOf_offset_low] at h
  unfold decodeHreg
  split
  · exact ⟨_, rfl⟩
  · exact ⟨_, if_pos h⟩

/-- Settles O39: the word decodes to nothing, so its move is refused. -/
theorem misalignedAccessIsRefused : Obligations.MisalignedAccessIsRefused := by
  intro s rest w h
  obtain ⟨e, he⟩ := decodeHreg_misaligned h
  rw [step_cons]
  exact ⟨_, runWord_error _ he⟩

end Sys2Proof.Machine

namespace Sys2Proof.Machine

/-! ## The errors and the ends of a frame (60_exceptions.md): proofs -/

/-! ### The raise of a PIX step (R252, R256, R257) -/

/-- A PIX step that goes on, to the next pixel or to DONE, does not end in ERR. -/
theorem advanced_not_err {s t : State} (h : t.phase ≠ .err) : (advanced s t).phase ≠ .err := by
  unfold advanced
  split_ifs
  · simp
  · exact h
  · exact h
  · exact h

/-- A PIX step that ends in ERR has entered EncodingRangeError with the pending run, extended by the byte's digits: the run is above
400 and no longer than the row. -/
theorem pixStep_raise {s : State} (px : Pixel) (h : MachineInv s) (hb : s.phase = .busy)
    (he : (pixStep px s).state.phase = .err) :
    ∃ u, pixStep px s = .stop (errorEntry .encodingRange u.run u) ∧ 400 < u.run.toNat ∧ u.run.toNat ≤ 2 * s.bpr.toNat ∧
      u.run.toNat = s.run.toNat + extending (packed px s) := by
  have hs := h.scan hb
  rcases pixStep_ends px s with ⟨-, ⟨hp, -⟩ | ⟨hp, -⟩ | ⟨-, -, hc, -⟩⟩
  · simp [hp, hb] at he
  · simp [hp] at he
  · have hr := h.rle hb hc
    rcases pixStep_compressed px s hc hs hr with ⟨t, hf, hst, -⟩ | ⟨u, hst, h401, hle⟩
    · have hph : t.phase = .busy := (rleFrame_phase hf : t.phase = (packed px s).phase).trans hb
      rw [hst] at he
      exact absurd he (advanced_not_err (by simp [hph]))
    · exact ⟨u, hst, h401, hle, pixStep_raise_count hc hs hr hst (by omega)⟩

/-- A PIX step that ends in ERR has entered the error: the record is the count, and the step leaves all else the host can read, OUT
too, but the wire `bit` (log 8). -/
theorem errorEntered_pixStep {s u : State} {px : Pixel} (h : pixStep px s = .stop (errorEntry .encodingRange u.run u))
    (hb : s.phase = .busy) :
    errorEntered .encodingRange u.run.toNat { s with bit := (pixStep px s).state.bit } (pixStep px s).state := by
  have he : (pixStep px s).state.phase = .err := by simp [h]
  obtain ⟨⟨hth, hce, hwd, hht, hbpr, htot, hrle, hgrid, hrd, hag⟩, hend⟩ := pixStep_ends px s
  have hout : (pixStep px s).state.out = s.out := by
    rcases hend with ⟨hp, -⟩ | ⟨hp, -⟩ | ⟨-, -, -, hout⟩
    · simp [hp, hb] at he
    · simp [hp] at he
    · exact hout
  exact ⟨he, by simp [h], by simp [h], hth, hce, hwd, hht, hbpr, htot, hout, hrle, hgrid, hrd, rfl, hag⟩

/-- While BUSY in the invariant the core's move is a PIX step on the pixel served, or the wait for it. -/
theorem performCore_busy {s t : State} (hi : MachineInv s) (hb : s.phase = .busy) (h : perform .core s = .next t) :
    (pixRead s.grid s.col.toNat s.row.toNat = none ∧ t = s) ∨
    ∃ px, pixRead s.grid s.col.toNat s.row.toNat = some px ∧ t = (pixStep px s).state := by
  have hs := hi.scan hb
  rcases performCore_cases h with ⟨hnb, -⟩ | ⟨-, hnone, rfl⟩ | ⟨-, px, n, rfl, hread⟩
  · exact absurd hb hnb
  · exact .inl ⟨hnone, rfl⟩
  · obtain ⟨rfl, hpx⟩ := hread (by simp [pixelAddressValid, hs.colInRow, hs.rowInGrid])
    exact .inr ⟨px, hpx, rfl⟩

/-- The byte of a PIX step's PACK, with CLASSIFY's comparison written out (40_rasterizer.md R134, R135). -/
theorem packed_acc_eq (px : Pixel) (s : State) :
    (packed px s).acc =
      s.acc ||| (if px.r.toNat + px.g.toNat + px.b.toNat ≤ s.thresh.toNat then 1#8 <<< (7 - s.nbits.toNat) else 0#8) :=
  (packBit_eq s.acc s.nbits (isBlack px s.thresh)).trans (congrArg (s.acc ||| ·) (if_congr decide_eq_true_iff rfl rfl))

/-- Settles O19: the PIX step that raises is followed to its count (`pixStep_raise`); error entry leaves the rest. -/
theorem pixRaiseLeavesTheRecord : Obligations.PixRaiseLeavesTheRecord := by
  intro s t hi hb hx he
  rw [exec_pix_eq_performCore] at hx
  rcases performCore_busy hi hb hx with ⟨-, rfl⟩ | ⟨px, hpx, rfl⟩
  · simp [hb] at he
  · obtain ⟨u, hst, habove, hle, hcount⟩ := pixStep_raise px hi hb he
    refine ⟨px, u.run.toNat, hpx, errorEntered_pixStep hst hb, habove, hle, ?_⟩
    rw [hcount, extending, packed_acc_eq]
    rfl

/-! ### Termination (R265 d, 70_reset_and_hazards.md R293) -/

/-- How many pixels stand before (COL, ROW) in raster order (20_memory.md R63). -/
def pixelsBefore (s : State) : Nat := s.row.toNat * s.width.toNat + s.col.toNat

/-- How many pixels the scan has still to read. -/
def pixelsLeft (s : State) : Nat := s.width.toNat * s.height.toNat - pixelsBefore s

theorem ScanInv.pixelsBefore_lt {s : State} (h : ScanInv s) : pixelsBefore s < s.width.toNat * s.height.toNat := by
  have hcol := h.colInRow
  calc s.row.toNat * s.width.toNat + s.col.toNat
      < (s.row.toNat + 1) * s.width.toNat := by rw [Nat.succ_mul]; omega
    _ ≤ s.height.toNat * s.width.toNat := Nat.mul_le_mul_right _ h.rowInGrid
    _ = s.width.toNat * s.height.toNat := Nat.mul_comm _ _

@[simp] theorem advanced_width (s t : State) : (advanced s t).width = t.width := by
  unfold advanced; split_ifs <;> rfl

/-- Before the last column the scan goes on in its row. -/
theorem advanced_inRow {s : State} (t : State) (hl : lastcolCond s ≠ true) :
    (advanced s t).col = s.col + 1#16 ∧ (advanced s t).row = t.row := by
  rw [advanced, if_neg hl]
  split_ifs <;> exact ⟨rfl, rfl⟩

/-- At the last column of a row that is not the last the scan goes to the next row. -/
theorem advanced_newRow {s : State} (t : State) (hl : lastcolCond s = true) (hlr : lastrowCond s ≠ true) :
    (advanced s t).col = 0#16 ∧ (advanced s t).row = s.row + 1#16 := by
  rw [advanced, if_pos hl, if_neg hlr]
  exact ⟨rfl, rfl⟩

/-- A PIX step that leaves the frame running takes the scan to the next pixel. -/
theorem pixelsBefore_pixStep {s : State} (px : Pixel) (h : ScanInv s) (hb : (pixStep px s).state.phase = .busy) :
    pixelsBefore (pixStep px s).state = pixelsBefore s + 1 := by
  rcases pixStep_cases px s with ⟨t, hf, -, hst⟩ | ⟨-, ⟨u, hst, -⟩ | ⟨u, hst, -⟩⟩
  · replace hst : pixStep px s = .cont (advanced s t) := hst
    have hwd : t.width = s.width := (rleFrame_width hf : t.width = (packed px s).width)
    have hrow : t.row = s.row := (rleFrame_row hf : t.row = (packed px s).row)
    rw [hst, Flow.state_cont] at hb ⊢
    by_cases hl : lastcolCond s = true
    · have hlc := (lastcol_iff h.colInRow).mp hl
      have hlr : lastrowCond s ≠ true := fun hlr => by simp [advanced, hl, hlr] at hb
      obtain ⟨hcol', hrow'⟩ := advanced_newRow t hl hlr
      rw [pixelsBefore, pixelsBefore, advanced_width, hwd, hcol', hrow', succ_toNat (row_succ_lt h.rowInGrid hlr), Nat.succ_mul,
        BitVec.toNat_zero]
      omega
    · obtain ⟨hcol', hrow'⟩ := advanced_inRow t hl
      rw [pixelsBefore, pixelsBefore, advanced_width, hwd, hcol', hrow', hrow, succ_toNat (col_succ_lt h.colInRow hl),
        Nat.add_assoc]
  · simp [hst] at hb
  · simp [hst] at hb

/-- The core's move on a served pixel ends the frame or leaves one pixel less to read. -/
theorem performCore_progress {s t : State} (hi : MachineInv s) (hb : s.phase = .busy) (hp : pixelServed s)
    (h : perform .core s = .next t) : frameEnded t ∨ (t.phase = .busy ∧ pixelsLeft t + 1 = pixelsLeft s) := by
  obtain ⟨px', hp⟩ := hp
  rcases performCore_busy hi hb h with ⟨hnone, -⟩ | ⟨px, -, rfl⟩
  · simp [hp] at hnone
  · obtain ⟨⟨-, -, hwd, hht, -⟩, ⟨hph, -⟩ | ⟨hd, -⟩ | ⟨he, -⟩⟩ := pixStep_ends px s
    · have hbefore := pixelsBefore_pixStep px (hi.scan hb) (hph.trans hb)
      have hlt := (hi.scan hb).pixelsBefore_lt
      refine .inr ⟨hph.trans hb, ?_⟩
      rw [pixelsLeft, pixelsLeft, hwd, hht, hbefore]
      omega
    · exact .inl (.inl hd)
    · exact .inl (.inr he)

/-- A frame that has ended stays so under the core's moves. -/
theorem frameEnded_coreSteps {s : State} (n : Nat) (h : frameEnded s) : frameEnded (coreSteps n s) := by
  have hb : s.phase ≠ .busy := by rcases h with h | h <;> simp [h]
  rwa [coreSteps_held n s hb]

/-- Of a served grid the pixel at the scan's place is served. -/
theorem pixelServed_of_servesGrid {s : State} {px : Nat → Nat → Pixel} (h : ScanInv s)
    (hg : servesGrid s.grid s.width.toNat s.height.toNat px) : pixelServed s :=
  ⟨_, hg _ _ h.colInRow h.rowInGrid⟩

/-- A served frame ends within the core's moves for the pixels that remain: by induction on their number. -/
theorem frameEnded_coreSteps_pixelsLeft {px : Nat → Nat → Pixel} (n : Nat) : ∀ {s : State}, MachineInv s → s.phase = .busy →
    servesGrid s.grid s.width.toNat s.height.toNat px → pixelsLeft s = n → frameEnded (coreSteps n s) := by
  induction n with
  | zero =>
    intro s hi hb _ hn
    have hlt := (hi.scan hb).pixelsBefore_lt
    unfold pixelsLeft at hn
    omega
  | succ n ih =>
    intro s hi hb hg hn
    obtain ⟨t, ht⟩ := performCore_next s
    simp only [coreSteps, ht]
    rcases performCore_progress hi hb (pixelServed_of_servesGrid (hi.scan hb) hg) ht with hend | ⟨hbt, hleft⟩
    · exact frameEnded_coreSteps n hend
    · have hgt : servesGrid t.grid t.width.toNat t.height.toNat px := by
        rcases performCore_busy hi hb ht with ⟨-, rfl⟩ | ⟨q, -, rfl⟩
        · exact hg
        · obtain ⟨⟨-, -, hwd, hht, -, -, -, hgrid, -⟩, -⟩ := pixStep_ends q s
          rwa [hwd, hht, hgrid]
      exact ih (machineInv_performCore hi ht) hbt hgt (by omega)

/-- Settles O58: with nothing to come the core moves alone, and each move of a running frame reads one pixel. -/
theorem framesTerminate : Obligations.FramesTerminate := fun s _ hi hb ha hg =>
  ⟨_, runSteps_alone _ s ha, frameEnded_coreSteps_pixelsLeft _ hi hb hg rfl⟩

end Sys2Proof.Machine

namespace Sys2Proof.Machine

/-! ## Reset and hazards (70_reset_and_hazards.md): proofs -/

/-! ### The reset event (R280, R281) -/

/-- Outside BUSY the core's moves only use the agenda up. -/
theorem runSteps_cores_held (n : Nat) {s : State} (h : s.phase ≠ .busy) :
    runSteps n { s with agenda := List.replicate n .core } = .next { s with agenda := [] } := by
  have hrun := runSteps_coreSteps n [] s
  rwa [List.append_nil, coreSteps_held n { s with agenda := [] } h] at hrun

/-- Settles O2: the reset event answers the reset values, whose phase is IDLE, where the core holds. -/
theorem resetEventAbandonsAnyFrame : Obligations.ResetEventAbandonsAnyFrame := by
  intro s rest
  have hheld : (resetEvent { s with agenda := rest }).phase ≠ .busy := nofun
  exact ⟨resetEvent { s with agenda := rest }, step_cons s .reset rest, rfl, rfl, rfl, rfl, rfl, rfl, rfl, rfl, rfl, rfl,
    fun n => runSteps_cores_held n hheld⟩

/-! ### Register accesses among the core's moves (R295) -/

/-- A core move, whatever the answer of the last read: the same move, with that answer kept. -/
theorem step_core_rdata {u v : State} {rest : List Event} (d : Data) (h : step { u with agenda := .core :: rest } = .next v) :
    step { u with agenda := .core :: rest, rdata := d } = .next { v with rdata := d } := by
  have hcore : perform .core { u with agenda := rest } = .next v := h
  have hown := performCore_own rest d { u with agenda := rest }
  rw [hcore] at hown
  have hagenda : v.agenda = rest := (performCore_ownFields hcore).1
  subst hagenda
  exact hown

/-- Settles O59: the accesses leave the state of the core's moves alone but for RDATA, which the last core move does not read. -/
theorem hostAccessesDoNotDisturbAFrame : Obligations.HostAccessesDoNotDisturbAFrame := by
  intro s u v moves rest hmoves _ hrun hbusy hstep
  have halone := runSteps_coreSteps (coreCount moves) (.core :: rest) s
  obtain rfl := Host.Outcome.next.inj (halone.symm.trans hrun)
  obtain ⟨d, hmixed⟩ := runSteps_interleaved moves (.core :: rest) hmoves { s with agenda := .core :: rest } hbusy
  refine ⟨d, (runSteps_add moves.length 1 _ _ hmixed).trans ?_⟩
  exact runSteps_succ 0 (step_core_rdata d hstep)

/-! ### What the core's steps of a frame read (R282, R295; 90_conflicts.md C11) -/

/-- Two states agree on the configuration as it reads, the sizes, the grid, the scan, the error record and OUT. -/
structure SameScan (s t : State) : Prop where
  phase : s.phase = t.phase
  thresh : s.thresh = t.thresh
  comp : compEnabled s = compEnabled t
  width : s.width = t.width
  height : s.height = t.height
  bpr : s.bpr = t.bpr
  total : s.total = t.total
  errCause : s.errCause = t.errCause
  errInfo : s.errInfo = t.errInfo
  acc : s.acc = t.acc
  nbits : s.nbits = t.nbits
  col : s.col = t.col
  row : s.row = t.row
  out : s.out = t.out
  grid : s.grid = t.grid

/-- They agree on the compressor: on PEND once the row has a digit, on PREV once it is valid (41_rle_compressor.md R161). -/
structure SameRle (s t : State) : Prop where
  run : s.run = t.run
  fresh : s.fresh = t.fresh
  line : s.line = t.line
  prevValid : s.prevValid = t.prevValid
  pend : s.fresh = false → s.pend = t.pend
  prev : s.prevValid = true → s.prev = t.prev

/-- They agree on all that RleStep reads and writes. -/
structure SameStream (s t : State) : Prop extends SameScan s t, SameRle s t

/-- They agree on all that the rest of a running frame reads; the compressor is read with compression on only. -/
structure SameFrame (s t : State) : Prop extends SameScan s t where
  rle : compEnabled s = true → SameRle s t

theorem SameScan.frameResult_eq {s t : State} (h : SameScan s t) : frameResult s = frameResult t := by
  simp only [frameResult, h.phase, h.errCause, h.errInfo, h.bpr, h.total, h.out]

theorem SameScan.pixelAddressValid_eq {s t : State} (h : SameScan s t) : pixelAddressValid s = pixelAddressValid t := by
  simp only [pixelAddressValid, h.col, h.row, h.width, h.height]

/-- Two flows keep step: both go on, in states that `R` relates, or both have entered the error with the same result. -/
def Flow.Alike (R : State → State → Prop) : Flow → Flow → Prop
  | .cont s, .cont t => R s t
  | .stop s, .stop t => s.phase = .err ∧ frameResult s = frameResult t
  | _, _ => False

theorem Flow.Alike.mono {R Q : State → State → Prop} {f g : Flow} (h : f.Alike R g) (hRQ : ∀ s t, R s t → Q s t) :
    f.Alike Q g := by
  cases f <;> cases g
  · exact hRQ _ _ h
  · exact h
  · exact h
  · exact h

theorem Flow.Alike.andThen {R Q : State → State → Prop} {f g : Flow} {k l : State → Flow} (h : f.Alike R g)
    (hk : ∀ s t, R s t → (k s).Alike Q (l t)) : (f.andThen k).Alike Q (g.andThen l) := by
  cases f <;> cases g
  · exact hk _ _ h
  · exact h.elim
  · exact h.elim
  · exact h

theorem alike_errorEntry {R : State → State → Prop} {s t : State} (h : SameScan s t) (x : ErrCause) (n : BitVec 14) :
    (Flow.stop (errorEntry x n s)).Alike R (.stop (errorEntry x n t)) :=
  ⟨rfl, by simp [frameResult, h.bpr, h.total, h.out]⟩

/-! #### The compressor -/

section Compressor

variable {s t : State} (h : SameStream s t)
include h

theorem sameStream_seedRun (c : Byte) : SameStream (seedRun c s) (seedRun c t) :=
  { h with run := rfl, fresh := rfl, pend := fun _ => rfl }

theorem sameStream_extendRun : SameStream (extendRun s) (extendRun t) :=
  { h with run := congrArg (· + 1#14) h.run }

theorem sameStream_line (text : List Byte) :
    SameStream { s with line := s.line ++ text } { t with line := t.line ++ text } :=
  { h with line := congrArg (· ++ text) h.line }

theorem alike_appendRun (hf : s.fresh = false) : (appendRun s).Alike SameStream (appendRun t) := by
  have henc : encodeRun t.run.toNat t.pend = encodeRun s.run.toNat s.pend := by rw [h.run, h.pend hf]
  cases hs : encodeRun s.run.toNat s.pend with
  | some text =>
    rw [appendRun_some hs, appendRun_some (henc.trans hs)]
    exact sameStream_line h text
  | none =>
    rw [appendRun_none hs, appendRun_none (henc.trans hs), ← h.run]
    exact alike_errorEntry h.toSameScan .encodingRange s.run

theorem alike_boundRun (c : Byte) (hf : s.fresh = false) : (boundRun c s).Alike SameStream (boundRun c t) :=
  (alike_appendRun h hf).andThen fun _ _ h' => { h' with run := rfl, pend := fun _ => rfl }

theorem alike_closeRun (hf : s.fresh = false) : (closeRun s).Alike SameStream (closeRun t) := by
  have hpend := h.pend hf
  by_cases hs : isFill s
  · obtain ⟨hn, hp | hp⟩ := hs
    · rw [closeRun_fill0 hn hp, closeRun_fill0 (h.bpr ▸ h.run ▸ hn) (hpend ▸ hp)]
      exact sameStream_line h _
    · rw [closeRun_fill1 hn hp, closeRun_fill1 (h.bpr ▸ h.run ▸ hn) (hpend ▸ hp)]
      exact sameStream_line h _
  · have ht : ¬isFill t := by
      rwa [isFill, ← h.bpr, ← h.run, ← hpend]
    rw [closeRun_normal hs, closeRun_normal ht]
    exact alike_appendRun h hf

/-- FLUSH_LINE sends the same characters (41_rle_compressor.md R168). -/
theorem flushedText_eq :
    (if s.prevValid = true ∧ s.line = s.prev then [chrRepeat] else s.line) =
      if t.prevValid = true ∧ t.line = t.prev then [chrRepeat] else t.line := by
  rw [← h.prevValid, ← h.line]
  cases hv : s.prevValid with
  | true => rw [h.prev hv]
  | false => simp

theorem alike_breakRow (hf : s.fresh = false) : (breakRow s).Alike SameStream (breakRow t) := by
  refine (alike_closeRun h hf).andThen fun u v h' => ?_
  rw [flushLine_eq, flushLine_eq]
  exact { h' with
    out := congrArg₂ (· ++ ·) h'.out (flushedText_eq h')
    run := rfl, fresh := rfl, line := rfl, prevValid := rfl
    pend := nofun
    prev := fun _ => h'.line }

/-- RleStep selects the same micro-operation in both states (41_rle_compressor.md R162). -/
theorem alike_rleStep (c : Byte) : (rleStep c s).Alike SameStream (rleStep c t) := by
  unfold rleStep sameCond
  rw [← h.fresh]
  cases hf : s.fresh with
  | true => exact sameStream_seedRun h c
  | false =>
    rw [← h.pend hf]
    simp only [Bool.false_eq_true, if_false]
    split
    · exact alike_breakRow h hf
    · split
      · exact sameStream_extendRun h
      · exact alike_boundRun h c hf

end Compressor

/-! #### The rasterizer -/

section Rasterizer

variable {s t : State} (h : SameFrame s t)
include h

theorem alike_emit (c : Byte) : (emit c s).Alike SameFrame (emit c t) := by
  cases hc : compEnabled s with
  | true =>
    rw [emit_compressed c s hc, emit_compressed c t (h.comp ▸ hc)]
    exact (alike_rleStep ⟨h.toSameScan, h.rle hc⟩ c).mono fun _ _ h' => ⟨h'.toSameScan, fun _ => h'.toSameRle⟩
  | false =>
    rw [emit_raw c s hc, emit_raw c t (h.comp ▸ hc)]
    exact { h with out := congrArg (· ++ [c]) h.out, rle := fun hc => { h.rle hc with } }

theorem alike_emitByte : (emitByte s).Alike SameFrame (emitByte t) := by
  unfold emitByte
  rw [← h.acc]
  refine (alike_emit h _).andThen fun _ _ h1 => (alike_emit h1 _).andThen fun _ _ h2 => ?_
  exact { h2 with acc := rfl, nbits := rfl, rle := fun hc => { h2.rle hc with } }

theorem alike_rowEnd (lastrow : Bool) : (rowEnd lastrow s).Alike SameFrame (rowEnd lastrow t) := by
  refine (alike_emit h Config.rbCode).andThen fun _ _ h' => ?_
  cases lastrow with
  | true => exact { h' with col := rfl, phase := rfl, rle := fun hc => { h'.rle hc with } }
  | false => exact { h' with col := rfl, row := congrArg (· + 1#16) h'.row, rle := fun hc => { h'.rle hc with } }

theorem sameFrame_packed (px : Pixel) : SameFrame (packed px s) (packed px t) := by
  have hacc : packBit s.acc s.nbits (isBlack px s.thresh) = packBit t.acc t.nbits (isBlack px t.thresh) := by
    rw [h.acc, h.nbits, h.thresh]
  exact { h with acc := hacc, rle := fun hc => { h.rle hc with } }

/-- A PIX step on the same sample (40_rasterizer.md R133). -/
theorem alike_pixStep (px : Pixel) : (pixStep px s).Alike SameFrame (pixStep px t) := by
  have hp := sameFrame_packed h px
  have hfull : fullCond s = fullCond t := by simp only [fullCond, h.nbits]
  have hlastcol : lastcolCond s = lastcolCond t := by simp only [lastcolCond, h.col, h.width]
  have hlastrow : lastrowCond s = lastrowCond t := by simp only [lastrowCond, h.row, h.height]
  rw [pixStep_eq, pixStep_eq, ← hfull, ← hlastcol, ← hlastrow]
  refine Flow.Alike.andThen (R := SameFrame) ?_ fun _ _ h' => ?_
  · split
    · exact alike_emitByte hp
    · exact { hp with nbits := congrArg (· + 1#3) h.nbits, rle := fun hc => { hp.rle hc with } }
  · split
    · exact alike_rowEnd h' _
    · exact { h' with col := congrArg (· + 1#16) h'.col, rle := fun hc => { h'.rle hc with } }

end Rasterizer

/-! #### Runs of the core -/

/-- Two machines show the same result, and while BUSY agree on all that the rest of the frame reads. -/
structure SameRun (s t : State) : Prop where
  result : frameResult s = frameResult t
  running : s.phase = .busy → SameFrame s t ∧ ScanInv s

theorem SameRun.phase_eq {s t : State} (h : SameRun s t) : s.phase = t.phase := congrArg FrameResult.phase h.result

theorem sameRun_pixStep {s t : State} (px : Pixel) (h : SameFrame s t) (hs : ScanInv s) (hb : s.phase = .busy) :
    SameRun (pixStep px s).state (pixStep px t).state := by
  have hscan := scanInv_pixStep px hs hb
  have halike := alike_pixStep h px
  cases hps : pixStep px s <;> cases hpt : pixStep px t <;> rw [hps, hpt] at halike
  · exact ⟨halike.frameResult_eq, fun hb' => ⟨halike, hps ▸ hscan (hps ▸ hb')⟩⟩
  · exact halike.elim
  · exact halike.elim
  · exact ⟨halike.2, fun hb' => by simp [halike.1] at hb'⟩

theorem performCore_served {s : State} {px : Pixel} (hb : s.phase = .busy) (hv : pixelAddressValid s = true)
    (hp : pixRead s.grid s.col.toNat s.row.toNat = some px) : perform .core s = .next (pixStep px s).state := by
  obtain ⟨hc, hr⟩ := Bool.and_eq_true_iff.mp hv
  rw [← exec_pix_eq_performCore]
  exact execPix_served hb (of_decide_eq_true hc) (of_decide_eq_true hr) hp

/-- The core's move: the same hold, the same wait for the pixel source, or a PIX step on the same sample. -/
theorem sameRun_performCore {s t s' t' : State} (h : SameRun s t) (hs : perform .core s = .next s')
    (ht : perform .core t = .next t') : SameRun s' t' := by
  by_cases hb : s.phase = .busy
  · obtain ⟨hf, hscan⟩ := h.running hb
    have hvs : pixelAddressValid s = true := by simp [pixelAddressValid, hscan.colInRow, hscan.rowInGrid]
    have hvt : pixelAddressValid t = true := hf.pixelAddressValid_eq ▸ hvs
    have hread : pixRead t.grid t.col.toNat t.row.toNat = pixRead s.grid s.col.toNat s.row.toNat := by
      rw [hf.grid, hf.col, hf.row]
    cases hp : pixRead s.grid s.col.toNat s.row.toNat with
    | none =>
      obtain rfl := Host.Outcome.next.inj ((performCore_unserved hvs hp).symm.trans hs)
      obtain rfl := Host.Outcome.next.inj ((performCore_unserved hvt (hread.trans hp)).symm.trans ht)
      exact h
    | some px =>
      obtain rfl := Host.Outcome.next.inj ((performCore_served hb hvs hp).symm.trans hs)
      obtain rfl := Host.Outcome.next.inj ((performCore_served (h.phase_eq ▸ hb) hvt (hread.trans hp)).symm.trans ht)
      exact sameRun_pixStep px hf hscan hb
  · obtain rfl := performCore_stays hs hb
    obtain rfl := performCore_stays ht (h.phase_eq ▸ hb)
    exact h

theorem sameRun_coreSteps (n : Nat) : ∀ {s t : State}, SameRun s t → SameRun (coreSteps n s) (coreSteps n t) := by
  induction n with
  | zero => exact id
  | succ n ih =>
    intro s t h
    obtain ⟨s', hs⟩ := performCore_next s
    obtain ⟨t', ht⟩ := performCore_next t
    simp only [coreSteps, hs, ht]
    exact ih (sameRun_performCore h hs ht)

/-! #### START -/

/-- Two states agree on what START and the frame after it read. -/
structure SameConfig (s t : State) : Prop where
  thresh : s.thresh = t.thresh
  comp : compEnabled s = compEnabled t
  width : s.width = t.width
  height : s.height = t.height
  grid : s.grid = t.grid

theorem hasRle_of_compEnabled {s : State} (h : compEnabled s = true) : s.hasRle = true := (Bool.and_eq_true_iff.mp h).1

section Start

variable {s t : State} (h : SameConfig s t)
include h

theorem SameConfig.bytesPerRow_eq : bytesPerRow s.width = bytesPerRow t.width := congrArg bytesPerRow h.width

theorem SameConfig.totalBytes_eq :
    totalBytes (bytesPerRow s.width) s.height = totalBytes (bytesPerRow t.width) t.height := by
  rw [h.width, h.height]

/-- START writes every register a frame reads but those of the configuration, the compressor's where compression is on (R132). -/
theorem sameFrame_beginScan : SameFrame (beginScan (startSized s)) (beginScan (startSized t)) := by
  have hscan : SameScan (beginScan (startSized s)) (beginScan (startSized t)) := by
    rw [beginScan_eq, beginScan_eq]
    exact { h with
      phase := rfl, bpr := h.bytesPerRow_eq, total := h.totalBytes_eq, errCause := rfl, errInfo := rfl
      acc := rfl, nbits := rfl, col := rfl, row := rfl, out := rfl }
  refine ⟨hscan, fun hc => ?_⟩
  rw [compEnabled_beginScan_startSized] at hc
  have hs : (startSized s).hasRle = true := hasRle_of_compEnabled hc
  have ht : (startSized t).hasRle = true := hasRle_of_compEnabled (h.comp ▸ hc)
  rw [beginScan_eq, beginScan_eq]
  constructor <;> simp [hs, ht]

/-- START of a frame with dimensions that are not negative: the empty frame, or the scan (R132). -/
theorem sameRun_startFrame (hw : negativeDim s.width = false) (hh : negativeDim s.height = false) :
    SameRun (startFrame s).state (startFrame t).state := by
  have hwt : negativeDim t.width = false := h.width ▸ hw
  have hht : negativeDim t.height = false := h.height ▸ hh
  by_cases h0 : s.width = 0#16 ∨ s.height = 0#16
  · rw [startFrame_empty s hw hh h0, startFrame_empty t hwt hht (h.width ▸ h.height ▸ h0)]
    exact ⟨congrArg₂ (FrameResult.mk .done .noError 0#14 · · []) h.bytesPerRow_eq h.totalBytes_eq, nofun⟩
  · obtain ⟨hw0, hh0⟩ := not_or.mp h0
    rw [startFrame_scan s hw hh hw0 hh0, startFrame_scan t hwt hht (h.width ▸ hw0) (h.height ▸ hh0)]
    have hf := sameFrame_beginScan h
    exact ⟨hf.frameResult_eq, fun _ => ⟨hf, scanInv_beginScan hw hh hw0 hh0⟩⟩

end Start

/-- After START in IDLE, with no other move to come, further steps are core moves, however START ended. -/
theorem runSteps_startFrame {s : State} (hi : BitVec 30) (n : Nat) (hp : s.phase = .idle) :
    runSteps (1 + n) { s with agenda := [startEvent hi] } = .next (coreSteps n (startFrame { s with agenda := [] }).state) := by
  have hstart : step { s with agenda := [startEvent hi] } = .next (startFrame { s with agenda := [] }).state :=
    (step_start s hi []).trans (exec_start_idle hi hp)
  rw [Nat.add_comm, runSteps_succ n hstart]
  exact runSteps_alone n _ (startFrame_agenda _)

/-- Settles O60: after START the two machines agree on all that a frame reads, and every core move keeps that. -/
theorem resultDependsOnlyOnConfigurationAndGrid : Obligations.ResultDependsOnlyOnConfigurationAndGrid := by
  intro s t hi hs ht hthresh hcomp hwidth hheight hgrid hw hh n
  have hconfig : SameConfig { s with agenda := [] } { t with agenda := [] } := ⟨hthresh, hcomp, hwidth, hheight, hgrid⟩
  have hstart := sameRun_startFrame hconfig ((negativeDim_false_iff_toInt _).mpr hw) ((negativeDim_false_iff_toInt _).mpr hh)
  exact ⟨_, _, runSteps_startFrame hi n hs, runSteps_startFrame hi n ht, (sameRun_coreSteps n hstart).result⟩

end Sys2Proof.Machine
